-- ==== Sys2Proof/Word.lean ====
section
/-! DEFINITION. The word types of the unit: port elements and tile cells (00_scope R9, VAL_BITS = 8) and
command words (30_encoding R100). -/

namespace Sys2Proof

/-- One element of a port, one tile cell, one byte of a section. -/
abbrev Byte := BitVec 8

/-- One command word, presented whole on the command port (30_encoding R100). -/
abbrev Command := BitVec 32

end Sys2Proof
end

