-- ==== Sys2Proof/Config.lean ====
section
/-! DEFINITION. What an implementation fixes: the unit's parameters (00_scope R9, R10), its fixed bounds, and the
free values for what the spec leaves unspecified (10_state R55, 93_implementation_defined U3 and U4). -/

namespace Sys2Proof

/-- The parameter BIT_ORDER (20_memory R70, R71). -/
inductive BitOrder where
  | msbFirst
  | lsbFirst
deriving DecidableEq, Repr

/-- The parameters of one unit (00_scope R9): constants of the unit that a GETREG of PARAM shows. -/
structure Params where
  bitOrder : BitOrder
  nomH : Byte
  nomW : Byte
deriving DecidableEq, Repr

/-- `NOM_AREA = NOM_H * NOM_W` (00_scope R9). -/
def Params.area (p : Params) : Nat := p.nomH.toNat * p.nomW.toNat

/-- Legal parameters: `NOM_H` and `NOM_W` each in 1..255 (00_scope R9). -/
def Params.wf (p : Params) : Bool := p.nomH != 0 && p.nomW != 0

/-- The default parameters (00_scope R9). -/
def Params.default : Params := { bitOrder := .msbFirst, nomH := 3, nomW := 3 }

/-- `DIM_MAX`, the largest legal HEIGHT or WIDTH (00_scope R9). -/
def Config.dimMax : Nat := 262144

/-- DESIGN CHOICE (safe; assumption 8): the free values. The `k`-th value drawn for a piece of state that the
spec calls unspecified; nothing constrains it. -/
opaque Config.unspecified : Nat → Byte

end Sys2Proof
end

