-- ==== Sys2Proof/Syntax.lean ====
section
/-! DEFINITION. The sixteen commands (30_encoding R106), one constructor per row of the opcode table, with the
operands of their formats (R101 to R105). -/

namespace Sys2Proof

/-- A command of the unit. -/
inductive Instr where
  /-- answers, does nothing (R231) -/
  | nop
  /-- sets HEIGHT (R232) -/
  | seth (imm : BitVec 24)
  /-- sets WIDTH (R233) -/
  | setw (imm : BitVec 24)
  /-- reads the register numbered `r` (R234) -/
  | getreg (r : BitVec 8)
  /-- clears the error latch (R235) -/
  | clrerr
  /-- resets the unit (R236) -/
  | sreset
  /-- packs at width 5 (R170) -/
  | pack5
  /-- packs at width 7 (R171) -/
  | pack7
  /-- unpacks at width 5; `e` asks for the end-of-stream check (R190) -/
  | unpack5 (e : Bool)
  /-- unpacks at width 7; `e` asks for the end-of-stream check (R191) -/
  | unpack7 (e : Bool)
  /-- loads tile buffer TA (R210) -/
  | lda (th tw : Byte)
  /-- loads tile buffer TB (R211) -/
  | ldb (th tw : Byte)
  /-- unsigned sum of TA (R212) -/
  | tsum
  /-- rounded average of TA over the nominal area (R213) -/
  | tavg
  /-- L1 distance of TA and TB (R214) -/
  | tdiff
  /-- signed sum of differences, TA minus TB (R215) -/
  | tdsum
deriving DecidableEq, Repr

end Sys2Proof
end

