-- ==== Sys2Proof/WellFormed.lean ====
section
/-! DEFINITION. Which commands have a legal word (30_encoding R116, R118): every field is as wide as its format
says, so the one check left is that a GETREG names one of the registers 0 to 8 (10_state R40). -/

namespace Sys2Proof

/-- The command has a legal word. -/
def Instr.wf : Instr → Bool
  | .nop => true
  | .seth _ => true
  | .setw _ => true
  | .getreg r => decide (r.toNat ≤ 8)
  | .clrerr => true
  | .sreset => true
  | .pack5 => true
  | .pack7 => true
  | .unpack5 _ => true
  | .unpack7 _ => true
  | .lda _ _ => true
  | .ldb _ _ => true
  | .tsum => true
  | .tavg => true
  | .tdiff => true
  | .tdsum => true

end Sys2Proof
end

