-- ==== Sys2Proof/Decode.lean ====
section
/-! DEFINITION. The decoder of command words, total, rejecting by name (30_encoding R100 to R107, R115 to R118), and
after it the encoder, written from the same formats. Legality is decided from the word alone (R118). -/

namespace Sys2Proof

/-- Why a word is illegal (30_encoding R115, R116). -/
inductive IllegalWord where
  /-- the opcode is not one of the sixteen (R115) -/
  | reservedOpcode
  /-- a field that the format requires to be 0 is not (R116) -/
  | reservedField
  /-- a GETREG of a number above 8 (R116) -/
  | undefinedRegister
deriving DecidableEq, Repr

/-- Format Z (R101): bits 23:0 must be 0. -/
def decodeZ (x : Command) (i : Instr) : Except IllegalWord Instr :=
  if x.extractLsb' 0 24 = 0 then .ok i else .error .reservedField

/-- Format I (R102): bits 23:0 are the immediate. -/
def decodeI (x : Command) (i : BitVec 24 → Instr) : Except IllegalWord Instr :=
  .ok (i (x.extractLsb' 0 24))

/-- Format T (R103): bits 23:16 must be 0, `th` is bits 15:8 and `tw` bits 7:0. -/
def decodeT (x : Command) (i : Byte → Byte → Instr) : Except IllegalWord Instr :=
  if x.extractLsb' 16 8 = 0 then .ok (i (x.extractLsb' 8 8) (x.extractLsb' 0 8)) else .error .reservedField

/-- Format R (R104): bits 23:8 must be 0, bits 7:0 name a register 0 to 8. -/
def decodeR (x : Command) (i : BitVec 8 → Instr) : Except IllegalWord Instr :=
  if x.extractLsb' 8 16 = 0 then
    if (x.extractLsb' 0 8).toNat ≤ 8 then .ok (i (x.extractLsb' 0 8)) else .error .undefinedRegister
  else .error .reservedField

/-- Format U (R105): bits 23:1 must be 0, bit 0 is `e`. -/
def decodeU (x : Command) (i : Bool → Instr) : Except IllegalWord Instr :=
  if x.extractLsb' 1 23 = 0 then .ok (i (x.getLsbD 0)) else .error .reservedField

/-- The decoder: the opcode map of R106, each opcode with its format. -/
def decode (x : Command) : Except IllegalWord Instr :=
  let op := x.extractLsb' 24 8
  if op = 0x00 then decodeZ x .nop
  else if op = 0x01 then decodeI x .seth
  else if op = 0x02 then decodeI x .setw
  else if op = 0x03 then decodeR x .getreg
  else if op = 0x04 then decodeZ x .clrerr
  else if op = 0x05 then decodeZ x .sreset
  else if op = 0x10 then decodeZ x .pack5
  else if op = 0x11 then decodeZ x .pack7
  else if op = 0x12 then decodeU x .unpack5
  else if op = 0x13 then decodeU x .unpack7
  else if op = 0x20 then decodeT x .lda
  else if op = 0x21 then decodeT x .ldb
  else if op = 0x22 then decodeZ x .tsum
  else if op = 0x23 then decodeZ x .tavg
  else if op = 0x24 then decodeZ x .tdiff
  else if op = 0x25 then decodeZ x .tdsum
  else .error .reservedOpcode

/-- The host's view of the decoder: `nbits` bits of a word, bit 0 least significant; a command is 32 bits. -/
def decodeTableWord (nbits w : Nat) : Option Instr :=
  if nbits ≤ 32 then (decode (BitVec.ofNat 32 (w % 2 ^ nbits))).toOption else none

/-- Format Z: opcode and 24 zero bits. -/
def encodeZ (op : BitVec 8) : Command := op ++ 0#24

/-- Format I: opcode and immediate. -/
def encodeI (op : BitVec 8) (imm : BitVec 24) : Command := op ++ imm

/-- Format T: opcode, 8 zero bits, `th`, `tw`. -/
def encodeT (op : BitVec 8) (th tw : Byte) : Command := op ++ 0#8 ++ th ++ tw

/-- Format R: opcode, 16 zero bits, the register number. -/
def encodeR (op : BitVec 8) (r : BitVec 8) : Command := op ++ 0#16 ++ r

/-- Format U: opcode, 23 zero bits, `e`. -/
def encodeU (op : BitVec 8) (e : Bool) : Command := op ++ 0#23 ++ BitVec.ofBool e

/-- The word of a command (30_encoding R101 to R106). -/
def encode : Instr → Command
  | .nop => encodeZ 0x00
  | .seth imm => encodeI 0x01 imm
  | .setw imm => encodeI 0x02 imm
  | .getreg r => encodeR 0x03 r
  | .clrerr => encodeZ 0x04
  | .sreset => encodeZ 0x05
  | .pack5 => encodeZ 0x10
  | .pack7 => encodeZ 0x11
  | .unpack5 e => encodeU 0x12 e
  | .unpack7 e => encodeU 0x13 e
  | .lda th tw => encodeT 0x20 th tw
  | .ldb th tw => encodeT 0x21 th tw
  | .tsum => encodeZ 0x22
  | .tavg => encodeZ 0x23
  | .tdiff => encodeZ 0x24
  | .tdsum => encodeZ 0x25

end Sys2Proof
end

