-- ==== Sys2Proof/Machine/State.lean ====
section
/-! DEFINITION. The state of the unit and of the ports around it (10_state R20 to R50, 20_memory R60 to R67), as
plain data; the state after reset (10_state R55); the reasons a step can stop. -/

namespace Sys2Proof.Machine

open Sys2Proof

/-- Why the machine stops. Every error of the unit is a next state (60_exceptions R258), so one reason is left. -/
inductive Fault where
  /-- Raised by PACK5, PACK7, UNPACK5, UNPACK7, LDA and LDB when a port never answers a pull or a push: the
  command has no further step and never responds (93_implementation_defined U6, 70 R312). Safe: the machine stops
  where the hardware hangs (assumption 4). -/
  | portNeverAnswers
deriving DecidableEq, Repr

/-- Why an instruction has no meaning. -/
inductive Refusal where
  /-- Raised by exec's arm of an instruction that has no meaning yet (none is left). Safe. -/
  | notModelled (mnemonic : String)
deriving DecidableEq, Repr

/-- The error kinds of the unit (60_exceptions R251). -/
inductive ErrKind where
  | badData
  | badOutput
  | badDimensions
  | badCommand
deriving DecidableEq, Repr

/-- What a pull meets when no element waits: the answer `EOS` (20_memory R64, R66), or no answer at all
(93_implementation_defined U6). -/
inductive AtEnd where
  | eos
  | never
deriving DecidableEq, Repr

/-- An input port, VIN or BIN: the elements waiting, head first, and what follows them. -/
structure InPort where
  queue : List Byte
  atEnd : AtEnd
deriving DecidableEq, Repr

/-- The sink's answer to one push on BOUT: `ok`, `fail` (20_memory R67), or no answer at all (U6). -/
inductive SinkAnswer where
  | ok
  | fail
  | never
deriving DecidableEq, Repr

/-- A tile buffer (10_state R45): VALID, H, W, and the cells, `cell[r][c]` at index `r * NOM_W + c` (DESIGN CHOICE,
safe; assumption 12). -/
structure TileBuf where
  valid : Bool
  h : Byte
  w : Byte
  cells : List Byte
deriving DecidableEq, Repr

/-- A response `{ERR, RES}` (30_encoding R108). -/
structure Response where
  err : BitVec 8
  res : BitVec 64
deriving DecidableEq, Repr

/-- One thing the host does between two commands (70_reset_and_hazards R309; DESIGN CHOICE, assumption 2). -/
inductive HostAction where
  /-- presents a command word -/
  | command (word : Command)
  /-- queues elements on VIN behind those waiting -/
  | queueVin (xs : List Byte)
  /-- queues bytes on BIN behind those waiting -/
  | queueBin (xs : List Byte)
  /-- takes back the first `k` elements waiting on VIN -/
  | dropVin (k : Nat)
  /-- takes back the first `k` bytes waiting on BIN (a separator, for example: 20_memory R78) -/
  | dropBin (k : Nat)
  /-- settles what a pull on VIN meets when nothing waits -/
  | endVin (e : AtEnd)
  /-- settles what a pull on BIN meets when nothing waits -/
  | endBin (e : AtEnd)
  /-- settles the sink's answers to the next pushes -/
  | sinkAnswers (answers : List SinkAnswer)
  /-- the platform's reset (R290) -/
  | reset
deriving DecidableEq, Repr

/-- The state. -/
structure State where
  /-- the unit's parameters, constants (00_scope R9; assumption 1) -/
  params : Params
  /-- HEIGHT (R35) -/
  height : BitVec 19
  /-- WIDTH (R36) -/
  width : BitVec 19
  /-- ERR, the error latch (R37) -/
  err : BitVec 8
  /-- RES (R38) -/
  res : BitVec 64
  /-- VCNT (R39) -/
  vcnt : BitVec 37
  /-- BCNT (R39) -/
  bcnt : BitVec 37
  /-- TA, the tile under measurement (R45) -/
  ta : TileBuf
  /-- TB, the reference tile (R45) -/
  tb : TileBuf
  /-- CUR (R22) -/
  cur : BitVec 8
  /-- REM (R23) -/
  rem : BitVec 4
  /-- ACC (R24) -/
  acc : BitVec 8
  /-- ACCBITS (R25) -/
  accBits : BitVec 4
  /-- STEP (R31) -/
  step : BitVec 4
  /-- the port VIN -/
  vin : InPort
  /-- the port BIN -/
  bin : InPort
  /-- everything pushed to VOUT, first push first -/
  vout : List Byte
  /-- every byte BOUT's sink has accepted, first push first -/
  bout : List Byte
  /-- the sink's answers to the next pushes; once exhausted, `ok` (assumption 5) -/
  sink : List SinkAnswer
  /-- every response returned, first one first (30_encoding R108) -/
  responses : List Response
  /-- what the host is going to do, next first (assumption 2) -/
  host : List HostAction
  /-- how many free values have been drawn: the model's own field (assumption 8) -/
  fresh : Nat
deriving DecidableEq, Repr

/-- An empty tile buffer (10_state R46): VALID = 0, H = W = 0, and cells whose values `f` gives, since the spec
gives none. -/
def TileBuf.blank (p : Params) (f : Nat → Byte) : TileBuf :=
  { valid := false, h := 0, w := 0, cells := (List.range p.area).map f }

/-- The machine right after reset (10_state R55), at the default parameters. The values R55 leaves unspecified
(the cells and the five working registers) are 0: DESIGN CHOICE, unsafe (assumption 7). -/
def State.reset : State where
  params := Params.default
  height := 0
  width := 0
  err := 0
  res := 0
  vcnt := 0
  bcnt := 0
  ta := TileBuf.blank Params.default (fun _ => 0)
  tb := TileBuf.blank Params.default (fun _ => 0)
  cur := 0
  rem := 0
  acc := 0
  accBits := 0
  step := 0
  vin := { queue := [], atEnd := .eos }
  bin := { queue := [], atEnd := .eos }
  vout := []
  bout := []
  sink := []
  responses := []
  host := []
  fresh := 0

end Sys2Proof.Machine
end

