-- ==== Sys2Proof/Machine/Flags.lean ====
section
/-! DEFINITION. What acts as a flag in the unit (10_state R34): the error latch and the two VALID flags; the codes of
the error kinds (60_exceptions R251). The unit has no condition code and no arithmetic flag. -/

namespace Sys2Proof.Machine

open Sys2Proof

/-- The code of an error kind (R251). -/
def ErrKind.code : ErrKind → BitVec 8
  | .badData => 1
  | .badOutput => 2
  | .badDimensions => 3
  | .badCommand => 4

/-- The error latch is set: `ERR != 0` (10_state R34, R37). -/
def latched (s : State) : Bool := s.err != 0

/-- The latch after an error of kind `k`: the first error stays (60_exceptions R258). -/
def latchAfter (k : ErrKind) (err : BitVec 8) : BitVec 8 :=
  if err = 0 then k.code else err

/-- `TA.VALID` (10_state R46). -/
def validA (s : State) : Bool := s.ta.valid

/-- `TB.VALID` (10_state R46). -/
def validB (s : State) : Bool := s.tb.valid

end Sys2Proof.Machine
end

