-- ==== Sys2Proof/Machine/Tables.lean ====
section
/-! DEFINITION. The two bit arithmetic primitives (40_bit_primitives R130, R131) and the four mask tables for each
bit order (R138 to R141, R149), entry by entry as the spec prints them. -/

namespace Sys2Proof.Machine

open Sys2Proof

/-- The operating width (00_scope R3): 5 or 7, and no other. -/
inductive Width where
  | w5
  | w7
deriving DecidableEq, Repr

/-- The width as a number of bits. -/
def Width.bits : Width → Nat
  | .w5 => 5
  | .w7 => 7

/-- `CYCLE(w)`, the number of entries of a table (00_scope R9). -/
def Width.cycle : Width → Nat
  | .w5 => 12
  | .w7 => 14

/-- `dshift(b, s)` (R130): left for a negative `s`, right for a positive one, zeros shifted in, 8-bit result.
The spec's domain is `-7 .. +7`, which every table entry meets (assumption 17). -/
def dshift (b : Byte) (s : Int) : Byte :=
  if s < 0 then b <<< (-s).toNat else b >>> s.toNat

/-- `popcount8(b)` (R131): how many bits of `b` are 1. -/
def popcount8 (b : Byte) : Nat :=
  ((List.range 8).filter b.getLsbD).length

/-- A mask table entry `{mask, shift, n}` (30_encoding R110, 40_bit_primitives R134). -/
structure Entry where
  mask : Byte
  shift : Int
  n : Nat
deriving DecidableEq, Repr

/-- WT(5), MSB_FIRST (R138). -/
def writeTable5Msb : List Entry :=
  [⟨0x1F, -3, 5⟩, ⟨0x1C, 2, 3⟩, ⟨0x03, -6, 2⟩, ⟨0x1F, -1, 5⟩, ⟨0x10, 4, 1⟩, ⟨0x0F, -4, 4⟩,
   ⟨0x1E, 1, 4⟩, ⟨0x01, -7, 1⟩, ⟨0x1F, -2, 5⟩, ⟨0x18, 3, 2⟩, ⟨0x07, -5, 3⟩, ⟨0x1F, 0, 5⟩]

/-- RT(5), MSB_FIRST (R139). -/
def readTable5Msb : List Entry :=
  [⟨0xF8, 3, 5⟩, ⟨0x07, -2, 3⟩, ⟨0xC0, 6, 2⟩, ⟨0x3E, 1, 5⟩, ⟨0x01, -4, 1⟩, ⟨0xF0, 4, 4⟩,
   ⟨0x0F, -1, 4⟩, ⟨0x80, 7, 1⟩, ⟨0x7C, 2, 5⟩, ⟨0x03, -3, 2⟩, ⟨0xE0, 5, 3⟩, ⟨0x1F, 0, 5⟩]

/-- WT(7), MSB_FIRST (R140). -/
def writeTable7Msb : List Entry :=
  [⟨0x7F, -1, 7⟩, ⟨0x40, 6, 1⟩, ⟨0x3F, -2, 6⟩, ⟨0x60, 5, 2⟩, ⟨0x1F, -3, 5⟩, ⟨0x70, 4, 3⟩, ⟨0x0F, -4, 4⟩,
   ⟨0x78, 3, 4⟩, ⟨0x07, -5, 3⟩, ⟨0x7C, 2, 5⟩, ⟨0x03, -6, 2⟩, ⟨0x7E, 1, 6⟩, ⟨0x01, -7, 1⟩, ⟨0x7F, 0, 7⟩]

/-- RT(7), MSB_FIRST (R141). -/
def readTable7Msb : List Entry :=
  [⟨0xFE, 1, 7⟩, ⟨0x01, -6, 1⟩, ⟨0xFC, 2, 6⟩, ⟨0x03, -5, 2⟩, ⟨0xF8, 3, 5⟩, ⟨0x07, -4, 3⟩, ⟨0xF0, 4, 4⟩,
   ⟨0x0F, -3, 4⟩, ⟨0xE0, 5, 3⟩, ⟨0x1F, -2, 5⟩, ⟨0xC0, 6, 2⟩, ⟨0x3F, -1, 6⟩, ⟨0x80, 7, 1⟩, ⟨0x7F, 0, 7⟩]

/-- WT(5), LSB_FIRST (R149). -/
def writeTable5Lsb : List Entry :=
  [⟨0x1F, 0, 5⟩, ⟨0x07, -5, 3⟩, ⟨0x18, 3, 2⟩, ⟨0x1F, -2, 5⟩, ⟨0x01, -7, 1⟩, ⟨0x1E, 1, 4⟩,
   ⟨0x0F, -4, 4⟩, ⟨0x10, 4, 1⟩, ⟨0x1F, -1, 5⟩, ⟨0x03, -6, 2⟩, ⟨0x1C, 2, 3⟩, ⟨0x1F, -3, 5⟩]

/-- RT(5), LSB_FIRST (R149). -/
def readTable5Lsb : List Entry :=
  [⟨0x1F, 0, 5⟩, ⟨0xE0, 5, 3⟩, ⟨0x03, -3, 2⟩, ⟨0x7C, 2, 5⟩, ⟨0x80, 7, 1⟩, ⟨0x0F, -1, 4⟩,
   ⟨0xF0, 4, 4⟩, ⟨0x01, -4, 1⟩, ⟨0x3E, 1, 5⟩, ⟨0xC0, 6, 2⟩, ⟨0x07, -2, 3⟩, ⟨0xF8, 3, 5⟩]

/-- WT(7), LSB_FIRST (R149). -/
def writeTable7Lsb : List Entry :=
  [⟨0x7F, 0, 7⟩, ⟨0x01, -7, 1⟩, ⟨0x7E, 1, 6⟩, ⟨0x03, -6, 2⟩, ⟨0x7C, 2, 5⟩, ⟨0x07, -5, 3⟩, ⟨0x78, 3, 4⟩,
   ⟨0x0F, -4, 4⟩, ⟨0x70, 4, 3⟩, ⟨0x1F, -3, 5⟩, ⟨0x60, 5, 2⟩, ⟨0x3F, -2, 6⟩, ⟨0x40, 6, 1⟩, ⟨0x7F, -1, 7⟩]

/-- RT(7), LSB_FIRST (R149). -/
def readTable7Lsb : List Entry :=
  [⟨0x7F, 0, 7⟩, ⟨0x80, 7, 1⟩, ⟨0x3F, -1, 6⟩, ⟨0xC0, 6, 2⟩, ⟨0x1F, -2, 5⟩, ⟨0xE0, 5, 3⟩, ⟨0x0F, -3, 4⟩,
   ⟨0xF0, 4, 4⟩, ⟨0x07, -4, 3⟩, ⟨0xF8, 3, 5⟩, ⟨0x03, -5, 2⟩, ⟨0xFC, 2, 6⟩, ⟨0x01, -6, 1⟩, ⟨0xFE, 1, 7⟩]

/-- `WT(w)` for a bit order (R111). -/
def writeTable : BitOrder → Width → List Entry
  | .msbFirst, .w5 => writeTable5Msb
  | .msbFirst, .w7 => writeTable7Msb
  | .lsbFirst, .w5 => writeTable5Lsb
  | .lsbFirst, .w7 => writeTable7Lsb

/-- `RT(w)` for a bit order (R111). -/
def readTable : BitOrder → Width → List Entry
  | .msbFirst, .w5 => readTable5Msb
  | .msbFirst, .w7 => readTable7Msb
  | .lsbFirst, .w5 => readTable5Lsb
  | .lsbFirst, .w7 => readTable7Lsb

/-- Entry `k` of a table. STEP stays below CYCLE(w) (10_state R31), so the empty entry is never met
(assumption 16). -/
def entryAt (table : List Entry) (k : Nat) : Entry :=
  table.getD k ⟨0, 0, 0⟩

end Sys2Proof.Machine
end

