-- ==== Sys2Proof/Machine/Operands.lean ====
section
/-! DEFINITION. The operands of the commands, explicit and implicit (30_encoding R109): the immediate's range, the
tile dimensions' range, the dimensions and the value count of the codec, the GETREG numbers, a tile's cells. -/

namespace Sys2Proof.Machine

open Sys2Proof

/-- The immediate of SETH and SETW is in `1 .. DIM_MAX` (44_control R232, R233). -/
def dimInRange (imm : BitVec 24) : Bool :=
  decide (1 ≤ imm.toNat ∧ imm.toNat ≤ Config.dimMax)

/-- A dimension register was never set (10_state R35, R36; 41_pack R161). -/
def dimsUnset (s : State) : Bool := s.height == 0 || s.width == 0

/-- `N = HEIGHT * WIDTH`, read when the command starts (30_encoding R109), an integer. -/
def valueCount (s : State) : Nat := s.height.toNat * s.width.toNat

/-- The declared tile dimensions are in `1 .. NOM_H` and `1 .. NOM_W` (43_tile_stats R201). -/
def tileDimsInRange (p : Params) (th tw : Byte) : Bool :=
  decide (1 ≤ th.toNat ∧ 1 ≤ tw.toNat ∧ th.toNat ≤ p.nomH.toNat ∧ tw.toNat ≤ p.nomW.toNat)

/-- The two tiles have the same declared dimensions (43_tile_stats R209). -/
def sameShape (a b : TileBuf) : Bool := a.h == b.h && a.w == b.w

/-- The rows and columns of an `h` by `w` tile in row-major order (20_memory R63; 43_tile_stats R202). -/
def positions (h w : Nat) : List (Nat × Nat) :=
  (List.range h).flatMap fun r => (List.range w).map fun c => (r, c)

/-- Where `cell[r][c]` stands in a tile buffer's store (assumption 12). -/
def cellIndex (p : Params) (r c : Nat) : Nat := r * p.nomW.toNat + c

/-- `cell[r][c]` of a tile buffer (10_state R45). Outside the store, which no command reads (R47), the value is
free (assumption 12). -/
def TileBuf.cell (p : Params) (t : TileBuf) (r c : Nat) : Byte :=
  t.cells.getD (cellIndex p r c) (Config.unspecified (cellIndex p r c))

/-- The positions of a tile's actual cells: `r < H`, `c < W` (43_tile_stats R205). -/
def TileBuf.positions (t : TileBuf) : List (Nat × Nat) :=
  Sys2Proof.Machine.positions t.h.toNat t.w.toNat

/-- TA_DIM and TB_DIM: bit 16 VALID, bits 15:8 H, bits 7:0 W (10_state R40). -/
def TileBuf.dimWord (t : TileBuf) : BitVec 17 := BitVec.ofBool t.valid ++ t.h ++ t.w

/-- PARAM: bit 16 the bit order, bits 15:8 NOM_H, bits 7:0 NOM_W (10_state R40). -/
def paramWord (p : Params) : BitVec 17 :=
  BitVec.ofBool (p.bitOrder == .lsbFirst) ++ p.nomH ++ p.nomW

/-- The register with a GETREG number, zero-extended to 64 bits (10_state R40); none for a number above 8, which
is illegal (30_encoding R116). -/
def readReg (s : State) (r : BitVec 8) : Option (BitVec 64) :=
  if r = 0 then some (s.height.setWidth 64)
  else if r = 1 then some (s.width.setWidth 64)
  else if r = 2 then some (s.err.setWidth 64)
  else if r = 3 then some s.res
  else if r = 4 then some (s.vcnt.setWidth 64)
  else if r = 5 then some (s.bcnt.setWidth 64)
  else if r = 6 then some (s.ta.dimWord.setWidth 64)
  else if r = 7 then some (s.tb.dimWord.setWidth 64)
  else if r = 8 then some ((paramWord s.params).setWidth 64)
  else none

end Sys2Proof.Machine
end

