-- ==== Sys2Proof/Machine/Ops.lean ====
section
/-! DEFINITION. The named operations every command is built from: returning a response (30_encoding R108), error
entry (60_exceptions R258), refusal by the latch (R260), reset (10_state R55), the port operations (20_memory R64 to
R67) and the filling of a tile buffer (43_tile_stats R202). -/

namespace Sys2Proof.Machine

open Sys2Proof

/-- The outcome of a command. -/
abbrev Result := Host.Outcome State Fault Refusal

/-- `respond(e, r)`: the command ends and its one response is returned (30_encoding R108). -/
def respond (e : BitVec 8) (r : BitVec 64) (s : State) : State :=
  { s with responses := s.responses ++ [⟨e, r⟩] }

/-- `raise K` (60_exceptions R258): the command stops, the latch takes the code if it was clear, the response is
`{code, 0}`. What the command wrote before stays; there is no saved context, no vector and no handler. -/
def raise (k : ErrKind) (s : State) : State :=
  respond k.code 0 { s with err := latchAfter k s.err }

/-- Leaving the error state (60_exceptions R264): `ERR <- 0` and nothing else. -/
def clearError (s : State) : State := { s with err := 0 }

/-- A refused command (60_exceptions R260): nothing is touched, the latched code is reported again. -/
def refuse (s : State) : State := respond s.err 0 s

/-- The second check of 60_exceptions R262: while the latch is set the command is refused. -/
def unlessLatched (s : State) (run : State → Result) : Result :=
  if latched s then .next (refuse s) else run s

/-- The effect of reset on the unit's state (10_state R55, 70 R290, R291). The ports, the constants and what the
host does are not touched (R292). What R55 leaves unspecified is free (assumption 8). -/
def resetUnit (s : State) : State :=
  let a := s.params.area
  let free := fun i => Config.unspecified (s.fresh + i)
  { s with
    height := 0, width := 0, err := 0, res := 0, vcnt := 0, bcnt := 0
    ta := TileBuf.blank s.params free
    tb := TileBuf.blank s.params (fun i => free (a + i))
    cur := free (2 * a)
    rem := (free (2 * a + 1)).setWidth 4
    acc := free (2 * a + 2)
    accBits := (free (2 * a + 3)).setWidth 4
    step := (free (2 * a + 4)).setWidth 4
    fresh := s.fresh + 2 * a + 5 }

/-- What a pull returns (20_memory R64, R66), and the port after it. -/
inductive Pull where
  | elem (x : Byte) (rest : InPort)
  | eos
  | never
deriving DecidableEq, Repr

/-- `VIN.pull()`, `BIN.pull()`: the element at the head, removed; `EOS` removes nothing (20_memory R64, R66). -/
def InPort.pull (p : InPort) : Pull :=
  match p.queue with
  | x :: xs => .elem x { p with queue := xs }
  | [] => match p.atEnd with
    | .eos => .eos
    | .never => .never

/-- The sink's answer to the next push, and the answers left (20_memory R67; assumption 5). -/
def nextAnswer : List SinkAnswer → SinkAnswer × List SinkAnswer
  | [] => (.ok, [])
  | a :: rest => (a, rest)

/-- How filling a tile buffer ends: complete, short of elements, or at a port that never answers. -/
inductive Fill where
  | full (cells : List Byte) (port : InPort)
  | short (cells : List Byte) (port : InPort)
  | stuck
deriving DecidableEq, Repr

/-- The two nested loops of a load (43_tile_stats R219): one pull for each position, in order, each element
written to its cell. -/
def fillCells (p : Params) : List (Nat × Nat) → List Byte → InPort → Fill
  | [], cells, port => .full cells port
  | (r, c) :: rest, cells, port =>
    match port.pull with
    | .elem x port' => fillCells p rest (cells.set (cellIndex p r c) x) port'
    | .eos => .short cells port
    | .never => .stuck

end Sys2Proof.Machine
end

