-- ==== Sys2Proof/Machine/Control.lean ====
section
/-! DEFINITION. The control family (44_control R230 to R236): NOP, SETH, SETW, GETREG, CLRERR, SRESET. -/

namespace Sys2Proof.Machine

open Sys2Proof

/-- NOP (R231): executed also while the latch is set. -/
def execNop (s : State) : Result := .next (respond 0 0 s)

/-- SETH (R232). -/
def execSeth (imm : BitVec 24) (s : State) : Result :=
  unlessLatched s fun s =>
    if dimInRange imm then .next (respond 0 0 { s with height := imm.setWidth 19 })
    else .next (raise .badDimensions s)

/-- SETW (R233). -/
def execSetw (imm : BitVec 24) (s : State) : Result :=
  unlessLatched s fun s =>
    if dimInRange imm then .next (respond 0 0 { s with width := imm.setWidth 19 })
    else .next (raise .badDimensions s)

/-- GETREG (R234): executed also while the latch is set; a number above 8 has no legal word, and is answered as
one (30_encoding R116; assumption 13). -/
def execGetreg (r : BitVec 8) (s : State) : Result :=
  match readReg s r with
  | some v => .next (respond 0 v s)
  | none => .next (raise .badCommand s)

/-- CLRERR (R235). -/
def execClrerr (s : State) : Result := .next (respond 0 0 (clearError s))

/-- SRESET (R236). -/
def execSreset (s : State) : Result := .next (respond 0 0 (resetUnit s))

end Sys2Proof.Machine
end

