-- ==== Sys2Proof/Machine/Codec.lean ====
section
/-! DEFINITION. The codec's two state machines (41_pack R161 to R169, 42_unpack R181 to R189), one table step at a
time, over the working registers, the counters and the two ports of the command. -/

namespace Sys2Proof.Machine

open Sys2Proof

/-- What a codec command works on: the working registers (10_state R22 to R33), the progress counters (R39), its
input port, what it has pushed, and the sink's answers. -/
structure Engine where
  cur : BitVec 8
  rem : BitVec 4
  acc : BitVec 8
  accBits : BitVec 4
  step : BitVec 4
  vcnt : BitVec 37
  bcnt : BitVec 37
  input : InPort
  output : List Byte
  sink : List SinkAnswer
deriving DecidableEq, Repr

/-- How a stretch of a codec command ends: it goes on, it raised an error, or a port never answered. -/
inductive Run where
  | going (m : Engine)
  | raised (k : ErrKind) (m : Engine)
  | stuck
deriving DecidableEq, Repr

/-- One stretch after another. -/
def Run.andThen (r : Run) (f : Engine → Run) : Run :=
  match r with
  | .going m => f m
  | .raised k m => .raised k m
  | .stuck => .stuck

/-- Initialisation (41_pack R162, 42_unpack R182): the counters and all working registers but CUR are cleared. -/
def Engine.start (s : State) (input : InPort) (output : List Byte) : Engine where
  cur := s.cur
  rem := 0
  acc := 0
  accBits := 0
  step := 0
  vcnt := 0
  bcnt := 0
  input := input
  output := output
  sink := s.sink

/-- The working registers and the counters go back to the state's registers. -/
def Engine.store (m : Engine) (s : State) : State :=
  { s with cur := m.cur, rem := m.rem, acc := m.acc, accBits := m.accBits, step := m.step, vcnt := m.vcnt, bcnt := m.bcnt }

/-- The move of a table step (41_pack R164, 42_unpack R184; 40_bit_primitives R134). -/
def Engine.move (e : Entry) (m : Engine) : Engine :=
  { m with
    acc := m.acc ||| dshift (m.cur &&& e.mask) e.shift
    rem := m.rem - BitVec.ofNat 4 e.n
    accBits := m.accBits + BitVec.ofNat 4 e.n }

/-- `STEP <- (STEP + 1) mod CYCLE(w)` (10_state R32). -/
def Engine.advance (w : Width) (m : Engine) : Engine :=
  { m with step := BitVec.ofNat 4 ((m.step.toNat + 1) % w.cycle) }

/-- PACK's pull (41_pack R163, R166): if REM = 0, a value is taken from VIN and counted. -/
def pullValue (w : Width) (m : Engine) : Run :=
  if m.rem = 0 then
    match m.input.pull with
    | .elem x port => .going { m with cur := x, vcnt := m.vcnt + 1, rem := BitVec.ofNat 4 w.bits, input := port }
    | .eos => .raised .badData m
    | .never => .stuck
  else .going m

/-- `BOUT.push(ACC)` and its count (41_pack R165, R167). -/
def pushByte (m : Engine) : Run :=
  match nextAnswer m.sink with
  | (.ok, rest) => .going { m with output := m.output ++ [m.acc], sink := rest, bcnt := m.bcnt + 1, acc := 0, accBits := 0 }
  | (.fail, rest) => .raised .badOutput { m with sink := rest }
  | (.never, _) => .stuck

/-- PACK's emission of a full byte (41_pack R165). -/
def emitByte (m : Engine) : Run :=
  if m.accBits = 8 then pushByte m else .going m

/-- One table step of PACK (41_pack R169, the body of the loop). -/
def packStep (o : BitOrder) (w : Width) (m : Engine) : Run :=
  (pullValue w m).andThen fun m =>
    (emitByte (m.move (entryAt (writeTable o w) m.step.toNat))).andThen fun m =>
      .going (m.advance w)

/-- PACK's loop over `n` values. The fuel bounds the number of table steps: the caller gives `n * w`, the number of
bits to move, and every step moves at least one (41_pack R173; assumption 16). -/
def packLoop (o : BitOrder) (w : Width) (n : Nat) : Nat → Engine → Run
  | 0, m => .going m
  | fuel + 1, m =>
    if m.rem = 0 ∧ m.vcnt.toNat = n then .going m
    else (packStep o w m).andThen (packLoop o w n fuel)

/-- The final partial byte (41_pack R167). -/
def flushByte (m : Engine) : Run :=
  if m.accBits = 0 then .going m else pushByte m

/-- The encode machine after its entry check (41_pack R169). -/
def packRun (o : BitOrder) (w : Width) (n : Nat) (m : Engine) : Run :=
  (packLoop o w n (n * w.bits) m).andThen flushByte

/-- UNPACK's pull (42_unpack R183): if REM = 0, a byte is taken from BIN and counted. -/
def pullByte (m : Engine) : Run :=
  if m.rem = 0 then
    match m.input.pull with
    | .elem x port => .going { m with cur := x, bcnt := m.bcnt + 1, rem := 8, input := port }
    | .eos => .raised .badData m
    | .never => .stuck
  else .going m

/-- UNPACK's store of a complete value on VOUT, which cannot fail (42_unpack R185; 20_memory R65). -/
def storeValue (w : Width) (m : Engine) : Engine :=
  if m.accBits = BitVec.ofNat 4 w.bits then
    { m with output := m.output ++ [m.acc], vcnt := m.vcnt + 1, acc := 0, accBits := 0 }
  else m

/-- One table step of UNPACK (42_unpack R189, the body of the loop). -/
def unpackStep (o : BitOrder) (w : Width) (m : Engine) : Run :=
  (pullByte m).andThen fun m =>
    .going ((storeValue w (m.move (entryAt (readTable o w) m.step.toNat))).advance w)

/-- UNPACK's loop, `while VCNT < N`, with the same bound on the table steps (42_unpack R193; assumption 16). -/
def unpackLoop (o : BitOrder) (w : Width) (n : Nat) : Nat → Engine → Run
  | 0, m => .going m
  | fuel + 1, m =>
    if m.vcnt.toNat < n then (unpackStep o w m).andThen (unpackLoop o w n fuel) else .going m

/-- The end-of-stream check, `e = 1` only (42_unpack R187): one more pull, whose byte is gone and is not counted. -/
def probeEnd (e : Bool) (m : Engine) : Run :=
  if e then
    match m.input.pull with
    | .elem _ port => .raised .badData { m with input := port }
    | .eos => .going m
    | .never => .stuck
  else .going m

/-- The decode machine after its entry check (42_unpack R189). -/
def unpackRun (o : BitOrder) (w : Width) (n : Nat) (e : Bool) (m : Engine) : Run :=
  (unpackLoop o w n (n * w.bits) m).andThen (probeEnd e)

/-- The end of a codec command: success answers `{0, BCNT}`, an error is raised over what was written. -/
def finishRun (back : Engine → State → State) (s : State) : Run → Result
  | .going m => .next (respond 0 (m.bcnt.setWidth 64) (back m s))
  | .raised k m => .next (raise k (back m s))
  | .stuck => .fault .portNeverAnswers

/-- The ports of a PACK: elements taken from VIN, bytes in BOUT, answers used up. -/
def storePack (m : Engine) (s : State) : State :=
  { m.store s with vin := m.input, bout := m.output, sink := m.sink }

/-- The ports of an UNPACK: bytes taken from BIN, values in VOUT. -/
def storeUnpack (m : Engine) (s : State) : State :=
  { m.store s with bin := m.input, vout := m.output }

/-- `PACK(w)` (41_pack R161, R169), after the latch check. -/
def packCommand (w : Width) (s : State) : Result :=
  unlessLatched s fun s =>
    if dimsUnset s then .next (raise .badDimensions s)
    else finishRun storePack s (packRun s.params.bitOrder w (valueCount s) (Engine.start s s.vin s.bout))

/-- `UNPACK(w, e)` (42_unpack R181, R189), after the latch check. -/
def unpackCommand (w : Width) (e : Bool) (s : State) : Result :=
  unlessLatched s fun s =>
    if dimsUnset s then .next (raise .badDimensions s)
    else finishRun storeUnpack s (unpackRun s.params.bitOrder w (valueCount s) e (Engine.start s s.bin s.vout))

end Sys2Proof.Machine
end

