-- ==== Sys2Proof/Machine/Pack.lean ====
section
/-! DEFINITION. The pack family (41_pack R170, R171): PACK5, PACK7. -/

namespace Sys2Proof.Machine

/-- PACK5 (R170). -/
def execPack5 (s : State) : Result := packCommand .w5 s

/-- PACK7 (R171). -/
def execPack7 (s : State) : Result := packCommand .w7 s

end Sys2Proof.Machine
end

