-- ==== Sys2Proof/Machine/Tile.lean ====
section
/-! DEFINITION. The tile family (43_tile_stats): LDA, LDB, TSUM, TAVG, TDIFF, TDSUM. -/

namespace Sys2Proof.Machine

open Sys2Proof

/-- A tile buffer that holds no tile (R201, R203): VALID, H and W are 0; the cells are not touched. -/
def TileBuf.invalidate (t : TileBuf) : TileBuf := { t with valid := false, h := 0, w := 0 }

/-- `LOAD(T, th, tw)` (R219) into the buffer `t`, which `put` stores back. -/
def loadTile (put : TileBuf → State → State) (t : TileBuf) (th tw : Byte) (s : State) : Result :=
  if tileDimsInRange s.params th tw then
    match fillCells s.params (positions th.toNat tw.toNat) t.cells s.vin with
    | .full cells port =>
      .next (respond 0 0 (put { valid := true, h := th, w := tw, cells := cells } { s with vin := port }))
    | .short cells port =>
      .next (raise .badData (put { t.invalidate with cells := cells } { s with vin := port }))
    | .stuck => .fault .portNeverAnswers
  else .next (raise .badData (put t.invalidate s))

/-- `SUM(T)` (R205). -/
def tileSum (p : Params) (t : TileBuf) : Nat :=
  (t.positions.map fun (r, c) => (t.cell p r c).toNat).sum

/-- `AVG(T) = (2 * S + A) div (2 * A)` with `A = NOM_AREA` (R206). -/
def tileAverage (p : Params) (t : TileBuf) : Nat :=
  (2 * tileSum p t + p.area) / (2 * p.area)

/-- The signed difference of two cells, an integer (R207, R208, R216). -/
def cellDiff (p : Params) (a b : TileBuf) (r c : Nat) : Int :=
  ((a.cell p r c).toNat : Int) - ((b.cell p r c).toNat : Int)

/-- `L1(TA, TB)` (R207). -/
def tileL1 (p : Params) (a b : TileBuf) : Nat :=
  (a.positions.map fun (r, c) => (cellDiff p a b r c).natAbs).sum

/-- `DSUM(TA, TB)` (R208): TA minus TB. -/
def tileDiffSum (p : Params) (a b : TileBuf) : Int :=
  (a.positions.map fun (r, c) => cellDiff p a b r c).sum

/-- The success of a statistics command: `RES <- v; respond(0, RES)` (R212 to R215). -/
def answerStat (v : BitVec 64) (s : State) : Result := .next (respond 0 v { s with res := v })

/-- TSUM and TAVG need a valid TA (R204). -/
def withTileA (s : State) (run : State → Result) : Result :=
  unlessLatched s fun s => if validA s then run s else .next (raise .badCommand s)

/-- TDIFF and TDSUM need both tiles valid (R204), then of one shape (R209). -/
def withBothTiles (s : State) (run : State → Result) : Result :=
  unlessLatched s fun s =>
    if validA s && validB s then
      if sameShape s.ta s.tb then run s else .next (raise .badData s)
    else .next (raise .badCommand s)

/-- LDA (R210). -/
def execLda (th tw : Byte) (s : State) : Result :=
  unlessLatched s fun s => loadTile (fun t s => { s with ta := t }) s.ta th tw s

/-- LDB (R211). -/
def execLdb (th tw : Byte) (s : State) : Result :=
  unlessLatched s fun s => loadTile (fun t s => { s with tb := t }) s.tb th tw s

/-- TSUM (R212). -/
def execTsum (s : State) : Result :=
  withTileA s fun s => answerStat (BitVec.ofNat 64 (tileSum s.params s.ta)) s

/-- TAVG (R213). -/
def execTavg (s : State) : Result :=
  withTileA s fun s => answerStat (BitVec.ofNat 64 (tileAverage s.params s.ta)) s

/-- TDIFF (R214). -/
def execTdiff (s : State) : Result :=
  withBothTiles s fun s => answerStat (BitVec.ofNat 64 (tileL1 s.params s.ta s.tb)) s

/-- TDSUM (R215): two's complement in 64 bits. -/
def execTdsum (s : State) : Result :=
  withBothTiles s fun s => answerStat (BitVec.ofInt 64 (tileDiffSum s.params s.ta s.tb)) s

end Sys2Proof.Machine
end

