-- ==== Sys2Proof/Machine/Unpack.lean ====
section
/-! DEFINITION. The unpack family (42_unpack R190, R191): UNPACK5, UNPACK7. -/

namespace Sys2Proof.Machine

/-- UNPACK5 (R190). -/
def execUnpack5 (e : Bool) (s : State) : Result := unpackCommand .w5 e s

/-- UNPACK7 (R191). -/
def execUnpack7 (e : Bool) (s : State) : Result := unpackCommand .w7 e s

end Sys2Proof.Machine
end

