-- ==== Sys2Proof/Machine/Dispatch.lean ====
section
/-! DEFINITION. The dispatch of commands to their meanings, one arm per constructor. -/

namespace Sys2Proof.Machine

open Sys2Proof

/-- What a command does. -/
def exec (i : Instr) (s : State) : Host.Outcome State Fault Refusal :=
  match i with
  | .nop => Sys2Proof.Machine.execNop s
  | .seth imm => Sys2Proof.Machine.execSeth imm s
  | .setw imm => Sys2Proof.Machine.execSetw imm s
  | .getreg r => Sys2Proof.Machine.execGetreg r s
  | .clrerr => Sys2Proof.Machine.execClrerr s
  | .sreset => Sys2Proof.Machine.execSreset s
  | .pack5 => Sys2Proof.Machine.execPack5 s
  | .pack7 => Sys2Proof.Machine.execPack7 s
  | .unpack5 e => Sys2Proof.Machine.execUnpack5 e s
  | .unpack7 e => Sys2Proof.Machine.execUnpack7 e s
  | .lda th tw => Sys2Proof.Machine.execLda th tw s
  | .ldb th tw => Sys2Proof.Machine.execLdb th tw s
  | .tsum => Sys2Proof.Machine.execTsum s
  | .tavg => Sys2Proof.Machine.execTavg s
  | .tdiff => Sys2Proof.Machine.execTdiff s
  | .tdsum => Sys2Proof.Machine.execTdsum s

end Sys2Proof.Machine
end

