-- ==== Sys2Proof/Machine/Interface.lean ====
section
/-! DEFINITION. The command port and the host (30_encoding R108, 60_exceptions R262, 70_reset_and_hazards R309): what
one command word does, and what the host does between two commands. -/

namespace Sys2Proof.Machine

open Sys2Proof

/-- A command word: legality first (60_exceptions R262); an illegal word is answered BadCommand, whatever the
state (30_encoding R115, R116). -/
def answerWord (x : Command) (s : State) : Result :=
  match decode x with
  | .ok i => exec i s
  | .error _ => .next (raise .badCommand s)

/-- One action of the host (70_reset_and_hazards R309). Only a command word and reset reach the unit; reset leaves
the ports alone and returns no response (R290, R292). -/
def hostAct (a : HostAction) (s : State) : Result :=
  match a with
  | .command x => answerWord x s
  | .queueVin xs => .next { s with vin := { s.vin with queue := s.vin.queue ++ xs } }
  | .queueBin xs => .next { s with bin := { s.bin with queue := s.bin.queue ++ xs } }
  | .dropVin k => .next { s with vin := { s.vin with queue := s.vin.queue.drop k } }
  | .dropBin k => .next { s with bin := { s.bin with queue := s.bin.queue.drop k } }
  | .endVin e => .next { s with vin := { s.vin with atEnd := e } }
  | .endBin e => .next { s with bin := { s.bin with atEnd := e } }
  | .sinkAnswers answers => .next { s with sink := answers }
  | .reset => .next (resetUnit s)

/-- One step: the host's next action; with none, the unit waits and nothing changes (00_scope R14). -/
def takeAction (s : State) : Result :=
  match s.host with
  | [] => .next s
  | a :: rest => hostAct a { s with host := rest }

/-- The host presents a word next. -/
def presentWord (x : Command) (s : State) : State := { s with host := .command x :: s.host }

end Sys2Proof.Machine
end

