-- ==== Sys2Proof/Machine/Step.lean ====
section
/-! DEFINITION. The step of the machine, and the state in which the host presents one given word next. -/

namespace Sys2Proof.Machine

open Sys2Proof

/-- One step: one action of the host, and for a command word the whole command (00_scope R11, R12). -/
def step (s : State) : Host.Outcome State Fault Refusal := takeAction s

/-- The state `s` in which the host presents next the word whose `nbits` bits are `w` (assumption 2). -/
def State.withFetchWord (s : State) (nbits w : Nat) : State :=
  presentWord (BitVec.ofNat 32 (w % 2 ^ nbits)) s

end Sys2Proof.Machine
end

