-- ==== Sys2Proof/Safety.lean ====
section
/-! DEFINITION. The terms in which claims about the unit are stated: the invariant of the state, the observable result
of a command (60_exceptions R261), what a packed section is, bit by bit (20_memory R70, R71, R74), and the opcode
map as the spec gives it for legality (30_encoding R118). Nothing here is used by the step. -/

namespace Sys2Proof

open Sys2Proof.Machine

/-! ## Legality of words, as the spec writes it -/

/-- `legal(word)` of 30_encoding R118, clause by clause. -/
def legalWord (x : Command) : Bool :=
  let op := x.toNat / 2 ^ 24
  if op ∈ [0x00, 0x04, 0x05, 0x10, 0x11, 0x22, 0x23, 0x24, 0x25] then x.toNat % 2 ^ 24 == 0
  else if op ∈ [0x01, 0x02] then true
  else if op = 0x03 then x.toNat / 2 ^ 8 % 2 ^ 16 == 0 && x.toNat % 2 ^ 8 ≤ 8
  else if op ∈ [0x12, 0x13] then x.toNat / 2 % 2 ^ 23 == 0
  else if op ∈ [0x20, 0x21] then x.toNat / 2 ^ 16 % 2 ^ 8 == 0
  else false

/-- The rows of opcode_table.json as (match, mask), in the table's order. -/
def opcodeRows : List (Command × Command) :=
  [(0x00000000, 0xFFFFFFFF), (0x01000000, 0xFF000000), (0x02000000, 0xFF000000), (0x03000000, 0xFFFFFF00),
   (0x04000000, 0xFFFFFFFF), (0x05000000, 0xFFFFFFFF), (0x10000000, 0xFFFFFFFF), (0x11000000, 0xFFFFFFFF),
   (0x12000000, 0xFFFFFFFE), (0x13000000, 0xFFFFFFFE), (0x20000000, 0xFFFF0000), (0x21000000, 0xFFFF0000),
   (0x22000000, 0xFFFFFFFF), (0x23000000, 0xFFFFFFFF), (0x24000000, 0xFFFFFFFF), (0x25000000, 0xFFFFFFFF)]

/-- Which row of `opcodeRows` a command is. -/
def Instr.rowIndex : Instr → Nat
  | .nop => 0
  | .seth _ => 1
  | .setw _ => 2
  | .getreg _ => 3
  | .clrerr => 4
  | .sreset => 5
  | .pack5 => 6
  | .pack7 => 7
  | .unpack5 _ => 8
  | .unpack7 _ => 9
  | .lda _ _ => 10
  | .ldb _ _ => 11
  | .tsum => 12
  | .tavg => 13
  | .tdiff => 14
  | .tdsum => 15

/-- The commands executed also while the error latch is set (60_exceptions R260). -/
def Instr.alwaysExecuted : Instr → Bool
  | .nop => true
  | .seth _ => false
  | .setw _ => false
  | .getreg _ => true
  | .clrerr => true
  | .sreset => true
  | .pack5 => false
  | .pack7 => false
  | .unpack5 _ => false
  | .unpack7 _ => false
  | .lda _ _ => false
  | .ldb _ _ => false
  | .tsum => false
  | .tavg => false
  | .tdiff => false
  | .tdsum => false

/-! ## Packed sections, bit by bit -/

/-- Bit of a `w`-bit value at stream position `q` of the value (20_memory R70, R71). -/
def valueBit (o : BitOrder) (w : Nat) (v : Byte) (q : Nat) : Bool :=
  match o with
  | .msbFirst => v.getLsbD (w - 1 - q)
  | .lsbFirst => v.getLsbD q

/-- Bit of a byte at stream position `q` of the byte (20_memory R70, R71). -/
def byteBit (o : BitOrder) (b : Byte) (q : Nat) : Bool :=
  match o with
  | .msbFirst => b.getLsbD (7 - q)
  | .lsbFirst => b.getLsbD q

/-- How many bytes `n` values of width `w` take: `ceil(n*w/8)` (20_memory R69). -/
def sectionLength (w n : Nat) : Nat := (n * w + 7) / 8

/-- `bytes` is the packed section of the values `vs` at width `w`: stream position `p` belongs to value `p / w` and to
byte `p / 8`, and a position that belongs to no value is 0 (20_memory R70, R71, R74). -/
def IsSection (o : BitOrder) (w : Nat) (vs bytes : List Byte) : Prop :=
  bytes.length = sectionLength w vs.length ∧
  ∀ p < 8 * bytes.length,
    byteBit o (bytes.getD (p / 8) 0) (p % 8) = (decide (p < vs.length * w) && valueBit o w (vs.getD (p / w) 0) (p % w))

/-- `vs` are the `n` values of width `w` that `bytes` holds; bits outside them are not looked at (42_unpack R186). -/
def HoldsValues (o : BitOrder) (w n : Nat) (bytes vs : List Byte) : Prop :=
  vs.length = n ∧ (∀ v ∈ vs, v.toNat < 2 ^ w) ∧
  ∀ p < n * w, valueBit o w (vs.getD (p / w) 0) (p % w) = byteBit o (bytes.getD (p / 8) 0) (p % 8)

/-- The stream position, within the cycle, at which entry `k` of a table starts (10_state R33). -/
def startOf (table : List Entry) (k : Nat) : Nat := ((table.take k).map Entry.n).sum

/-- A list of bytes read as one number, first byte most significant. -/
def bigEndian (bytes : List Byte) : Nat := bytes.foldl (fun a b => 256 * a + b.toNat) 0

/-- A list of bytes read as one number, first byte least significant. -/
def littleEndian (bytes : List Byte) : Nat := bytes.foldr (fun b a => b.toNat + 256 * a) 0

/-! ## The invariant of the state -/

/-- A tile buffer in form: a store of exactly `NOM_AREA` cells; VALID = 1 only over dimensions in range, and H = W = 0
when VALID = 0 (10_state R45, R46). -/
def Machine.TileBuf.wf (p : Params) (t : TileBuf) : Bool :=
  t.cells.length == p.area &&
  (if t.valid then tileDimsInRange p t.h t.w else t.h == 0 && t.w == 0)

/-- A response in form: a code of 60_exceptions R251, and RES = 0 with every error (30_encoding R108). -/
def Machine.Response.wf (r : Response) : Bool :=
  decide (r.err.toNat ≤ 4) && (r.err == 0 || r.res == 0)

/-- The invariant: legal parameters (00_scope R9), dimensions 0 or in range (10_state R35, R36), a latch that holds a
code (60_exceptions R251), counters within one command's reach (10_state R39, 41_pack R175), tile buffers and
responses in form. -/
def Machine.State.wf (s : State) : Bool :=
  s.params.wf &&
  decide (s.height.toNat ≤ Config.dimMax) && decide (s.width.toNat ≤ Config.dimMax) &&
  decide (s.err.toNat ≤ 4) &&
  decide (s.vcnt.toNat ≤ 2 ^ 36) && decide (s.bcnt.toNat ≤ 7 * 2 ^ 33) &&
  s.ta.wf s.params && s.tb.wf s.params &&
  s.responses.all Response.wf

/-- No port hangs (70 R312): every pull and every push is answered. -/
def Machine.State.portsAnswer (s : State) : Prop :=
  s.vin.atEnd = .eos ∧ s.bin.atEnd = .eos ∧ SinkAnswer.never ∉ s.sink

/-! ## What is observable of a command -/

/-- The observable result of a command: the pair of its response and, only if `ERR = 0`, what it pushed
(60_exceptions R261). -/
structure Machine.Observed where
  response : Response
  bytes : List Byte
  values : List Byte
deriving DecidableEq, Repr

/-- What the host may use of the command that took the state from `s` to `t` (60_exceptions R261): its response, if it
returned one, and its pushes if that response reports no error. -/
def Machine.observe (s t : State) : Option Observed :=
  match t.responses.drop s.responses.length with
  | [] => none
  | r :: _ =>
    if r.err = 0 then some ⟨r, t.bout.drop s.bout.length, t.vout.drop s.vout.length⟩
    else some ⟨r, [], []⟩

end Sys2Proof
end

