-- ==== Sys2Proof/Certificates/Slice0/Obligations.lean ====
section
/-! DEFINITION. The statements for the provers, each a rule of the spec or a consequence of several. -/

open Sys2Proof Sys2Proof.Machine

/-! ## Encoding -/

/-- 30_encoding R122, every example of it: the legal words decode to their commands and are their encodings, the
illegal ones are rejected, each for its reason. -/
def Obligations.WorkedEncodingsDecode : Prop :=
  (∀ e ∈ ([(0x00000000, .nop), (0x01000003, .seth 3), (0x02040000, .setw 262144), (0x03000005, .getreg 5),
      (0x04000000, .clrerr), (0x05000000, .sreset), (0x10000000, .pack5), (0x11000000, .pack7),
      (0x12000000, .unpack5 false), (0x12000001, .unpack5 true), (0x13000001, .unpack7 true), (0x20000303, .lda 3 3),
      (0x21000203, .ldb 2 3), (0x22000000, .tsum), (0x23000000, .tavg), (0x24000000, .tdiff),
      (0x25000000, .tdsum)] : List (Command × Instr)), decode e.1 = .ok e.2 ∧ encode e.2 = e.1) ∧
  decode 0x06000000 = .error .reservedOpcode ∧ decode 0x10000001 = .error .reservedField ∧
  decode 0x03000009 = .error .undefinedRegister ∧ decode 0x20010303 = .error .reservedField

/-- Decoding the word of any command that has a legal word gives the command back (30_encoding R101 to R109). -/
def Obligations.DecodeInvertsEncode : Prop :=
  ∀ i : Instr, i.wf = true → decode (encode i) = .ok i

/-- A word has one meaning: what it decodes to is a legal command whose word it is (30_encoding R101 to R109). -/
def Obligations.DecodedWordIsTheEncoding : Prop :=
  ∀ (x : Command) (i : Instr), decode x = .ok i → i.wf = true ∧ encode i = x

/-- 30_encoding R118: the decoder accepts exactly the words for which `legal` holds, and these are exactly the words
that select a row of the opcode table, but for the GETREG row, which also needs `r <= 8`. -/
def Obligations.DecoderAcceptsTheLegalWords : Prop :=
  ∀ x : Command,
    ((∃ i, decode x = .ok i) ↔ legalWord x = true) ∧
    (legalWord x = true ↔
      ∃ row ∈ opcodeRows, x &&& row.2 = row.1 ∧ (row.1 = 0x03000000 → x.toNat % 256 ≤ 8))

/-- 30_encoding R107: among the codec opcodes bit 24 of the word selects the width and bit 25 the direction. -/
def Obligations.CodecOpcodeBits : Prop :=
  ∀ (x : Command) (i : Instr), decode x = .ok i → x.toNat / 2 ^ 26 = 4 →
    i = (match x.getLsbD 25, x.getLsbD 24 with
      | false, false => .pack5
      | false, true => .pack7
      | true, false => .unpack5 (x.getLsbD 0)
      | true, true => .unpack7 (x.getLsbD 0))

/-- 30_encoding R115, R116, 60_exceptions R262 (1): a reserved opcode, a non-zero reserved field or an undefined
register number is answered BadCommand whatever the state; nothing else is touched, and a latch already set keeps
its first code. -/
def Obligations.IllegalWordsAnswerBadCommand : Prop :=
  ∀ (s : State) (x : Command) (rest : List HostAction), s.host = .command x :: rest → legalWord x = false →
    step s = .next { s with
      host := rest
      err := if s.err = 0 then 4 else s.err
      responses := s.responses ++ [⟨4, 0⟩] }

/-! ## The step -/

/-- When the host presents a word that decodes to `i`, the step is `exec i` after the word is taken from the command
port, and nothing is added around it (00_scope R11; model: assumption 2). -/
def Obligations.StepRunsTheDecodedCommand : Prop :=
  (∀ (s : State) (x : Command) (rest : List HostAction) (i : Instr),
    s.host = .command x :: rest → decode x = .ok i → step s = exec i { s with host := rest }) ∧
  (∀ (s : State) (x : Command) (i : Instr), decode x = .ok i → step (s.withFetchWord 32 x.toNat) = exec i s)

/-- 00_scope R14: with no action of the host pending, nothing changes. -/
def Obligations.WaitingUnitDoesNotChange : Prop :=
  ∀ s : State, s.host = [] → step s = .next s

/-- 20_memory R61, 70 R309: what the host does with the ports between two commands (queueing, taking back, settling what
follows the elements and what the sink answers) changes that port alone and nothing of the unit. Queued elements come
behind those waiting (R61). The host's other actions are a command word and reset, stated elsewhere
(`StepRunsTheDecodedCommand`, `ResetAndSresetGiveTheResetValues`). The form of these actions is the model's choice:
a list of actions in the state (assumption 2), a port as the elements waiting and what follows them (assumption 3), the
sink's answers as a list (assumption 5). -/
def Obligations.HostPortActionsTouchThePortsOnly : Prop :=
  ∀ (s : State) (rest : List HostAction) (xs : List Byte) (k : Nat) (e : AtEnd) (answers : List SinkAnswer),
    step { s with host := .queueVin xs :: rest } =
      .next { s with host := rest, vin := ⟨s.vin.queue ++ xs, s.vin.atEnd⟩ } ∧
    step { s with host := .queueBin xs :: rest } =
      .next { s with host := rest, bin := ⟨s.bin.queue ++ xs, s.bin.atEnd⟩ } ∧
    step { s with host := .dropVin k :: rest } =
      .next { s with host := rest, vin := ⟨s.vin.queue.drop k, s.vin.atEnd⟩ } ∧
    step { s with host := .dropBin k :: rest } =
      .next { s with host := rest, bin := ⟨s.bin.queue.drop k, s.bin.atEnd⟩ } ∧
    step { s with host := .endVin e :: rest } = .next { s with host := rest, vin := ⟨s.vin.queue, e⟩ } ∧
    step { s with host := .endBin e :: rest } = .next { s with host := rest, bin := ⟨s.bin.queue, e⟩ } ∧
    step { s with host := .sinkAnswers answers :: rest } = .next { s with host := rest, sink := answers }

/-! ## Control -/

/-- 44_control R231. -/
def Obligations.NopOnlyAnswers : Prop :=
  encode .nop = 0x00000000 ∧
  ∀ s : State, exec .nop s = .next { s with responses := s.responses ++ [⟨0, 0⟩] }

/-- 44_control R232: SETH in range, SETH out of range, and the two boundaries. -/
def Obligations.SethSetsTheHeight : Prop :=
  (∀ imm : BitVec 24, (encode (.seth imm)).toNat = 0x01 * 2 ^ 24 + imm.toNat) ∧
  (∀ (imm : BitVec 24) (s : State), s.err = 0 → 1 ≤ imm.toNat → imm.toNat ≤ 262144 →
    ∃ h : BitVec 19, h.toNat = imm.toNat ∧
      exec (.seth imm) s = .next { s with height := h, responses := s.responses ++ [⟨0, 0⟩] }) ∧
  (∀ (imm : BitVec 24) (s : State), s.err = 0 → imm.toNat < 1 ∨ 262144 < imm.toNat →
    exec (.seth imm) s = .next { s with err := 3, responses := s.responses ++ [⟨3, 0⟩] })

/-- 44_control R233, as SETH with WIDTH. -/
def Obligations.SetwSetsTheWidth : Prop :=
  (∀ imm : BitVec 24, (encode (.setw imm)).toNat = 0x02 * 2 ^ 24 + imm.toNat) ∧
  (∀ (imm : BitVec 24) (s : State), s.err = 0 → 1 ≤ imm.toNat → imm.toNat ≤ 262144 →
    ∃ w : BitVec 19, w.toNat = imm.toNat ∧
      exec (.setw imm) s = .next { s with width := w, responses := s.responses ++ [⟨0, 0⟩] }) ∧
  (∀ (imm : BitVec 24) (s : State), s.err = 0 → imm.toNat < 1 ∨ 262144 < imm.toNat →
    exec (.setw imm) s = .next { s with err := 3, responses := s.responses ++ [⟨3, 0⟩] })

/-- The bits GETREG returns for a tile buffer's dimensions (10_state R40): VALID, H, W. -/
def Sys2Proof.dimNumber (t : TileBuf) : Nat :=
  (if t.valid then 1 else 0) * 2 ^ 16 + t.h.toNat * 2 ^ 8 + t.w.toNat

/-- The number GETREG returns for each register (10_state R40). -/
def Sys2Proof.registerNumber (s : State) : List Nat :=
  [s.height.toNat, s.width.toNat, s.err.toNat, s.res.toNat, s.vcnt.toNat, s.bcnt.toNat, dimNumber s.ta,
   dimNumber s.tb,
   (if s.params.bitOrder = .lsbFirst then 1 else 0) * 2 ^ 16 + s.params.nomH.toNat * 2 ^ 8 + s.params.nomW.toNat]

/-- 44_control R234 with the table of 10_state R40: GETREG of each of the nine numbers answers that register,
zero-extended, whether or not the latch is set, and writes nothing; TA_DIM and TB_DIM of a buffer without a tile
read 0, and PARAM at reset reads 0x0303. -/
def Obligations.GetregReadsEveryRegister : Prop :=
  (∀ r : BitVec 8, (encode (.getreg r)).toNat = 0x03 * 2 ^ 24 + r.toNat) ∧
  (∀ (s : State) (r : BitVec 8), r.toNat ≤ 8 →
    ∃ v : BitVec 64, some v.toNat = (registerNumber s)[r.toNat]? ∧
      exec (.getreg r) s = .next { s with responses := s.responses ++ [⟨0, v⟩] }) ∧
  (∀ (p : Params) (t : TileBuf), t.wf p = true → t.valid = false → dimNumber t = 0) ∧
  exec (.getreg 8) State.reset = .next { State.reset with responses := [⟨0, 0x0303⟩] }

/-- The model's GETREG of a number above 8, which has no legal word, answers as an illegal word does (30_encoding R116;
model: assumption 13). -/
def Obligations.GetregOfAnUndefinedNumber : Prop :=
  ∀ (s : State) (r : BitVec 8), 8 < r.toNat →
    exec (.getreg r) s = .next { s with
      err := if s.err = 0 then 4 else s.err
      responses := s.responses ++ [⟨4, 0⟩] }

/-- 44_control R235. -/
def Obligations.ClrerrClearsTheLatchOnly : Prop :=
  encode .clrerr = 0x04000000 ∧
  ∀ s : State, exec .clrerr s = .next { s with err := 0, responses := s.responses ++ [⟨0, 0⟩] }

/-- The values of 10_state R55 that the spec gives. -/
def Sys2Proof.ResetValues (s : State) : Prop :=
  s.height = 0 ∧ s.width = 0 ∧ s.err = 0 ∧ s.res = 0 ∧ s.vcnt = 0 ∧ s.bcnt = 0 ∧
  s.ta.valid = false ∧ s.ta.h = 0 ∧ s.ta.w = 0 ∧ s.tb.valid = false ∧ s.tb.h = 0 ∧ s.tb.w = 0

/-- 10_state R55, 44_control R236, 70 R290 to R292: after reset, after SRESET and after the platform's reset the state
has the values of R55; SRESET and the platform's reset have the same effect `t` on the unit, leave the ports and the
constants as they are, and differ in the response only. -/
def Obligations.ResetAndSresetGiveTheResetValues : Prop :=
  ResetValues State.reset ∧ encode .sreset = 0x05000000 ∧
  ∀ (s : State) (rest : List HostAction), ∃ t : State,
    ResetValues t ∧ t.params = s.params ∧ t.vin = s.vin ∧ t.bin = s.bin ∧ t.vout = s.vout ∧ t.bout = s.bout ∧
    t.sink = s.sink ∧ t.host = s.host ∧ t.responses = s.responses ∧
    exec .sreset s = .next { t with responses := s.responses ++ [⟨0, 0⟩] } ∧
    step { s with host := .reset :: rest } = .next { t with host := rest }

/-! ## Errors -/

/-- 60_exceptions R260: while the latch is set, a legal command other than NOP, GETREG, CLRERR and SRESET is not
executed: nothing is touched and the latched code is reported again. -/
def Obligations.LatchedUnitRefusesWork : Prop :=
  ∀ (i : Instr) (s : State), i.alwaysExecuted = false → s.err ≠ 0 →
    exec i s = .next { s with responses := s.responses ++ [⟨s.err, 0⟩] }

/-- 10_state R37, 60_exceptions R258, R264: a command other than CLRERR and SRESET leaves a set latch as it is, and
with the latch clear it leaves in the latch the code its response reports (0 for success). -/
def Obligations.ErrorLatchHoldsTheFirstError : Prop :=
  ∀ (i : Instr) (s t : State), exec i s = .next t → i ≠ .clrerr → i ≠ .sreset →
    (s.err ≠ 0 → t.err = s.err) ∧
    (s.err = 0 → ∃ r, t.responses = s.responses ++ [r] ∧ t.err = r.err)

/-- 30_encoding R108, 70 R312, R294: if every port answers, every command word, legal or not, completes in one step
with exactly one response, whose code is one of 60_exceptions R251 and whose RES is 0 with every error. -/
def Obligations.EveryCommandIsAnsweredOnce : Prop :=
  ∀ (s : State) (x : Command) (rest : List HostAction), s.portsAnswer → s.err.toNat ≤ 4 →
    s.host = .command x :: rest →
    ∃ (t : State) (r : Response), step s = .next t ∧ t.host = rest ∧ t.responses = s.responses ++ [r] ∧
      r.err.toNat ≤ 4 ∧ (r.err ≠ 0 → r.res = 0)

/-- No command is refused by the model, in any state. -/
def Obligations.NoCommandIsLeftOut : Prop :=
  ∀ (i : Instr) (s : State) (r : Refusal), exec i s ≠ .refused r

/-- The value count `N` of a codec command (30_encoding R109). -/
def Sys2Proof.gridSize (s : State) : Nat := s.height.toNat * s.width.toNat

/-- A codec command may start: no error is latched and both dimensions are set, within `DIM_MAX` (41_pack R161). -/
def Sys2Proof.CodecReady (s : State) : Prop :=
  s.err = 0 ∧ s.height ≠ 0 ∧ s.width ≠ 0 ∧ s.height.toNat ≤ 262144 ∧ s.width.toNat ≤ 262144

/-- 93_implementation_defined U6, 70 R312: a command that meets a port which never answers has no further step; in the
model it ends in a fault of that name (model: assumption 4). The unanswered pull may be that of any value of a PACK, any
byte of an UNPACK, the end-of-stream check of an UNPACK with `e = 1`, or any element of a load; the unanswered push may be
that of any byte of a PACK, for which VIN holds the values. -/
def Obligations.SilentPortHangsTheCommand : Prop :=
  (∀ (s : State) (i : Instr) (w k : Nat), (i = .pack5 ∧ w = 5) ∨ (i = .pack7 ∧ w = 7) → CodecReady s →
    k = s.vin.queue.length → k < gridSize s → s.vin.atEnd = .never → (∀ a ∈ s.sink.take (k * w / 8), a = .ok) →
    exec i s = .fault .portNeverAnswers) ∧
  (∀ (s : State) (i : Instr) (w j taken : Nat) (rest : List SinkAnswer),
    (i = .pack5 ∧ w = 5) ∨ (i = .pack7 ∧ w = 7) → CodecReady s →
    s.sink = List.replicate j .ok ++ .never :: rest → j < (gridSize s * w + 7) / 8 →
    taken = min (gridSize s) ((8 * (j + 1) + w - 1) / w) → taken ≤ s.vin.queue.length →
    exec i s = .fault .portNeverAnswers) ∧
  (∀ (s : State) (e : Bool) (i : Instr) (w k : Nat), (i = .unpack5 e ∧ w = 5) ∨ (i = .unpack7 e ∧ w = 7) →
    CodecReady s → k = s.bin.queue.length →
    k < (gridSize s * w + 7) / 8 ∨ (e = true ∧ k = (gridSize s * w + 7) / 8) → s.bin.atEnd = .never →
    exec i s = .fault .portNeverAnswers) ∧
  (∀ (s : State) (th tw : Byte) (i : Instr), i = .lda th tw ∨ i = .ldb th tw → s.err = 0 →
    1 ≤ th.toNat → th.toNat ≤ s.params.nomH.toNat → 1 ≤ tw.toNat → tw.toNat ≤ s.params.nomW.toNat →
    s.vin.queue.length < th.toNat * tw.toNat → s.vin.atEnd = .never → exec i s = .fault .portNeverAnswers)

/-! ## Pack -/

/-- 41_pack R172, R173, R174, 20_memory R69: PACK completes when VIN holds the `N` values and the sink accepts the
`ceil(N*w/8)` bytes. It takes exactly `N` elements, delivers exactly the section of their low `w` bits, answers
`{0, BCNT}`, and changes nothing else but the working registers. Both bit orders. -/
def Obligations.PackDeliversTheSection : Prop :=
  ∀ (s : State) (i : Instr) (w n len : Nat), (i = .pack5 ∧ w = 5) ∨ (i = .pack7 ∧ w = 7) → CodecReady s →
    n = gridSize s → len = (n * w + 7) / 8 → n ≤ s.vin.queue.length → (∀ a ∈ s.sink.take len, a = .ok) →
    ∃ (bytes : List Byte) (cur : BitVec 8) (rem : BitVec 4) (acc : BitVec 8) (accBits step : BitVec 4),
      IsSection s.params.bitOrder w (s.vin.queue.take n) bytes ∧
      exec i s = .next { s with
        vcnt := BitVec.ofNat 37 n, bcnt := BitVec.ofNat 37 len
        cur := cur, rem := rem, acc := acc, accBits := accBits, step := step
        vin := ⟨s.vin.queue.drop n, s.vin.atEnd⟩
        bout := s.bout ++ bytes, sink := s.sink.drop len
        responses := s.responses ++ [⟨0, BitVec.ofNat 64 len⟩] }

/-- 20_memory R73: the closed form of a section, for both bit orders: a list of bytes is the section of `vs` exactly
when it has the section's length and, read as one number, is that of the values shifted past the padding. -/
def Obligations.SectionHasTheClosedForm : Prop :=
  ∀ (w pad : Nat) (vs bytes : List Byte), w = 5 ∨ w = 7 → pad = (8 - vs.length * w % 8) % 8 →
    (IsSection .msbFirst w vs bytes ↔
      bytes.length = (vs.length * w + pad) / 8 ∧
      bigEndian bytes = vs.foldl (fun x v => 2 ^ w * x + v.toNat % 2 ^ w) 0 * 2 ^ pad) ∧
    (IsSection .lsbFirst w vs bytes ↔
      bytes.length = (vs.length * w + 7) / 8 ∧
      littleEndian bytes = ∑ j ∈ Finset.range vs.length, (vs.getD j 0).toNat % 2 ^ w * 2 ^ (j * w))

/-- 41_pack R161, 42_unpack R181: with a dimension not set, the four codec commands raise BadDimensions and change
nothing else; dimensions that are set are within bounds (in states that meet the invariant), and so is the value count. -/
def Obligations.CodecNeedsDimensions : Prop :=
  (∀ (s : State) (e : Bool) (i : Instr), i = .pack5 ∨ i = .pack7 ∨ i = .unpack5 e ∨ i = .unpack7 e →
    s.err = 0 → s.height = 0 ∨ s.width = 0 →
    exec i s = .next { s with err := 3, responses := s.responses ++ [⟨3, 0⟩] }) ∧
  (∀ s : State, s.wf = true → s.err = 0 → s.height ≠ 0 → s.width ≠ 0 →
    CodecReady s ∧ 1 ≤ gridSize s ∧ gridSize s ≤ 2 ^ 36)

/-- 41_pack R166, R174: VIN ends after `k < N` values and the sink accepts every full byte among them: BadData, VCNT is
`k`, BCNT the number of full bytes of `k` values, VIN is empty. -/
def Obligations.PackShortOfValues : Prop :=
  ∀ (s : State) (i : Instr) (w k : Nat), (i = .pack5 ∧ w = 5) ∨ (i = .pack7 ∧ w = 7) → CodecReady s →
    k = s.vin.queue.length → k < gridSize s → s.vin.atEnd = .eos → (∀ a ∈ s.sink.take (k * w / 8), a = .ok) →
    ∃ (bytes : List Byte) (cur : BitVec 8) (rem : BitVec 4) (acc : BitVec 8) (accBits step : BitVec 4),
      bytes.length = k * w / 8 ∧
      exec i s = .next { s with
        vcnt := BitVec.ofNat 37 k, bcnt := BitVec.ofNat 37 (k * w / 8)
        cur := cur, rem := rem, acc := acc, accBits := accBits, step := step
        vin := ⟨[], .eos⟩
        bout := s.bout ++ bytes, sink := s.sink.drop (k * w / 8)
        err := 1, responses := s.responses ++ [⟨1, 0⟩] }

/-- 41_pack R165, R167, R174, 60_exceptions R253, R262 (4): the sink accepts `j` bytes and refuses the next one the
command offers, for which VIN holds the values: BadOutput, BCNT is `j`, VCNT the number of values taken to complete
the refused byte. -/
def Obligations.PackStopsAtARefusedByte : Prop :=
  ∀ (s : State) (i : Instr) (w j taken : Nat) (rest : List SinkAnswer),
    (i = .pack5 ∧ w = 5) ∨ (i = .pack7 ∧ w = 7) → CodecReady s →
    s.sink = List.replicate j .ok ++ .fail :: rest → j < (gridSize s * w + 7) / 8 →
    taken = min (gridSize s) ((8 * (j + 1) + w - 1) / w) → taken ≤ s.vin.queue.length →
    ∃ (bytes : List Byte) (cur : BitVec 8) (rem : BitVec 4) (acc : BitVec 8) (accBits step : BitVec 4),
      bytes.length = j ∧
      exec i s = .next { s with
        vcnt := BitVec.ofNat 37 taken, bcnt := BitVec.ofNat 37 j
        cur := cur, rem := rem, acc := acc, accBits := accBits, step := step
        vin := ⟨s.vin.queue.drop taken, s.vin.atEnd⟩
        bout := s.bout ++ bytes, sink := rest
        err := 2, responses := s.responses ++ [⟨2, 0⟩] }

/-- 41_pack R168: PACK looks at the low `w` bits of each value only, whatever the outcome. -/
def Obligations.PackIgnoresHighBits : Prop :=
  ∀ (s t : State) (i : Instr) (low : Byte), (i = .pack5 ∧ low = 0x1F) ∨ (i = .pack7 ∧ low = 0x7F) →
    exec i s = .next t →
    ∃ t', exec i { s with vin := ⟨s.vin.queue.map (· &&& low), s.vin.atEnd⟩ } = .next t' ∧
      t'.bout = t.bout ∧ t'.responses = t.responses ∧ t'.err = t.err ∧ t'.vcnt = t.vcnt ∧ t'.bcnt = t.bcnt

/-- 41_pack R175 (g), 42_unpack R194 (h): a codec command depends on HEIGHT and WIDTH through their product only. -/
def Obligations.CodecSeesTheProductOfTheDimensions : Prop :=
  ∀ (s t : State) (e : Bool) (i : Instr) (h w : BitVec 19),
    i = .pack5 ∨ i = .pack7 ∨ i = .unpack5 e ∨ i = .unpack7 e → h ≠ 0 → w ≠ 0 → s.height ≠ 0 → s.width ≠ 0 →
    h.toNat * w.toNat = gridSize s → exec i s = .next t →
    exec i { s with height := h, width := w } = .next { t with height := h, width := w }

/-! ## Unpack -/

/-- 42_unpack R186, R187, R193, R195, 20_memory R69: UNPACK completes when BIN holds the `ceil(N*w/8)` bytes of the
section and, with `e = 1`, nothing after them. It takes exactly those bytes, delivers exactly the `N` values they
hold, whatever the padding, answers `{0, BCNT}`, and changes nothing else but the working registers. -/
def Obligations.UnpackDeliversTheValues : Prop :=
  ∀ (s : State) (e : Bool) (i : Instr) (w n len : Nat), (i = .unpack5 e ∧ w = 5) ∨ (i = .unpack7 e ∧ w = 7) →
    CodecReady s → n = gridSize s → len = (n * w + 7) / 8 → len ≤ s.bin.queue.length →
    (e = true → s.bin.queue.length = len ∧ s.bin.atEnd = .eos) →
    ∃ (vs : List Byte) (cur : BitVec 8) (rem : BitVec 4) (acc : BitVec 8) (accBits step : BitVec 4),
      HoldsValues s.params.bitOrder w n s.bin.queue vs ∧
      exec i s = .next { s with
        vcnt := BitVec.ofNat 37 n, bcnt := BitVec.ofNat 37 len
        cur := cur, rem := rem, acc := acc, accBits := accBits, step := step
        bin := ⟨s.bin.queue.drop len, s.bin.atEnd⟩
        vout := s.vout ++ vs
        responses := s.responses ++ [⟨0, BitVec.ofNat 64 len⟩] }

/-- 42_unpack R183, R194 (b), R195: BIN ends after `k` bytes, before the section does: BadData, BCNT is `k`, VCNT the
number of values complete in `k` bytes. -/
def Obligations.UnpackShortOfBytes : Prop :=
  ∀ (s : State) (e : Bool) (i : Instr) (w k : Nat), (i = .unpack5 e ∧ w = 5) ∨ (i = .unpack7 e ∧ w = 7) →
    CodecReady s → k = s.bin.queue.length → k < (gridSize s * w + 7) / 8 → s.bin.atEnd = .eos →
    ∃ (vs : List Byte) (cur : BitVec 8) (rem : BitVec 4) (acc : BitVec 8) (accBits step : BitVec 4),
      vs.length = 8 * k / w ∧
      exec i s = .next { s with
        vcnt := BitVec.ofNat 37 (8 * k / w), bcnt := BitVec.ofNat 37 k
        cur := cur, rem := rem, acc := acc, accBits := accBits, step := step
        bin := ⟨[], .eos⟩
        vout := s.vout ++ vs
        err := 1, responses := s.responses ++ [⟨1, 0⟩] }

/-- 42_unpack R187, R194 (f), R195: with `e = 1` a byte after the section is BadData; it has been removed from BIN and
is not counted. -/
def Obligations.TrailingByteIsBadData : Prop :=
  ∀ (s : State) (i : Instr) (w n len : Nat), (i = .unpack5 true ∧ w = 5) ∨ (i = .unpack7 true ∧ w = 7) →
    CodecReady s → n = gridSize s → len = (n * w + 7) / 8 → len < s.bin.queue.length →
    ∃ (vs : List Byte) (cur : BitVec 8) (rem : BitVec 4) (acc : BitVec 8) (accBits step : BitVec 4),
      vs.length = n ∧
      exec i s = .next { s with
        vcnt := BitVec.ofNat 37 n, bcnt := BitVec.ofNat 37 len
        cur := cur, rem := rem, acc := acc, accBits := accBits, step := step
        bin := ⟨s.bin.queue.drop (len + 1), s.bin.atEnd⟩
        vout := s.vout ++ vs
        err := 1, responses := s.responses ++ [⟨1, 0⟩] }

/-- 20_memory R65, 40_bit_primitives R146: every value an UNPACK pushes, also one that then fails, is below `2^w`. -/
def Obligations.UnpackedValuesFitTheWidth : Prop :=
  ∀ (s t : State) (e : Bool) (i : Instr) (w : Nat), (i = .unpack5 e ∧ w = 5) ∨ (i = .unpack7 e ∧ w = 7) →
    exec i s = .next t → ∃ vs, t.vout = s.vout ++ vs ∧ ∀ v ∈ vs, v.toNat < 2 ^ w

/-- 42_unpack R192: what a successful PACK delivered, an UNPACK of the same width and dimensions decodes to the values
the PACK took, reduced to `w` bits; with `e = 1` too, if nothing follows. -/
def Obligations.UnpackInvertsPack : Prop :=
  ∀ (s t u : State) (e : Bool) (i j : Instr) (low : Byte) (bytes rest : List Byte) (r : BitVec 64),
    (i = .pack5 ∧ j = .unpack5 e ∧ low = 0x1F) ∨ (i = .pack7 ∧ j = .unpack7 e ∧ low = 0x7F) →
    CodecReady s → exec i s = .next t → t.responses = s.responses ++ [⟨0, r⟩] → t.bout = s.bout ++ bytes →
    CodecReady u → u.params.bitOrder = s.params.bitOrder → u.height = s.height → u.width = s.width →
    u.bin.queue = bytes ++ rest → (e = true → rest = [] ∧ u.bin.atEnd = .eos) →
    ∃ v, exec j u = .next v ∧ v.responses = u.responses ++ [⟨0, r⟩] ∧
      v.vout = u.vout ++ (s.vin.queue.take (gridSize s)).map (· &&& low)

/-! ## The working registers and the tables -/

/-- 10_state R23, R25, R31: wherever a codec command that passed its entry checks ends, STEP is below CYCLE(w), REM at
most the size of a source unit and ACCBITS at most the size of an output unit (model: assumption 10). -/
def Obligations.WorkingRegistersStayInRange : Prop :=
  ∀ (s t : State) (e : Bool) (i : Instr) (cycle source unit : Nat),
    (i = .pack5 ∧ cycle = 12 ∧ source = 5 ∧ unit = 8) ∨ (i = .pack7 ∧ cycle = 14 ∧ source = 7 ∧ unit = 8) ∨
    (i = .unpack5 e ∧ cycle = 12 ∧ source = 8 ∧ unit = 5) ∨ (i = .unpack7 e ∧ cycle = 14 ∧ source = 8 ∧ unit = 7) →
    s.err = 0 → s.height ≠ 0 → s.width ≠ 0 → exec i s = .next t →
    t.step.toNat < cycle ∧ t.rem.toNat ≤ source ∧ t.accBits.toNat ≤ unit

/-- The working registers agree with the stream position that STEP stands for (10_state R33): `source` is the size of a
source unit, `unit` that of an output unit, and `free acc q` says that bit `q` of the output unit is still 0. -/
def Sys2Proof.InStep (table : List Entry) (source unit : Nat) (free : BitVec 8 → Nat → Prop) (m : Engine) : Prop :=
  m.step.toNat < table.length ∧
  m.rem.toNat = (source - startOf table m.step.toNat % source) % source ∧
  m.accBits.toNat = startOf table m.step.toNat % unit ∧
  ∀ q, m.accBits.toNat ≤ q → q < unit → free m.acc q

/-- 10_state R27 over the position invariant of R33, for PACK and for UNPACK: it holds at the start of a command, every
table step that goes on keeps it, and it gives the four parts of R27: the ranges of REM and ACCBITS, room for the
entry's `n` bits on both sides, and an OR that never meets a 1. -/
def Obligations.TableStepsKeepTheCodecInvariant : Prop :=
  ∀ (o : BitOrder) (w : Width),
    let wt := writeTable o w
    let rt := readTable o w
    let packFree := fun acc q => byteBit o acc q = false
    let unpackFree := fun acc q => valueBit o w.bits acc q = false
    (∀ s input output, InStep wt w.bits 8 packFree (Engine.start s input output) ∧
      InStep rt 8 w.bits unpackFree (Engine.start s input output)) ∧
    (∀ m m', InStep wt w.bits 8 packFree m → packStep o w m = .going m' → InStep wt w.bits 8 packFree m') ∧
    (∀ m m', InStep rt 8 w.bits unpackFree m → unpackStep o w m = .going m' → InStep rt 8 w.bits unpackFree m') ∧
    (∀ m, InStep wt w.bits 8 packFree m →
      m.rem.toNat ≤ w.bits ∧ m.accBits.toNat < 8 ∧
      (entryAt wt m.step.toNat).n ≤ (if m.rem = 0 then w.bits else m.rem.toNat) ∧
      (entryAt wt m.step.toNat).n ≤ 8 - m.accBits.toNat ∧
      ∀ x, m.acc &&& dshift (x &&& (entryAt wt m.step.toNat).mask) (entryAt wt m.step.toNat).shift = 0) ∧
    (∀ m, InStep rt 8 w.bits unpackFree m →
      m.rem.toNat ≤ 8 ∧ m.accBits.toNat < w.bits ∧
      (entryAt rt m.step.toNat).n ≤ (if m.rem = 0 then 8 else m.rem.toNat) ∧
      (entryAt rt m.step.toNat).n ≤ w.bits - m.accBits.toNat ∧
      ∀ x, m.acc &&& dshift (x &&& (entryAt rt m.step.toNat).mask) (entryAt rt m.step.toNat).shift = 0)

/-- `B(w)` of 40_bit_primitives R135: the multiples of `w` and of 8 in `0 .. 8*w`, in order. -/
def Sys2Proof.boundaries (w : Nat) : List Nat :=
  (List.range (8 * w + 1)).filter fun p => p % w == 0 || p % 8 == 0

/-- The write entry of a segment (40_bit_primitives R136, R148). -/
def Sys2Proof.segmentWrite (o : BitOrder) (w s n : Nat) : Entry :=
  match o with
  | .msbFirst => ⟨BitVec.ofNat 8 ((2 ^ n - 1) * 2 ^ (w - s % w - n)), (w - s % w : Int) - (8 - s % 8), n⟩
  | .lsbFirst => ⟨BitVec.ofNat 8 ((2 ^ n - 1) * 2 ^ (s % w)), (s % w : Int) - s % 8, n⟩

/-- The read entry of a segment (40_bit_primitives R136, R148). -/
def Sys2Proof.segmentRead (o : BitOrder) (w s n : Nat) : Entry :=
  match o with
  | .msbFirst => ⟨BitVec.ofNat 8 ((2 ^ n - 1) * 2 ^ (8 - s % 8 - n)), (8 - s % 8 : Int) - (w - s % w), n⟩
  | .lsbFirst => ⟨BitVec.ofNat 8 ((2 ^ n - 1) * 2 ^ (s % 8)), (s % 8 : Int) - s % w, n⟩

/-- 40_bit_primitives R135, R136, R137, R148: the tables the unit walks are those the segment rule generates, for both
widths and both bit orders, with 12 and 14 entries. -/
def Obligations.TablesFollowTheSegmentRule : Prop :=
  ∀ (o : BitOrder) (w : Width), o ∈ [.msbFirst, .lsbFirst] → w ∈ [.w5, .w7] →
    let b := boundaries w.bits
    w.cycle = 8 + w.bits - 1 ∧ b.length = w.cycle + 1 ∧
    writeTable o w = (List.range w.cycle).map (fun k => segmentWrite o w.bits (b.getD k 0) (b.getD (k + 1) 0 - b.getD k 0)) ∧
    readTable o w = (List.range w.cycle).map (fun k => segmentRead o w.bits (b.getD k 0) (b.getD (k + 1) 0 - b.getD k 0))

/-- 40_bit_primitives R142: the read table of a width is the inverse of its write table, entry by entry. -/
def Obligations.ReadTableInvertsWriteTable : Prop :=
  ∀ (o : BitOrder) (w : Width) (k : Nat) (x : Byte), k < w.cycle →
    let e := entryAt (writeTable o w) k
    let t := entryAt (readTable o w) k
    t.n = e.n ∧ t.shift = -e.shift ∧ t.mask = dshift e.mask e.shift ∧
    dshift (dshift (x &&& e.mask) e.shift &&& t.mask) t.shift = x &&& e.mask

/-- 40_bit_primitives R144: the running sums of `n` meet the ends of values and of bytes at exactly the entries the rule
lists, step over neither, and reach `8*w` over a whole table; so for the read and the write table of either bit
order. -/
def Obligations.RunningSumsMeetTheBoundaries : Prop :=
  ∀ (o : BitOrder) (w : Width) (table : List Entry), table = writeTable o w ∨ table = readTable o w →
    startOf table w.cycle = 8 * w.bits ∧
    (List.range w.cycle).filter (fun k => startOf table (k + 1) % w.bits == 0) =
      (match w with | .w5 => [0, 2, 3, 5, 7, 8, 10, 11] | .w7 => [0, 2, 4, 6, 8, 10, 12, 13]) ∧
    (List.range w.cycle).filter (fun k => startOf table (k + 1) % 8 == 0) =
      (match w with | .w5 => [1, 4, 6, 9, 11] | .w7 => [1, 3, 5, 7, 9, 11, 13]) ∧
    ∀ k < w.cycle, ∀ p < startOf table (k + 1), startOf table k < p → p % w.bits ≠ 0 ∧ p % 8 ≠ 0

/-- 40_bit_primitives R143, R145, R146: `n` counts the bits of the mask, the mask is a run of contiguous bits, a shift
loses none of them, a write mask lies within the value's low `w` bits, and a read entry deposits inside them. -/
def Obligations.TableEntriesAreSound : Prop :=
  ∀ (o : BitOrder) (w : Width),
    ∀ e, e ∈ writeTable o w ∨ e ∈ readTable o w →
      e.n = popcount8 e.mask ∧ (∃ k, e.mask.toNat = (2 ^ e.n - 1) * 2 ^ k) ∧
      popcount8 (dshift e.mask e.shift) = popcount8 e.mask ∧
      (e ∈ writeTable o w → e.mask.toNat < 2 ^ w.bits) ∧
      (e ∈ readTable o w → (dshift e.mask e.shift).toNat < 2 ^ w.bits)

/-- 40_bit_primitives R130: the directional shift over its whole domain, and the rule's examples. -/
def Obligations.DirectionalShift : Prop :=
  (∀ (b : Byte) (s : Int), -7 ≤ s → s ≤ 7 →
    (s < 0 → (dshift b s).toNat = b.toNat * 2 ^ (-s).toNat % 256) ∧ (s = 0 → dshift b s = b) ∧
    (0 < s → (dshift b s).toNat = b.toNat / 2 ^ s.toNat) ∧ dshift 0 s = 0) ∧
  dshift 0x1C 2 = 0x07 ∧ dshift 0x03 (-6) = 0xC0

/-- 40_bit_primitives R131: the number of bits that are 1, in `0 .. 8`, and the rule's examples. -/
def Obligations.PopulationCount : Prop :=
  (∀ b : Byte, popcount8 b = ∑ k ∈ Finset.range 8, b.toNat / 2 ^ k % 2 ∧ popcount8 b ≤ 8) ∧
  popcount8 0x00 = 0 ∧ popcount8 0x1C = 3 ∧ popcount8 0xFF = 8

/-! ## Tiles -/

/-- 43_tile_stats R202, R219, 20_memory R63: a load within bounds with its elements waiting completes. It takes exactly
`th*tw` elements in row-major order into the cells of its buffer, makes the buffer valid, and changes nothing else. -/
def Obligations.LoadFillsTheBuffer : Prop :=
  ∀ (s : State) (th tw : Byte) (k : Nat), s.err = 0 →
    1 ≤ th.toNat → th.toNat ≤ s.params.nomH.toNat → 1 ≤ tw.toNat → tw.toNat ≤ s.params.nomW.toNat →
    k = th.toNat * tw.toNat → k ≤ s.vin.queue.length →
    (s.ta.cells.length = s.params.area → ∃ cells : List Byte, cells.length = s.params.area ∧
      (∀ r < th.toNat, ∀ c < tw.toNat,
        TileBuf.cell s.params ⟨true, th, tw, cells⟩ r c = s.vin.queue.getD (r * tw.toNat + c) 0) ∧
      exec (.lda th tw) s = .next { s with
        ta := ⟨true, th, tw, cells⟩, vin := ⟨s.vin.queue.drop k, s.vin.atEnd⟩
        responses := s.responses ++ [⟨0, 0⟩] }) ∧
    (s.tb.cells.length = s.params.area → ∃ cells : List Byte, cells.length = s.params.area ∧
      (∀ r < th.toNat, ∀ c < tw.toNat,
        TileBuf.cell s.params ⟨true, th, tw, cells⟩ r c = s.vin.queue.getD (r * tw.toNat + c) 0) ∧
      exec (.ldb th tw) s = .next { s with
        tb := ⟨true, th, tw, cells⟩, vin := ⟨s.vin.queue.drop k, s.vin.atEnd⟩
        responses := s.responses ++ [⟨0, 0⟩] })

/-- 43_tile_stats R201: a load with a dimension that is 0 or above nominal raises BadData, takes nothing from VIN and
leaves its buffer invalid, with H = W = 0; the other buffer is untouched (R203). What the cells of the invalid buffer hold
is not stated: the spec gives them no value (10_state R46, 93_implementation_defined U4). -/
def Obligations.LoadOfBadDimensions : Prop :=
  ∀ (s : State) (th tw : Byte), s.err = 0 →
    th = 0 ∨ tw = 0 ∨ s.params.nomH.toNat < th.toNat ∨ s.params.nomW.toNat < tw.toNat →
    (∃ cells : List Byte, cells.length = s.ta.cells.length ∧
      exec (.lda th tw) s = .next { s with
        ta := ⟨false, 0, 0, cells⟩, err := 1, responses := s.responses ++ [⟨1, 0⟩] }) ∧
    (∃ cells : List Byte, cells.length = s.tb.cells.length ∧
      exec (.ldb th tw) s = .next { s with
        tb := ⟨false, 0, 0, cells⟩, err := 1, responses := s.responses ++ [⟨1, 0⟩] })

/-- 43_tile_stats R202, R203, 60_exceptions R259: a load that VIN cannot fill raises BadData, has taken what there was,
and leaves its buffer invalid and the other one untouched. -/
def Obligations.LoadShortOfElements : Prop :=
  ∀ (s : State) (th tw : Byte), s.err = 0 →
    1 ≤ th.toNat → th.toNat ≤ s.params.nomH.toNat → 1 ≤ tw.toNat → tw.toNat ≤ s.params.nomW.toNat →
    s.vin.queue.length < th.toNat * tw.toNat → s.vin.atEnd = .eos →
    (∃ cells : List Byte, cells.length = s.ta.cells.length ∧
      exec (.lda th tw) s = .next { s with
        ta := ⟨false, 0, 0, cells⟩, vin := ⟨[], .eos⟩, err := 1, responses := s.responses ++ [⟨1, 0⟩] }) ∧
    (∃ cells : List Byte, cells.length = s.tb.cells.length ∧
      exec (.ldb th tw) s = .next { s with
        tb := ⟨false, 0, 0, cells⟩, vin := ⟨[], .eos⟩, err := 1, responses := s.responses ++ [⟨1, 0⟩] })

/-- `SUM(T)` of 43_tile_stats R205. -/
def Sys2Proof.cellSum (p : Params) (t : TileBuf) : Nat :=
  ∑ r ∈ Finset.range t.h.toNat, ∑ c ∈ Finset.range t.w.toNat, (t.cell p r c).toNat

/-- 43_tile_stats R205, R212: TSUM of a valid TA completes with the exact sum of the tile's own cells in RES and in the
response, and changes nothing else; the sum is at most `255 * H * W`, and `255 * NOM_AREA` for a buffer in form. -/
def Obligations.TsumIsTheSumOfTheCells : Prop :=
  encode .tsum = 0x22000000 ∧
  ∀ s : State, s.err = 0 → s.ta.valid = true →
    ∃ v : BitVec 64, v.toNat = cellSum s.params s.ta ∧ v.toNat ≤ 255 * s.ta.h.toNat * s.ta.w.toNat ∧
      (s.ta.wf s.params = true → v.toNat ≤ 255 * s.params.area) ∧
      exec .tsum s = .next { s with res := v, responses := s.responses ++ [⟨0, v⟩] }

/-- 43_tile_stats R206, R213: TAVG of a valid TA completes with the sum divided by the nominal area, rounded to the
nearest integer, an exact half upward (which needs an even area), and changes nothing else; for a tile within nominal
bounds it is at most 255. -/
def Obligations.TavgRoundsOverTheNominalArea : Prop :=
  encode .tavg = 0x23000000 ∧
  ∀ (s : State) (a : Nat), s.err = 0 → s.ta.valid = true → s.params.wf = true → a = s.params.area →
    ∃ v : BitVec 64, v.toNat = (2 * cellSum s.params s.ta + a) / (2 * a) ∧
      2 * a * v.toNat ≤ 2 * cellSum s.params s.ta + a ∧ 2 * cellSum s.params s.ta < 2 * a * v.toNat + a ∧
      (s.ta.wf s.params = true → v.toNat ≤ 255) ∧ (2 * cellSum s.params s.ta % (2 * a) = a → a % 2 = 0) ∧
      exec .tavg s = .next { s with res := v, responses := s.responses ++ [⟨0, v⟩] }

/-- The sum of absolute cell differences (43_tile_stats R207), over the cells of the first tile. -/
def Sys2Proof.cellDistance (p : Params) (a b : TileBuf) : Nat :=
  ∑ r ∈ Finset.range a.h.toNat, ∑ c ∈ Finset.range a.w.toNat,
    ((a.cell p r c).toNat - (b.cell p r c).toNat + ((b.cell p r c).toNat - (a.cell p r c).toNat))

/-- 43_tile_stats R207, R214: TDIFF of two valid tiles of one shape completes with the sum of absolute cell differences
and changes nothing else; the result does not depend on which tile is which, is at most `255 * NOM_AREA`, and is 0
exactly when the tiles are equal cell by cell. -/
def Obligations.TdiffIsTheL1Distance : Prop :=
  encode .tdiff = 0x24000000 ∧
  ∀ s : State, s.err = 0 → s.ta.valid = true → s.tb.valid = true → s.ta.h = s.tb.h → s.ta.w = s.tb.w →
    ∃ v : BitVec 64, v.toNat = cellDistance s.params s.ta s.tb ∧
      cellDistance s.params s.tb s.ta = v.toNat ∧ (s.ta.wf s.params = true → v.toNat ≤ 255 * s.params.area) ∧
      (v = 0 ↔ ∀ r < s.ta.h.toNat, ∀ c < s.ta.w.toNat, s.ta.cell s.params r c = s.tb.cell s.params r c) ∧
      exec .tdiff s = .next { s with res := v, responses := s.responses ++ [⟨0, v⟩] }

/-- 43_tile_stats R208, R215: TDSUM of two valid tiles of one shape completes with the sum of TA minus the sum of TB, a
signed integer in two's complement, which is also the sum of the cell differences, of magnitude at most
`255 * NOM_AREA`, and changes nothing else. -/
def Obligations.TdsumIsTheSignedSum : Prop :=
  encode .tdsum = 0x25000000 ∧
  ∀ s : State, s.err = 0 → s.ta.valid = true → s.tb.valid = true → s.ta.h = s.tb.h → s.ta.w = s.tb.w →
    ∃ v : BitVec 64, v.toInt = (cellSum s.params s.ta : Int) - cellSum s.params s.tb ∧
      v.toInt = ∑ r ∈ Finset.range s.ta.h.toNat, ∑ c ∈ Finset.range s.ta.w.toNat,
        (((s.ta.cell s.params r c).toNat : Int) - (s.tb.cell s.params r c).toNat) ∧
      (s.ta.wf s.params = true → v.toInt.natAbs ≤ 255 * s.params.area) ∧
      exec .tdsum s = .next { s with res := v, responses := s.responses ++ [⟨0, v⟩] }

/-- 43_tile_stats R204: a statistics command without its valid tiles raises BadCommand and changes nothing else,
whatever the shapes. -/
def Obligations.StatisticsNeedValidTiles : Prop :=
  ∀ (s : State) (i : Instr), s.err = 0 →
    ((i = .tsum ∨ i = .tavg) ∧ s.ta.valid = false) ∨
      ((i = .tdiff ∨ i = .tdsum) ∧ (s.ta.valid = false ∨ s.tb.valid = false)) →
    exec i s = .next { s with err := 4, responses := s.responses ++ [⟨4, 0⟩] }

/-- 43_tile_stats R209: TDIFF and TDSUM of two valid tiles of different shape raise BadData and change nothing else; a
tile that is not valid is found first, and is BadCommand. -/
def Obligations.ShapesMustAgree : Prop :=
  ∀ (s : State) (i : Instr), i = .tdiff ∨ i = .tdsum → s.err = 0 → s.ta.h ≠ s.tb.h ∨ s.ta.w ≠ s.tb.w →
    (s.ta.valid = true ∧ s.tb.valid = true →
      exec i s = .next { s with err := 1, responses := s.responses ++ [⟨1, 0⟩] }) ∧
    (s.ta.valid = false ∨ s.tb.valid = false →
      exec i s = .next { s with err := 4, responses := s.responses ++ [⟨4, 0⟩] })

/-- 10_state R46, R47: no statistic depends on a cell outside the tile, nor on any cell of an invalid buffer: other
cells there give the same response and the same RES. -/
def Obligations.UnusedCellsDoNotMatter : Prop :=
  ∀ (s t : State) (i : Instr) (ca cb : List Byte), i = .tsum ∨ i = .tavg ∨ i = .tdiff ∨ i = .tdsum →
    (s.ta.valid = true → ∀ r < s.ta.h.toNat, ∀ c < s.ta.w.toNat,
      TileBuf.cell s.params { s.ta with cells := ca } r c = s.ta.cell s.params r c) →
    (s.tb.valid = true → ∀ r < s.tb.h.toNat, ∀ c < s.tb.w.toNat,
      TileBuf.cell s.params { s.tb with cells := cb } r c = s.tb.cell s.params r c) →
    exec i s = .next t →
    exec i { s with ta := { s.ta with cells := ca }, tb := { s.tb with cells := cb } } =
      .next { t with ta := { s.ta with cells := ca }, tb := { s.tb with cells := cb } }

/-- 43_tile_stats R213 (the source's "average of an all-5s tile returns 5"): a nominal tile of one value averages to
that value. -/
def Obligations.ConstantNominalTileAveragesToItself : Prop :=
  ∀ (s : State) (x : Byte), s.err = 0 → s.params.wf = true → s.ta.valid = true → s.ta.h = s.params.nomH →
    s.ta.w = s.params.nomW → (∀ r < s.ta.h.toNat, ∀ c < s.ta.w.toNat, s.ta.cell s.params r c = x) →
    exec .tavg s = .next { s with res := x.setWidth 64, responses := s.responses ++ [⟨0, x.setWidth 64⟩] }

/-! ## The whole machine -/

/-- 10_state R35 to R40: each register is written only by the commands that its rule names as its writers (ERR apart:
`ErrorLatchHoldsTheFirstError`), and the parameters by none. -/
def Obligations.RegistersChangeOnlyByTheirWriters : Prop :=
  ∀ (i : Instr) (s t : State), exec i s = .next t →
    t.params = s.params ∧ t.host = s.host ∧
    (t.height ≠ s.height → i = .sreset ∨ ∃ imm, i = .seth imm) ∧
    (t.width ≠ s.width → i = .sreset ∨ ∃ imm, i = .setw imm) ∧
    (t.res ≠ s.res → i = .sreset ∨ i = .tsum ∨ i = .tavg ∨ i = .tdiff ∨ i = .tdsum) ∧
    (t.vcnt ≠ s.vcnt ∨ t.bcnt ≠ s.bcnt →
      i = .sreset ∨ i = .pack5 ∨ i = .pack7 ∨ (∃ e, i = .unpack5 e) ∨ ∃ e, i = .unpack7 e) ∧
    (t.ta ≠ s.ta → i = .sreset ∨ ∃ th tw, i = .lda th tw) ∧
    (t.tb ≠ s.tb → i = .sreset ∨ ∃ th tw, i = .ldb th tw) ∧
    (t.cur ≠ s.cur ∨ t.rem ≠ s.rem ∨ t.acc ≠ s.acc ∨ t.accBits ≠ s.accBits ∨ t.step ≠ s.step →
      i = .sreset ∨ i = .pack5 ∨ i = .pack7 ∨ (∃ e, i = .unpack5 e) ∨ ∃ e, i = .unpack7 e)

/-- 20_memory R60, R61, R68: only the commands of the table of R60 touch a port; what a command takes comes from the
head of the port, and what it pushes goes behind what was pushed before, whatever the outcome. -/
def Obligations.PortsAreFifosOfTheirUsers : Prop :=
  ∀ (i : Instr) (s t : State), exec i s = .next t →
    (∃ k, t.vin = ⟨s.vin.queue.drop k, s.vin.atEnd⟩) ∧ (∃ k, t.bin = ⟨s.bin.queue.drop k, s.bin.atEnd⟩) ∧
    (∃ bytes, t.bout = s.bout ++ bytes) ∧ (∃ vs, t.vout = s.vout ++ vs) ∧ (∃ k, t.sink = s.sink.drop k) ∧
    (t.vin ≠ s.vin → i = .pack5 ∨ i = .pack7 ∨ (∃ th tw, i = .lda th tw) ∨ ∃ th tw, i = .ldb th tw) ∧
    (t.bin ≠ s.bin ∨ t.vout ≠ s.vout → (∃ e, i = .unpack5 e) ∨ ∃ e, i = .unpack7 e) ∧
    (t.bout ≠ s.bout ∨ t.sink ≠ s.sink → i = .pack5 ∨ i = .pack7)

/-- The invariant `State.wf` (parameters, dimensions, latch, counters, tile buffers, responses) is kept by every step:
every command word, legal or not, in every state that meets it, and every action of the host. -/
def Obligations.EveryStepKeepsTheInvariant : Prop :=
  ∀ s t : State, s.wf = true → step s = .next t → t.wf = true

/-- The invariant holds after reset. -/
def Obligations.ResetMeetsTheInvariant : Prop :=
  State.reset.wf = true

/-- 00_scope R9, 10_state R44, 40_bit_primitives R147: no step changes the unit's parameters, and so none changes the
tables it walks. -/
def Obligations.ParametersNeverChange : Prop :=
  ∀ s t : State, step s = .next t → t.params = s.params

/-- 60_exceptions R261: a command that fails exposes its response and nothing it pushed; a command that succeeds exposes
its response and exactly what it pushed. -/
def Obligations.OutputOfAFailedCommandIsVoid : Prop :=
  ∀ (i : Instr) (s t : State), exec i s = .next t →
    ∃ (r : Response) (bytes values : List Byte), t.responses = s.responses ++ [r] ∧ t.bout = s.bout ++ bytes ∧
      t.vout = s.vout ++ values ∧
      observe s t = some (if r.err = 0 then ⟨r, bytes, values⟩ else ⟨r, [], []⟩)
end

