-- ==== Sys2Proof/Laws/State.lean ====
section
/-! SUPPORT. One lemma per field for each update of the state, so that no later proof unfolds a record update. -/

namespace Sys2Proof.Machine

open Sys2Proof

/-! ### `respond`: one response more (30_encoding R108) -/

@[simp] theorem respond_params (e : BitVec 8) (r : BitVec 64) (s : State) : (respond e r s).params = s.params := rfl
@[simp] theorem respond_height (e : BitVec 8) (r : BitVec 64) (s : State) : (respond e r s).height = s.height := rfl
@[simp] theorem respond_width (e : BitVec 8) (r : BitVec 64) (s : State) : (respond e r s).width = s.width := rfl
@[simp] theorem respond_err (e : BitVec 8) (r : BitVec 64) (s : State) : (respond e r s).err = s.err := rfl
@[simp] theorem respond_res (e : BitVec 8) (r : BitVec 64) (s : State) : (respond e r s).res = s.res := rfl
@[simp] theorem respond_vcnt (e : BitVec 8) (r : BitVec 64) (s : State) : (respond e r s).vcnt = s.vcnt := rfl
@[simp] theorem respond_bcnt (e : BitVec 8) (r : BitVec 64) (s : State) : (respond e r s).bcnt = s.bcnt := rfl
@[simp] theorem respond_ta (e : BitVec 8) (r : BitVec 64) (s : State) : (respond e r s).ta = s.ta := rfl
@[simp] theorem respond_tb (e : BitVec 8) (r : BitVec 64) (s : State) : (respond e r s).tb = s.tb := rfl
@[simp] theorem respond_cur (e : BitVec 8) (r : BitVec 64) (s : State) : (respond e r s).cur = s.cur := rfl
@[simp] theorem respond_rem (e : BitVec 8) (r : BitVec 64) (s : State) : (respond e r s).rem = s.rem := rfl
@[simp] theorem respond_acc (e : BitVec 8) (r : BitVec 64) (s : State) : (respond e r s).acc = s.acc := rfl
@[simp] theorem respond_accBits (e : BitVec 8) (r : BitVec 64) (s : State) : (respond e r s).accBits = s.accBits := rfl
@[simp] theorem respond_step (e : BitVec 8) (r : BitVec 64) (s : State) : (respond e r s).step = s.step := rfl
@[simp] theorem respond_vin (e : BitVec 8) (r : BitVec 64) (s : State) : (respond e r s).vin = s.vin := rfl
@[simp] theorem respond_bin (e : BitVec 8) (r : BitVec 64) (s : State) : (respond e r s).bin = s.bin := rfl
@[simp] theorem respond_vout (e : BitVec 8) (r : BitVec 64) (s : State) : (respond e r s).vout = s.vout := rfl
@[simp] theorem respond_bout (e : BitVec 8) (r : BitVec 64) (s : State) : (respond e r s).bout = s.bout := rfl
@[simp] theorem respond_sink (e : BitVec 8) (r : BitVec 64) (s : State) : (respond e r s).sink = s.sink := rfl
@[simp] theorem respond_responses (e : BitVec 8) (r : BitVec 64) (s : State) : (respond e r s).responses = s.responses ++ [⟨e, r⟩] := rfl
@[simp] theorem respond_host (e : BitVec 8) (r : BitVec 64) (s : State) : (respond e r s).host = s.host := rfl
@[simp] theorem respond_fresh (e : BitVec 8) (r : BitVec 64) (s : State) : (respond e r s).fresh = s.fresh := rfl

/-! ### `raise`: the latch and one response (60_exceptions R258) -/

@[simp] theorem raise_params (k : ErrKind) (s : State) : (raise k s).params = s.params := rfl
@[simp] theorem raise_height (k : ErrKind) (s : State) : (raise k s).height = s.height := rfl
@[simp] theorem raise_width (k : ErrKind) (s : State) : (raise k s).width = s.width := rfl
@[simp] theorem raise_err (k : ErrKind) (s : State) : (raise k s).err = latchAfter k s.err := rfl
@[simp] theorem raise_res (k : ErrKind) (s : State) : (raise k s).res = s.res := rfl
@[simp] theorem raise_vcnt (k : ErrKind) (s : State) : (raise k s).vcnt = s.vcnt := rfl
@[simp] theorem raise_bcnt (k : ErrKind) (s : State) : (raise k s).bcnt = s.bcnt := rfl
@[simp] theorem raise_ta (k : ErrKind) (s : State) : (raise k s).ta = s.ta := rfl
@[simp] theorem raise_tb (k : ErrKind) (s : State) : (raise k s).tb = s.tb := rfl
@[simp] theorem raise_cur (k : ErrKind) (s : State) : (raise k s).cur = s.cur := rfl
@[simp] theorem raise_rem (k : ErrKind) (s : State) : (raise k s).rem = s.rem := rfl
@[simp] theorem raise_acc (k : ErrKind) (s : State) : (raise k s).acc = s.acc := rfl
@[simp] theorem raise_accBits (k : ErrKind) (s : State) : (raise k s).accBits = s.accBits := rfl
@[simp] theorem raise_step (k : ErrKind) (s : State) : (raise k s).step = s.step := rfl
@[simp] theorem raise_vin (k : ErrKind) (s : State) : (raise k s).vin = s.vin := rfl
@[simp] theorem raise_bin (k : ErrKind) (s : State) : (raise k s).bin = s.bin := rfl
@[simp] theorem raise_vout (k : ErrKind) (s : State) : (raise k s).vout = s.vout := rfl
@[simp] theorem raise_bout (k : ErrKind) (s : State) : (raise k s).bout = s.bout := rfl
@[simp] theorem raise_sink (k : ErrKind) (s : State) : (raise k s).sink = s.sink := rfl
@[simp] theorem raise_responses (k : ErrKind) (s : State) : (raise k s).responses = s.responses ++ [⟨k.code, 0⟩] := rfl
@[simp] theorem raise_host (k : ErrKind) (s : State) : (raise k s).host = s.host := rfl
@[simp] theorem raise_fresh (k : ErrKind) (s : State) : (raise k s).fresh = s.fresh := rfl

/-! ### `clearError`: the latch only (60_exceptions R264) -/

@[simp] theorem clearError_params (s : State) : (clearError s).params = s.params := rfl
@[simp] theorem clearError_height (s : State) : (clearError s).height = s.height := rfl
@[simp] theorem clearError_width (s : State) : (clearError s).width = s.width := rfl
@[simp] theorem clearError_err (s : State) : (clearError s).err = 0 := rfl
@[simp] theorem clearError_res (s : State) : (clearError s).res = s.res := rfl
@[simp] theorem clearError_vcnt (s : State) : (clearError s).vcnt = s.vcnt := rfl
@[simp] theorem clearError_bcnt (s : State) : (clearError s).bcnt = s.bcnt := rfl
@[simp] theorem clearError_ta (s : State) : (clearError s).ta = s.ta := rfl
@[simp] theorem clearError_tb (s : State) : (clearError s).tb = s.tb := rfl
@[simp] theorem clearError_cur (s : State) : (clearError s).cur = s.cur := rfl
@[simp] theorem clearError_rem (s : State) : (clearError s).rem = s.rem := rfl
@[simp] theorem clearError_acc (s : State) : (clearError s).acc = s.acc := rfl
@[simp] theorem clearError_accBits (s : State) : (clearError s).accBits = s.accBits := rfl
@[simp] theorem clearError_step (s : State) : (clearError s).step = s.step := rfl
@[simp] theorem clearError_vin (s : State) : (clearError s).vin = s.vin := rfl
@[simp] theorem clearError_bin (s : State) : (clearError s).bin = s.bin := rfl
@[simp] theorem clearError_vout (s : State) : (clearError s).vout = s.vout := rfl
@[simp] theorem clearError_bout (s : State) : (clearError s).bout = s.bout := rfl
@[simp] theorem clearError_sink (s : State) : (clearError s).sink = s.sink := rfl
@[simp] theorem clearError_responses (s : State) : (clearError s).responses = s.responses := rfl
@[simp] theorem clearError_host (s : State) : (clearError s).host = s.host := rfl
@[simp] theorem clearError_fresh (s : State) : (clearError s).fresh = s.fresh := rfl

/-! ### `refuse`: one response more (60_exceptions R260) -/

@[simp] theorem refuse_params (s : State) : (refuse s).params = s.params := rfl
@[simp] theorem refuse_height (s : State) : (refuse s).height = s.height := rfl
@[simp] theorem refuse_width (s : State) : (refuse s).width = s.width := rfl
@[simp] theorem refuse_err (s : State) : (refuse s).err = s.err := rfl
@[simp] theorem refuse_res (s : State) : (refuse s).res = s.res := rfl
@[simp] theorem refuse_vcnt (s : State) : (refuse s).vcnt = s.vcnt := rfl
@[simp] theorem refuse_bcnt (s : State) : (refuse s).bcnt = s.bcnt := rfl
@[simp] theorem refuse_ta (s : State) : (refuse s).ta = s.ta := rfl
@[simp] theorem refuse_tb (s : State) : (refuse s).tb = s.tb := rfl
@[simp] theorem refuse_cur (s : State) : (refuse s).cur = s.cur := rfl
@[simp] theorem refuse_rem (s : State) : (refuse s).rem = s.rem := rfl
@[simp] theorem refuse_acc (s : State) : (refuse s).acc = s.acc := rfl
@[simp] theorem refuse_accBits (s : State) : (refuse s).accBits = s.accBits := rfl
@[simp] theorem refuse_step (s : State) : (refuse s).step = s.step := rfl
@[simp] theorem refuse_vin (s : State) : (refuse s).vin = s.vin := rfl
@[simp] theorem refuse_bin (s : State) : (refuse s).bin = s.bin := rfl
@[simp] theorem refuse_vout (s : State) : (refuse s).vout = s.vout := rfl
@[simp] theorem refuse_bout (s : State) : (refuse s).bout = s.bout := rfl
@[simp] theorem refuse_sink (s : State) : (refuse s).sink = s.sink := rfl
@[simp] theorem refuse_responses (s : State) : (refuse s).responses = s.responses ++ [⟨s.err, 0⟩] := rfl
@[simp] theorem refuse_host (s : State) : (refuse s).host = s.host := rfl
@[simp] theorem refuse_fresh (s : State) : (refuse s).fresh = s.fresh := rfl

/-! ### `resetUnit`: the reset values (10_state R55); the ports stay -/

@[simp] theorem resetUnit_params (s : State) : (resetUnit s).params = s.params := rfl
@[simp] theorem resetUnit_height (s : State) : (resetUnit s).height = 0 := rfl
@[simp] theorem resetUnit_width (s : State) : (resetUnit s).width = 0 := rfl
@[simp] theorem resetUnit_err (s : State) : (resetUnit s).err = 0 := rfl
@[simp] theorem resetUnit_res (s : State) : (resetUnit s).res = 0 := rfl
@[simp] theorem resetUnit_vcnt (s : State) : (resetUnit s).vcnt = 0 := rfl
@[simp] theorem resetUnit_bcnt (s : State) : (resetUnit s).bcnt = 0 := rfl
@[simp] theorem resetUnit_vin (s : State) : (resetUnit s).vin = s.vin := rfl
@[simp] theorem resetUnit_bin (s : State) : (resetUnit s).bin = s.bin := rfl
@[simp] theorem resetUnit_vout (s : State) : (resetUnit s).vout = s.vout := rfl
@[simp] theorem resetUnit_bout (s : State) : (resetUnit s).bout = s.bout := rfl
@[simp] theorem resetUnit_sink (s : State) : (resetUnit s).sink = s.sink := rfl
@[simp] theorem resetUnit_responses (s : State) : (resetUnit s).responses = s.responses := rfl
@[simp] theorem resetUnit_host (s : State) : (resetUnit s).host = s.host := rfl
@[simp] theorem resetUnit_fresh (s : State) : (resetUnit s).fresh = s.fresh + 2 * s.params.area + 5 := rfl

@[simp] theorem resetUnit_ta (s : State) :
    (resetUnit s).ta = TileBuf.blank s.params (fun i => Config.unspecified (s.fresh + i)) := rfl
@[simp] theorem resetUnit_tb (s : State) :
    (resetUnit s).tb = TileBuf.blank s.params (fun i => Config.unspecified (s.fresh + (s.params.area + i))) := rfl

/-! ### `storePack`: what a PACK writes (41_pack R174) -/

@[simp] theorem storePack_params (m : Engine) (s : State) : (storePack m s).params = s.params := rfl
@[simp] theorem storePack_height (m : Engine) (s : State) : (storePack m s).height = s.height := rfl
@[simp] theorem storePack_width (m : Engine) (s : State) : (storePack m s).width = s.width := rfl
@[simp] theorem storePack_err (m : Engine) (s : State) : (storePack m s).err = s.err := rfl
@[simp] theorem storePack_res (m : Engine) (s : State) : (storePack m s).res = s.res := rfl
@[simp] theorem storePack_vcnt (m : Engine) (s : State) : (storePack m s).vcnt = m.vcnt := rfl
@[simp] theorem storePack_bcnt (m : Engine) (s : State) : (storePack m s).bcnt = m.bcnt := rfl
@[simp] theorem storePack_ta (m : Engine) (s : State) : (storePack m s).ta = s.ta := rfl
@[simp] theorem storePack_tb (m : Engine) (s : State) : (storePack m s).tb = s.tb := rfl
@[simp] theorem storePack_cur (m : Engine) (s : State) : (storePack m s).cur = m.cur := rfl
@[simp] theorem storePack_rem (m : Engine) (s : State) : (storePack m s).rem = m.rem := rfl
@[simp] theorem storePack_acc (m : Engine) (s : State) : (storePack m s).acc = m.acc := rfl
@[simp] theorem storePack_accBits (m : Engine) (s : State) : (storePack m s).accBits = m.accBits := rfl
@[simp] theorem storePack_step (m : Engine) (s : State) : (storePack m s).step = m.step := rfl
@[simp] theorem storePack_vin (m : Engine) (s : State) : (storePack m s).vin = m.input := rfl
@[simp] theorem storePack_bin (m : Engine) (s : State) : (storePack m s).bin = s.bin := rfl
@[simp] theorem storePack_vout (m : Engine) (s : State) : (storePack m s).vout = s.vout := rfl
@[simp] theorem storePack_bout (m : Engine) (s : State) : (storePack m s).bout = m.output := rfl
@[simp] theorem storePack_sink (m : Engine) (s : State) : (storePack m s).sink = m.sink := rfl
@[simp] theorem storePack_responses (m : Engine) (s : State) : (storePack m s).responses = s.responses := rfl
@[simp] theorem storePack_host (m : Engine) (s : State) : (storePack m s).host = s.host := rfl
@[simp] theorem storePack_fresh (m : Engine) (s : State) : (storePack m s).fresh = s.fresh := rfl

/-! ### `storeUnpack`: what an UNPACK writes (42_unpack R195) -/

@[simp] theorem storeUnpack_params (m : Engine) (s : State) : (storeUnpack m s).params = s.params := rfl
@[simp] theorem storeUnpack_height (m : Engine) (s : State) : (storeUnpack m s).height = s.height := rfl
@[simp] theorem storeUnpack_width (m : Engine) (s : State) : (storeUnpack m s).width = s.width := rfl
@[simp] theorem storeUnpack_err (m : Engine) (s : State) : (storeUnpack m s).err = s.err := rfl
@[simp] theorem storeUnpack_res (m : Engine) (s : State) : (storeUnpack m s).res = s.res := rfl
@[simp] theorem storeUnpack_vcnt (m : Engine) (s : State) : (storeUnpack m s).vcnt = m.vcnt := rfl
@[simp] theorem storeUnpack_bcnt (m : Engine) (s : State) : (storeUnpack m s).bcnt = m.bcnt := rfl
@[simp] theorem storeUnpack_ta (m : Engine) (s : State) : (storeUnpack m s).ta = s.ta := rfl
@[simp] theorem storeUnpack_tb (m : Engine) (s : State) : (storeUnpack m s).tb = s.tb := rfl
@[simp] theorem storeUnpack_cur (m : Engine) (s : State) : (storeUnpack m s).cur = m.cur := rfl
@[simp] theorem storeUnpack_rem (m : Engine) (s : State) : (storeUnpack m s).rem = m.rem := rfl
@[simp] theorem storeUnpack_acc (m : Engine) (s : State) : (storeUnpack m s).acc = m.acc := rfl
@[simp] theorem storeUnpack_accBits (m : Engine) (s : State) : (storeUnpack m s).accBits = m.accBits := rfl
@[simp] theorem storeUnpack_step (m : Engine) (s : State) : (storeUnpack m s).step = m.step := rfl
@[simp] theorem storeUnpack_vin (m : Engine) (s : State) : (storeUnpack m s).vin = s.vin := rfl
@[simp] theorem storeUnpack_bin (m : Engine) (s : State) : (storeUnpack m s).bin = m.input := rfl
@[simp] theorem storeUnpack_vout (m : Engine) (s : State) : (storeUnpack m s).vout = m.output := rfl
@[simp] theorem storeUnpack_bout (m : Engine) (s : State) : (storeUnpack m s).bout = s.bout := rfl
@[simp] theorem storeUnpack_sink (m : Engine) (s : State) : (storeUnpack m s).sink = s.sink := rfl
@[simp] theorem storeUnpack_responses (m : Engine) (s : State) : (storeUnpack m s).responses = s.responses := rfl
@[simp] theorem storeUnpack_host (m : Engine) (s : State) : (storeUnpack m s).host = s.host := rfl
@[simp] theorem storeUnpack_fresh (m : Engine) (s : State) : (storeUnpack m s).fresh = s.fresh := rfl

/-! ### `presentWord`: the command port only -/

@[simp] theorem presentWord_params (x : Command) (s : State) : (presentWord x s).params = s.params := rfl
@[simp] theorem presentWord_height (x : Command) (s : State) : (presentWord x s).height = s.height := rfl
@[simp] theorem presentWord_width (x : Command) (s : State) : (presentWord x s).width = s.width := rfl
@[simp] theorem presentWord_err (x : Command) (s : State) : (presentWord x s).err = s.err := rfl
@[simp] theorem presentWord_res (x : Command) (s : State) : (presentWord x s).res = s.res := rfl
@[simp] theorem presentWord_vcnt (x : Command) (s : State) : (presentWord x s).vcnt = s.vcnt := rfl
@[simp] theorem presentWord_bcnt (x : Command) (s : State) : (presentWord x s).bcnt = s.bcnt := rfl
@[simp] theorem presentWord_ta (x : Command) (s : State) : (presentWord x s).ta = s.ta := rfl
@[simp] theorem presentWord_tb (x : Command) (s : State) : (presentWord x s).tb = s.tb := rfl
@[simp] theorem presentWord_cur (x : Command) (s : State) : (presentWord x s).cur = s.cur := rfl
@[simp] theorem presentWord_rem (x : Command) (s : State) : (presentWord x s).rem = s.rem := rfl
@[simp] theorem presentWord_acc (x : Command) (s : State) : (presentWord x s).acc = s.acc := rfl
@[simp] theorem presentWord_accBits (x : Command) (s : State) : (presentWord x s).accBits = s.accBits := rfl
@[simp] theorem presentWord_step (x : Command) (s : State) : (presentWord x s).step = s.step := rfl
@[simp] theorem presentWord_vin (x : Command) (s : State) : (presentWord x s).vin = s.vin := rfl
@[simp] theorem presentWord_bin (x : Command) (s : State) : (presentWord x s).bin = s.bin := rfl
@[simp] theorem presentWord_vout (x : Command) (s : State) : (presentWord x s).vout = s.vout := rfl
@[simp] theorem presentWord_bout (x : Command) (s : State) : (presentWord x s).bout = s.bout := rfl
@[simp] theorem presentWord_sink (x : Command) (s : State) : (presentWord x s).sink = s.sink := rfl
@[simp] theorem presentWord_responses (x : Command) (s : State) : (presentWord x s).responses = s.responses := rfl
@[simp] theorem presentWord_host (x : Command) (s : State) : (presentWord x s).host = .command x :: s.host := rfl
@[simp] theorem presentWord_fresh (x : Command) (s : State) : (presentWord x s).fresh = s.fresh := rfl

/-! ### Tile buffers -/

@[simp] theorem blank_valid (p : Params) (f : Nat → Byte) : (TileBuf.blank p f).valid = false := rfl
@[simp] theorem blank_h (p : Params) (f : Nat → Byte) : (TileBuf.blank p f).h = 0 := rfl
@[simp] theorem blank_w (p : Params) (f : Nat → Byte) : (TileBuf.blank p f).w = 0 := rfl
@[simp] theorem blank_cells_length (p : Params) (f : Nat → Byte) : (TileBuf.blank p f).cells.length = p.area := by
  simp [TileBuf.blank]
@[simp] theorem invalidate_valid (t : TileBuf) : t.invalidate.valid = false := rfl
@[simp] theorem invalidate_h (t : TileBuf) : t.invalidate.h = 0 := rfl
@[simp] theorem invalidate_w (t : TileBuf) : t.invalidate.w = 0 := rfl
@[simp] theorem invalidate_cells (t : TileBuf) : t.invalidate.cells = t.cells := rfl

/-! ### The host puts one word in front -/

@[simp] theorem withFetchWord_host (s : State) (nbits w : Nat) :
    (s.withFetchWord nbits w).host = .command (BitVec.ofNat 32 (w % 2 ^ nbits)) :: s.host := rfl

end Sys2Proof.Machine
end

