-- ==== Sys2Proof/Laws/Ops.lean ====
section
/-! SUPPORT. What each shared operation can do, said once: the latch check, error entry, the port operations, the
filling of a tile buffer. Later proofs cite these instead of unfolding the operations. -/

namespace Sys2Proof.Machine

open Sys2Proof

/-! ## The latch -/

theorem latched_iff (s : State) : latched s = true ↔ s.err ≠ 0 := by simp [latched]

theorem latchAfter_clear {e : BitVec 8} (k : ErrKind) (h : e = 0) : latchAfter k e = k.code := by
  simp [latchAfter, h]

theorem latchAfter_set {e : BitVec 8} (k : ErrKind) (h : e ≠ 0) : latchAfter k e = e := if_neg h

theorem code_ne_zero (k : ErrKind) : k.code ≠ 0 := by cases k <;> decide

theorem code_le_four (k : ErrKind) : k.code.toNat ≤ 4 := by cases k <;> decide

/-- With the latch set a command is refused (60_exceptions R260). -/
theorem unlessLatched_set {s : State} (run : State → Result) (h : s.err ≠ 0) :
    unlessLatched s run = .next (refuse s) := if_pos ((latched_iff s).2 h)

/-- With the latch clear a command runs. -/
theorem unlessLatched_clear {s : State} (run : State → Result) (h : s.err = 0) :
    unlessLatched s run = run s := by
  simp [unlessLatched, latched, h]

/-- A command behind the latch check goes on by being refused or by running. -/
theorem unlessLatched_next {s t : State} {run : State → Result} (h : unlessLatched s run = .next t) :
    (s.err ≠ 0 ∧ t = refuse s) ∨ (s.err = 0 ∧ run s = .next t) := by
  by_cases hs : s.err = 0
  · exact .inr ⟨hs, by rwa [unlessLatched_clear run hs] at h⟩
  · rw [unlessLatched_set run hs] at h
    exact .inl ⟨hs, by cases h; rfl⟩

/-! ## Ports -/

theorem pull_cons (x : Byte) (xs : List Byte) (e : AtEnd) :
    InPort.pull ⟨x :: xs, e⟩ = .elem x ⟨xs, e⟩ := rfl

theorem pull_nil_eos : InPort.pull ⟨[], .eos⟩ = .eos := rfl

theorem pull_nil_never : InPort.pull ⟨[], .never⟩ = .never := rfl

/-- A pull that returns an element takes the head and nothing else (20_memory R64, R66). -/
theorem pull_elem {p p' : InPort} {x : Byte} (h : p.pull = .elem x p') :
    p.queue = x :: p'.queue ∧ p'.atEnd = p.atEnd := by
  obtain ⟨queue, atEnd⟩ := p
  cases queue with
  | nil => cases atEnd <;> simp [InPort.pull] at h
  | cons y ys =>
    simp only [pull_cons, Pull.elem.injEq] at h
    obtain ⟨rfl, rfl⟩ := h
    exact ⟨rfl, rfl⟩

/-- A pull that returns `EOS` found nothing waiting. -/
theorem pull_eos {p : InPort} (h : p.pull = .eos) : p.queue = [] ∧ p.atEnd = .eos := by
  obtain ⟨queue, atEnd⟩ := p
  cases queue <;> cases atEnd <;> simp_all [InPort.pull]

/-- A pull that is never answered found nothing waiting on a silent port. -/
theorem pull_never {p : InPort} (h : p.pull = .never) : p.queue = [] ∧ p.atEnd = .never := by
  obtain ⟨queue, atEnd⟩ := p
  cases queue <;> cases atEnd <;> simp_all [InPort.pull]

/-- A push uses up at most one answer of the sink. -/
theorem nextAnswer_drop (sink : List SinkAnswer) : ∃ k, (nextAnswer sink).2 = sink.drop k := by
  cases sink with
  | nil => exact ⟨0, rfl⟩
  | cons a rest => exact ⟨1, rfl⟩

theorem nextAnswer_tail (sink : List SinkAnswer) : (nextAnswer sink).2 = sink.drop 1 := by
  cases sink <;> rfl

/-- A push that is never answered met a silent sink. -/
theorem nextAnswer_never {sink : List SinkAnswer} (h : (nextAnswer sink).1 = .never) : .never ∈ sink := by
  cases sink with
  | nil => simp [nextAnswer] at h
  | cons a rest => simp [nextAnswer] at h; simp [h]

/-! ## Filling a tile buffer -/

/-- The cells after the elements `xs` have been written to the positions `ps`, in order. -/
def writeCells (p : Params) (ps : List (Nat × Nat)) (xs cells : List Byte) : List Byte :=
  (ps.zip xs).foldl (fun cells q => cells.set (cellIndex p q.1.1 q.1.2) q.2) cells

@[simp] theorem writeCells_length (p : Params) (ps : List (Nat × Nat)) (xs cells : List Byte) :
    (writeCells p ps xs cells).length = cells.length := by
  unfold writeCells
  induction ps.zip xs generalizing cells with
  | nil => rfl
  | cons q qs ih => simp [ih]

/-- Cells of no position stay as they were. -/
theorem writeCells_other (p : Params) (ps : List (Nat × Nat)) (xs cells : List Byte) (i : Nat)
    (hi : i ∉ ps.map fun q => cellIndex p q.1 q.2) : (writeCells p ps xs cells)[i]? = cells[i]? := by
  induction ps generalizing xs cells with
  | nil => rfl
  | cons a ps ih =>
    cases xs with
    | nil => rfl
    | cons y ys =>
      rw [List.map_cons, List.mem_cons, not_or] at hi
      exact (ih ys _ hi.2).trans (List.getElem?_set_ne (Ne.symm hi.1))

/-- A fill with enough elements waiting is complete and takes exactly one for each position (43_tile_stats R202). -/
theorem fillCells_enough (p : Params) (ps : List (Nat × Nat)) (cells queue : List Byte) (e : AtEnd)
    (h : ps.length ≤ queue.length) :
    fillCells p ps cells ⟨queue, e⟩ = .full (writeCells p ps queue cells) ⟨queue.drop ps.length, e⟩ := by
  induction ps generalizing cells queue with
  | nil => simp [fillCells, writeCells]
  | cons q ps ih =>
    cases queue with
    | nil => simp at h
    | cons x xs => simpa [fillCells, pull_cons, writeCells] using ih _ xs (by simpa using h)

/-- A fill with too few elements waiting takes them all and ends at `EOS` (43_tile_stats R202). -/
theorem fillCells_short (p : Params) (ps : List (Nat × Nat)) (cells queue : List Byte)
    (h : queue.length < ps.length) :
    fillCells p ps cells ⟨queue, .eos⟩ = .short (writeCells p ps queue cells) ⟨[], .eos⟩ := by
  induction ps generalizing cells queue with
  | nil => simp at h
  | cons q ps ih =>
    cases queue with
    | nil => simp [fillCells, pull_nil_eos, writeCells]
    | cons x xs => simpa [fillCells, pull_cons, writeCells] using ih _ xs (by simpa using h)

/-- A fill with too few elements waiting on a silent port never ends. -/
theorem fillCells_stuck (p : Params) (ps : List (Nat × Nat)) (cells queue : List Byte)
    (h : queue.length < ps.length) : fillCells p ps cells ⟨queue, .never⟩ = .stuck := by
  induction ps generalizing cells queue with
  | nil => simp at h
  | cons q ps ih =>
    cases queue with
    | nil => simp [fillCells, pull_nil_never]
    | cons x xs => simpa [fillCells, pull_cons] using ih _ xs (by simpa using h)

/-- How a fill can end, whatever it meets. -/
theorem fillCells_cases (p : Params) (ps : List (Nat × Nat)) (cells : List Byte) (port : InPort) :
    (ps.length ≤ port.queue.length ∧ fillCells p ps cells port =
      .full (writeCells p ps port.queue cells) ⟨port.queue.drop ps.length, port.atEnd⟩) ∨
    (port.queue.length < ps.length ∧ port.atEnd = .eos ∧ fillCells p ps cells port =
      .short (writeCells p ps port.queue cells) ⟨[], .eos⟩) ∨
    (port.queue.length < ps.length ∧ port.atEnd = .never ∧ fillCells p ps cells port = .stuck) := by
  obtain ⟨queue, atEnd⟩ := port
  by_cases h : ps.length ≤ queue.length
  · exact .inl ⟨h, fillCells_enough p ps cells queue atEnd h⟩
  · have h' : queue.length < ps.length := by omega
    cases atEnd with
    | eos => exact .inr (.inl ⟨h', rfl, fillCells_short p ps cells queue h'⟩)
    | never => exact .inr (.inr ⟨h', rfl, fillCells_stuck p ps cells queue h'⟩)

/-! ## Positions of a tile -/

theorem positions_length (h w : Nat) : (positions h w).length = h * w := by
  simp [positions]

theorem mem_positions {h w r c : Nat} : (r, c) ∈ positions h w ↔ r < h ∧ c < w := by
  simp [positions]

theorem positions_succ (h w : Nat) :
    positions (h + 1) w = positions h w ++ (List.range w).map fun c => (h, c) := by
  simp [positions, List.range_succ]

/-- Element `r * w + c` of the row-major order is row `r`, column `c` (20_memory R63). -/
theorem positions_getElem? {h w r c : Nat} (hr : r < h) (hc : c < w) :
    (positions h w)[r * w + c]? = some (r, c) := by
  induction h with
  | zero => omega
  | succ h ih =>
    rw [positions_succ]
    by_cases hrh : r < h
    · have : r * w + c < h * w := by nlinarith
      rw [List.getElem?_append_left (by rwa [positions_length])]
      exact ih hrh
    · obtain rfl : r = h := by omega
      rw [List.getElem?_append_right (by rw [positions_length]; omega), positions_length]
      simp [hc]

theorem cellIndex_lt {p : Params} {r c : Nat} (hr : r < p.nomH.toNat) (hc : c < p.nomW.toNat) :
    cellIndex p r c < p.area := by
  unfold cellIndex Params.area
  nlinarith

theorem cellIndex_inj {p : Params} {r c r' c' : Nat} (hc : c < p.nomW.toNat) (hc' : c' < p.nomW.toNat)
    (h : cellIndex p r c = cellIndex p r' c') : r = r' ∧ c = c' := by
  unfold cellIndex at h
  have hw : 0 < p.nomW.toNat := by omega
  have hr : r = r' := by
    have := congrArg (· / p.nomW.toNat) h
    simpa [Nat.add_div_of_dvd_right, Nat.mul_div_cancel _ hw, Nat.div_eq_of_lt hc, Nat.div_eq_of_lt hc',
      Nat.add_comm (_ * _), Nat.add_mul_div_right _ _ hw] using this
  subst hr
  exact ⟨rfl, by omega⟩

/-- Writing to positions whose cells are all different leaves at each the element written there, and the cells of no
position as they were. -/
theorem writeCells_getElem? (p : Params) (ps : List (Nat × Nat)) (xs cells : List Byte)
    (hd : (ps.map fun q => cellIndex p q.1 q.2).Nodup) (hlt : ∀ q ∈ ps, cellIndex p q.1 q.2 < cells.length)
    {k : Nat} {q : Nat × Nat} (hq : ps[k]? = some q) {x : Byte} (hx : xs[k]? = some x) :
    (writeCells p ps xs cells)[cellIndex p q.1 q.2]? = some x := by
  induction ps generalizing xs cells k with
  | nil => simp at hq
  | cons a ps ih =>
    cases xs with
    | nil => simp at hx
    | cons y ys =>
      rw [List.map_cons, List.nodup_cons] at hd
      have hw : writeCells p (a :: ps) (y :: ys) cells = writeCells p ps ys (cells.set (cellIndex p a.1 a.2) y) := rfl
      rw [hw]
      cases k with
      | zero =>
        simp only [List.getElem?_cons_zero, Option.some.injEq] at hq hx
        subst hq hx
        rw [writeCells_other p ps ys _ _ hd.1, List.getElem?_set_self (hlt a List.mem_cons_self)]
      | succ k =>
        refine ih ys _ hd.2 (fun q hq => ?_) hq hx
        rw [List.length_set]
        exact hlt q (List.mem_cons_of_mem _ hq)

/-- The cells of the positions of a tile within nominal bounds are all different. -/
theorem positions_nodup {p : Params} {h w : Nat} (hw : w ≤ p.nomW.toNat) :
    ((positions h w).map fun q => cellIndex p q.1 q.2).Nodup := by
  refine List.Nodup.map_on ?_ ?_
  · rintro ⟨r, c⟩ hm ⟨r', c'⟩ hm' he
    have h1 := mem_positions.1 hm
    have h2 := mem_positions.1 hm'
    obtain ⟨rfl, rfl⟩ := cellIndex_inj (by omega : c < p.nomW.toNat) (by omega : c' < p.nomW.toNat) he
    rfl
  · unfold positions
    refine List.nodup_flatMap.2 ⟨fun r _ => ?_, ?_⟩
    · exact List.nodup_range.map fun a b h => (Prod.mk.inj h).2
    · refine List.nodup_range.imp fun {a b} hab => ?_
      simp only [Function.onFun, List.disjoint_left, List.mem_map, List.mem_range]
      rintro x ⟨c, -, rfl⟩ ⟨c', -, he⟩
      exact hab (Prod.mk.inj he).1.symm

/-- A loaded tile reads back row by row (20_memory R63, 43_tile_stats R202). -/
theorem cell_of_load {p : Params} {th tw : Byte} {cells xs : List Byte} (hh : th.toNat ≤ p.nomH.toNat)
    (hw : tw.toNat ≤ p.nomW.toNat) (hc : cells.length = p.area) (hx : th.toNat * tw.toNat ≤ xs.length) {r c : Nat}
    (hr : r < th.toNat) (hcl : c < tw.toNat) :
    TileBuf.cell p ⟨true, th, tw, writeCells p (positions th.toNat tw.toNat) xs cells⟩ r c =
      xs.getD (r * tw.toNat + c) 0 := by
  have hk : r * tw.toNat + c < xs.length := by nlinarith
  have hget := writeCells_getElem? p (positions th.toNat tw.toNat) xs cells (positions_nodup hw)
    (fun q hq => by
      obtain ⟨h1, h2⟩ := mem_positions.1 (show (q.1, q.2) ∈ _ from hq)
      rw [hc]
      exact cellIndex_lt (by omega) (by omega))
    (positions_getElem? hr hcl) (List.getElem?_eq_getElem hk)
  rw [TileBuf.cell, List.getD_eq_getElem?_getD, hget, Option.getD_some, List.getD_eq_getElem?_getD,
    List.getElem?_eq_getElem hk, Option.getD_some]

/-- A sum over the positions of a tile, row by row. -/
theorem sum_positions {α : Type} [AddCommMonoid α] (f : Nat → Nat → α) (h w : Nat) :
    ((positions h w).map fun q => f q.1 q.2).sum = ∑ r ∈ Finset.range h, ∑ c ∈ Finset.range w, f r c := by
  induction h with
  | zero => simp [positions]
  | succ h ih =>
    rw [positions_succ, List.map_append, List.sum_append, ih, Finset.sum_range_succ, List.map_map]
    congr 1

end Sys2Proof.Machine
end

