-- ==== Sys2Proof/Laws/Codec.lean ====
section
/-! SUPPORT. The codec machines as loops: how each part of a table step can end, the induction over a whole command
packaged once, and when a codec command gets past its entry checks. -/

namespace Sys2Proof.Machine

open Sys2Proof

/-- `P` holds of the engine wherever the stretch ended, if it ended. -/
def Run.All (P : Engine → Prop) : Run → Prop
  | .going m => P m
  | .raised _ m => P m
  | .stuck => True

@[simp] theorem andThen_going (m : Engine) (f : Engine → Run) : (Run.going m).andThen f = f m := rfl
@[simp] theorem andThen_raised (k : ErrKind) (m : Engine) (f : Engine → Run) :
    (Run.raised k m).andThen f = .raised k m := rfl
@[simp] theorem andThen_stuck (f : Engine → Run) : Run.stuck.andThen f = .stuck := rfl

theorem all_andThen {P Q : Engine → Prop} {r : Run} {f : Engine → Run} (h : r.All P)
    (hf : ∀ m, P m → (f m).All Q) (hq : ∀ m, P m → Q m) : (r.andThen f).All Q := by
  cases r with
  | going m => exact hf m h
  | raised k m => exact hq m h
  | stuck => trivial

/-! ## The parts of a table step -/

/-- PACK's pull: not due, an element taken, `EOS`, or never answered (41_pack R163, R166). -/
theorem pullValue_cases (w : Width) (m : Engine) :
    (m.rem ≠ 0 ∧ pullValue w m = .going m) ∨
    (m.rem = 0 ∧ ∃ x xs, m.input.queue = x :: xs ∧ pullValue w m =
      .going { m with cur := x, vcnt := m.vcnt + 1, rem := BitVec.ofNat 4 w.bits, input := ⟨xs, m.input.atEnd⟩ }) ∨
    (m.rem = 0 ∧ m.input = ⟨[], .eos⟩ ∧ pullValue w m = .raised .badData m) ∨
    (m.rem = 0 ∧ m.input = ⟨[], .never⟩ ∧ pullValue w m = .stuck) := by
  obtain ⟨cur, rem, acc, accBits, step, vcnt, bcnt, ⟨queue, atEnd⟩, output, sink⟩ := m
  by_cases h : rem = 0
  · cases queue <;> cases atEnd <;> simp [pullValue, h, InPort.pull]
  · exact .inl ⟨h, if_neg h⟩

/-- UNPACK's pull (42_unpack R183). -/
theorem pullByte_cases (m : Engine) :
    (m.rem ≠ 0 ∧ pullByte m = .going m) ∨
    (m.rem = 0 ∧ ∃ x xs, m.input.queue = x :: xs ∧ pullByte m =
      .going { m with cur := x, bcnt := m.bcnt + 1, rem := 8, input := ⟨xs, m.input.atEnd⟩ }) ∨
    (m.rem = 0 ∧ m.input = ⟨[], .eos⟩ ∧ pullByte m = .raised .badData m) ∨
    (m.rem = 0 ∧ m.input = ⟨[], .never⟩ ∧ pullByte m = .stuck) := by
  obtain ⟨cur, rem, acc, accBits, step, vcnt, bcnt, ⟨queue, atEnd⟩, output, sink⟩ := m
  by_cases h : rem = 0
  · cases queue <;> cases atEnd <;> simp [pullByte, h, InPort.pull]
  · exact .inl ⟨h, if_neg h⟩

/-- A push: accepted, refused, or never answered (41_pack R165). -/
theorem pushByte_cases (m : Engine) :
    ((nextAnswer m.sink).1 = .ok ∧ pushByte m = .going
      { m with output := m.output ++ [m.acc], sink := m.sink.drop 1, bcnt := m.bcnt + 1, acc := 0, accBits := 0 }) ∨
    ((nextAnswer m.sink).1 = .fail ∧ pushByte m = .raised .badOutput { m with sink := m.sink.drop 1 }) ∨
    ((nextAnswer m.sink).1 = .never ∧ pushByte m = .stuck) := by
  unfold pushByte
  rw [← nextAnswer_tail]
  rcases h : nextAnswer m.sink with ⟨_ | _ | _, rest⟩ <;> simp

/-! ## The induction over a whole command, packaged once -/

theorem packLoop_all {P : Engine → Prop} {o : BitOrder} {w : Width} (n : Nat)
    (hstep : ∀ m, P m → (packStep o w m).All P) (fuel : Nat) (m : Engine) (hm : P m) :
    (packLoop o w n fuel m).All P := by
  induction fuel generalizing m with
  | zero => exact hm
  | succ fuel ih =>
    unfold packLoop
    split
    · exact hm
    · exact all_andThen (hstep m hm) ih fun _ h => h

/-- A property of the engine that every table step of PACK and every push keep holds wherever a PACK ends. -/
theorem packRun_all {P : Engine → Prop} {o : BitOrder} {w : Width} (n : Nat)
    (hstep : ∀ m, P m → (packStep o w m).All P) (hpush : ∀ m, P m → (pushByte m).All P) (m : Engine) (hm : P m) :
    (packRun o w n m).All P := by
  refine all_andThen (packLoop_all n hstep _ m hm) (fun m h => ?_) fun _ h => h
  unfold flushByte
  split
  · exact h
  · exact hpush m h

theorem unpackLoop_all {P : Engine → Prop} {o : BitOrder} {w : Width} (n : Nat)
    (hstep : ∀ m, P m → (unpackStep o w m).All P) (fuel : Nat) (m : Engine) (hm : P m) :
    (unpackLoop o w n fuel m).All P := by
  induction fuel generalizing m with
  | zero => exact hm
  | succ fuel ih =>
    unfold unpackLoop
    split
    · exact all_andThen (hstep m hm) ih fun _ h => h
    · exact hm

/-- A property of the engine that every table step of UNPACK and the probe's pull keep holds wherever an UNPACK ends. -/
theorem unpackRun_all {P : Engine → Prop} {o : BitOrder} {w : Width} (n : Nat) (e : Bool)
    (hstep : ∀ m, P m → (unpackStep o w m).All P)
    (hprobe : ∀ m, P m → P { m with input := ⟨m.input.queue.drop 1, m.input.atEnd⟩ }) (m : Engine) (hm : P m) :
    (unpackRun o w n e m).All P := by
  refine all_andThen (unpackLoop_all n hstep _ m hm) (fun m h => ?_) fun _ h => h
  unfold probeEnd
  cases e with
  | false => exact h
  | true =>
    rcases hp : m.input.pull with ⟨x, port⟩ | _ | _
    · obtain ⟨hq, ha⟩ := pull_elem hp
      have : port = ⟨m.input.queue.drop 1, m.input.atEnd⟩ := by
        obtain ⟨q, a⟩ := port; simp_all
      simpa [this, hp, Run.All] using hprobe m h
    · simpa [hp, Run.All] using h
    · simp [Run.All]

/-! ## The entry checks -/

theorem dimsUnset_false {s : State} (hh : s.height ≠ 0) (hw : s.width ≠ 0) : dimsUnset s = false := by
  have h1 : (s.height == 0) = false := beq_eq_false_iff_ne.2 hh
  have h2 : (s.width == 0) = false := beq_eq_false_iff_ne.2 hw
  rw [dimsUnset, h1, h2, Bool.or_false]

/-- A PACK with no error latched and both dimensions set runs the encode machine (41_pack R161, R169). -/
theorem packCommand_runs {w : Width} {s : State} (he : s.err = 0) (hh : s.height ≠ 0) (hw : s.width ≠ 0) :
    packCommand w s = finishRun storePack s
      (packRun s.params.bitOrder w (s.height.toNat * s.width.toNat) (Engine.start s s.vin s.bout)) := by
  rw [packCommand, unlessLatched_clear _ he, dimsUnset_false hh hw]
  rfl

/-- An UNPACK with no error latched and both dimensions set runs the decode machine (42_unpack R181, R189). -/
theorem unpackCommand_runs {w : Width} {e : Bool} {s : State} (he : s.err = 0) (hh : s.height ≠ 0)
    (hw : s.width ≠ 0) :
    unpackCommand w e s = finishRun storeUnpack s
      (unpackRun s.params.bitOrder w (s.height.toNat * s.width.toNat) e (Engine.start s s.bin s.vout)) := by
  rw [unpackCommand, unlessLatched_clear _ he, dimsUnset_false hh hw]
  rfl

/-- How a PACK that goes on can have ended: refused by the latch, without dimensions, completed, or with an error. -/
theorem packCommand_next {w : Width} {s t : State} (h : packCommand w s = .next t) :
    (s.err ≠ 0 ∧ t = refuse s) ∨
    (s.err = 0 ∧ (s.height = 0 ∨ s.width = 0) ∧ t = raise .badDimensions s) ∨
    (s.err = 0 ∧ s.height ≠ 0 ∧ s.width ≠ 0 ∧ ∃ m,
      (packRun s.params.bitOrder w (s.height.toNat * s.width.toNat) (Engine.start s s.vin s.bout) = .going m ∧
        t = respond 0 (m.bcnt.setWidth 64) (storePack m s)) ∨
      ∃ k, packRun s.params.bitOrder w (s.height.toNat * s.width.toNat) (Engine.start s s.vin s.bout) = .raised k m ∧
        t = raise k (storePack m s)) := by
  rcases unlessLatched_next h with h' | ⟨he, h'⟩
  · exact .inl h'
  by_cases hd : s.height = 0 ∨ s.width = 0
  · have : dimsUnset s = true := by simpa [dimsUnset] using hd
    rw [if_pos this] at h'
    exact .inr (.inl ⟨he, hd, by cases h'; rfl⟩)
  · have ⟨hh, hw⟩ := not_or.1 hd
    rw [packCommand_runs he hh hw] at h
    refine .inr (.inr ⟨he, hh, hw, ?_⟩)
    rcases hr : packRun s.params.bitOrder w (s.height.toNat * s.width.toNat) (Engine.start s s.vin s.bout) with m | ⟨k, m⟩ | _
    · rw [hr] at h; exact ⟨m, .inl ⟨rfl, by cases h; rfl⟩⟩
    · rw [hr] at h; exact ⟨m, .inr ⟨k, rfl, by cases h; rfl⟩⟩
    · rw [hr] at h; cases h

/-- How an UNPACK that goes on can have ended. -/
theorem unpackCommand_next {w : Width} {e : Bool} {s t : State} (h : unpackCommand w e s = .next t) :
    (s.err ≠ 0 ∧ t = refuse s) ∨
    (s.err = 0 ∧ (s.height = 0 ∨ s.width = 0) ∧ t = raise .badDimensions s) ∨
    (s.err = 0 ∧ s.height ≠ 0 ∧ s.width ≠ 0 ∧ ∃ m,
      (unpackRun s.params.bitOrder w (s.height.toNat * s.width.toNat) e (Engine.start s s.bin s.vout) = .going m ∧
        t = respond 0 (m.bcnt.setWidth 64) (storeUnpack m s)) ∨
      ∃ k, unpackRun s.params.bitOrder w (s.height.toNat * s.width.toNat) e (Engine.start s s.bin s.vout) = .raised k m ∧
        t = raise k (storeUnpack m s)) := by
  rcases unlessLatched_next h with h' | ⟨he, h'⟩
  · exact .inl h'
  by_cases hd : s.height = 0 ∨ s.width = 0
  · have : dimsUnset s = true := by simpa [dimsUnset] using hd
    rw [if_pos this] at h'
    exact .inr (.inl ⟨he, hd, by cases h'; rfl⟩)
  · have ⟨hh, hw⟩ := not_or.1 hd
    rw [unpackCommand_runs he hh hw] at h
    refine .inr (.inr ⟨he, hh, hw, ?_⟩)
    rcases hr : unpackRun s.params.bitOrder w (s.height.toNat * s.width.toNat) e (Engine.start s s.bin s.vout) with m | ⟨k, m⟩ | _
    · rw [hr] at h; exact ⟨m, .inl ⟨rfl, by cases h; rfl⟩⟩
    · rw [hr] at h; exact ⟨m, .inr ⟨k, rfl, by cases h; rfl⟩⟩
    · rw [hr] at h; cases h

end Sys2Proof.Machine
end

