-- ==== Sys2Proof/Laws/Encoding.lean ====
section
/-! SUPPORT. The bits and the number of an encoded word, one lemma per format (30_encoding R101 to R105). -/

namespace Sys2Proof.Laws

open Sys2Proof

theorem encodeZ_bit (op : BitVec 8) (k : Nat) :
    (encodeZ op).getLsbD k = (decide (24 ≤ k) && op.getLsbD (k - 24)) := by
  refine (BitVec.getLsbD_append (x := op) (y := 0#24)).trans ?_
  by_cases h : k < 24 <;> simp [h]
  omega

theorem encodeI_bit (op : BitVec 8) (imm : BitVec 24) (k : Nat) :
    (encodeI op imm).getLsbD k = if k < 24 then imm.getLsbD k else op.getLsbD (k - 24) := by
  refine (BitVec.getLsbD_append (x := op) (y := imm)).trans ?_
  by_cases h : k < 24 <;> simp [h]

theorem encodeR_bit (op r : BitVec 8) (k : Nat) :
    (encodeR op r).getLsbD k = if k < 8 then r.getLsbD k else decide (24 ≤ k) && op.getLsbD (k - 24) := by
  refine (BitVec.getLsbD_append (x := op ++ 0#16) (y := r)).trans ?_
  rw [BitVec.getLsbD_append]
  by_cases h : k < 8
  · simp [h]
  · by_cases h' : k < 24
    · have : k - 8 < 16 := by omega
      simp [h, this]; omega
    · have h1 : ¬ k - 8 < 16 := by omega
      have h2 : 24 ≤ k := by omega
      have h3 : k - 8 - 16 = k - 24 := by omega
      simp [h, h1, h2, h3]

theorem encodeT_bit (op th tw : BitVec 8) (k : Nat) :
    (encodeT op th tw).getLsbD k =
      if k < 8 then tw.getLsbD k else if k < 16 then th.getLsbD (k - 8) else
        decide (24 ≤ k) && op.getLsbD (k - 24) := by
  refine (BitVec.getLsbD_append (x := op ++ 0#8 ++ th) (y := tw)).trans ?_
  rw [BitVec.getLsbD_append, BitVec.getLsbD_append]
  by_cases h : k < 8
  · simp [h]
  · by_cases h' : k < 16
    · have : k - 8 < 8 := by omega
      simp [h, h', this]
    · have h1 : ¬ k - 8 < 8 := by omega
      by_cases h2 : 24 ≤ k
      · have h3 : ¬ k - 8 - 8 < 8 := by omega
        have h4 : k - 8 - 8 - 8 = k - 24 := by omega
        simp [h, h', h1, h2, h3, h4]
      · have h3 : k - 8 - 8 < 8 := by omega
        simp [h, h', h1, h2, h3]

theorem encodeU_bit (op : BitVec 8) (e : Bool) (k : Nat) :
    (encodeU op e).getLsbD k = if k = 0 then e else decide (24 ≤ k) && op.getLsbD (k - 24) := by
  refine (BitVec.getLsbD_append (x := op ++ 0#23) (y := BitVec.ofBool e)).trans ?_
  rw [BitVec.getLsbD_append]
  by_cases h : k = 0
  · subst h; simp
  · have h0 : ¬ k < 1 := by omega
    by_cases h' : 24 ≤ k
    · have h1 : ¬ k - 1 < 23 := by omega
      have h3 : k - 1 - 23 = k - 24 := by omega
      simp [h, h', h1, h3]
    · have h1 : k - 1 < 23 := by omega
      simp [h, h', h1]

end Sys2Proof.Laws
end

