-- ==== Sys2Proof/Laws/PerInstr.lean ====
section
/-! SUPPORT. Facts about every instruction as syntax, one lemma per constructor: the word of each command, at every value
of its operands, selects its own row of the opcode table (30_encoding R106, R118). -/

namespace Sys2Proof.Laws.Row

open Sys2Proof

/-- The command's word, under its row's mask, is its row's match. -/
def Statement (i : Instr) : Prop :=
  encode i &&& (opcodeRows.getD i.rowIndex (0, 0)).2 = (opcodeRows.getD i.rowIndex (0, 0)).1

/-- The bits under a mask of a command word, one by one. -/
theorem of_bits {i : Instr}
    (h : ∀ k < 32, ((encode i).getLsbD k && (opcodeRows.getD i.rowIndex (0, 0)).2.getLsbD k) =
      (opcodeRows.getD i.rowIndex (0, 0)).1.getLsbD k) : Statement i :=
  BitVec.eq_of_getLsbD_eq fun k hk => by simpa using h k hk

theorem nop : Statement .nop := rfl
theorem seth (imm : BitVec 24) : Statement (.seth imm) := of_bits fun k hk => by
  rw [show encode (.seth imm) = encodeI 1 imm from rfl, encodeI_bit]
  interval_cases k <;> simp [opcodeRows, Instr.rowIndex]
theorem setw (imm : BitVec 24) : Statement (.setw imm) := of_bits fun k hk => by
  rw [show encode (.setw imm) = encodeI 2 imm from rfl, encodeI_bit]
  interval_cases k <;> simp [opcodeRows, Instr.rowIndex]
theorem getreg (r : BitVec 8) : Statement (.getreg r) := of_bits fun k hk => by
  rw [show encode (.getreg r) = encodeR 3 r from rfl, encodeR_bit]
  interval_cases k <;> simp [opcodeRows, Instr.rowIndex]
theorem clrerr : Statement .clrerr := rfl
theorem sreset : Statement .sreset := rfl
theorem pack5 : Statement .pack5 := rfl
theorem pack7 : Statement .pack7 := rfl
theorem unpack5 (e : Bool) : Statement (.unpack5 e) := by cases e <;> rfl
theorem unpack7 (e : Bool) : Statement (.unpack7 e) := by cases e <;> rfl
theorem lda (th tw : Byte) : Statement (.lda th tw) := of_bits fun k hk => by
  rw [show encode (.lda th tw) = encodeT 0x20 th tw from rfl, encodeT_bit]
  interval_cases k <;> simp [opcodeRows, Instr.rowIndex]
theorem ldb (th tw : Byte) : Statement (.ldb th tw) := of_bits fun k hk => by
  rw [show encode (.ldb th tw) = encodeT 0x21 th tw from rfl, encodeT_bit]
  interval_cases k <;> simp [opcodeRows, Instr.rowIndex]
theorem tsum : Statement .tsum := rfl
theorem tavg : Statement .tavg := rfl
theorem tdiff : Statement .tdiff := rfl
theorem tdsum : Statement .tdsum := rfl

end Sys2Proof.Laws.Row
end

