-- ==== Sys2Proof/Laws/Tables.lean ====
section
/-! SUPPORT. The mask tables as maps of stream positions: each entry moves the bits of one segment from their places in
a source unit to their places in an output unit (40_bit_primitives R134 to R136). -/

namespace Sys2Proof.Machine

open Sys2Proof

/-- One direction of the codec: its table, the sizes of a source unit and an output unit, which bit of each stands at a
stream position, and which counter counts the source units taken and the output units done. -/
structure Direction where
  table : List Entry
  source : Nat
  unit : Nat
  sourceBit : Byte → Nat → Bool
  unitBit : Byte → Nat → Bool
  taken : Engine → BitVec 37
  done : Engine → BitVec 37

/-- PACK: from values to bytes. -/
def packing (o : BitOrder) (w : Width) : Direction :=
  ⟨writeTable o w, w.bits, 8, valueBit o w.bits, byteBit o, Engine.vcnt, Engine.bcnt⟩

/-- UNPACK: from bytes to values. -/
def unpacking (o : BitOrder) (w : Width) : Direction :=
  ⟨readTable o w, 8, w.bits, byteBit o, valueBit o w.bits, Engine.bcnt, Engine.vcnt⟩

/-- What a step needs of entry `k` of a direction's table: it moves at least one bit, stays inside the source unit and
the output unit of its start position, and the next entry starts where it ends. -/
def Direction.EntryFits (d : Direction) (k : Nat) : Prop :=
  1 ≤ (entryAt d.table k).n ∧
  startOf d.table k % d.source + (entryAt d.table k).n ≤ d.source ∧
  startOf d.table k % d.unit + (entryAt d.table k).n ≤ d.unit ∧
  (startOf d.table k + (entryAt d.table k).n) % (d.source * d.unit) =
    startOf d.table ((k + 1) % d.table.length)

theorem packing_fits (o : BitOrder) (w : Width) : ∀ k < w.cycle, (packing o w).EntryFits k := by
  unfold Direction.EntryFits
  cases o <;> cases w <;> decide

theorem unpacking_fits (o : BitOrder) (w : Width) : ∀ k < w.cycle, (unpacking o w).EntryFits k := by
  unfold Direction.EntryFits
  cases o <;> cases w <;> decide

theorem packing_table_length (o : BitOrder) (w : Width) : (packing o w).table.length = w.cycle := by
  cases o <;> cases w <;> rfl

theorem unpacking_table_length (o : BitOrder) (w : Width) : (unpacking o w).table.length = w.cycle := by
  cases o <;> cases w <;> rfl

/-! ## Bits through `dshift` -/

/-- Bit `i` of a directional shift is bit `i + s` of its operand (40_bit_primitives R130). -/
theorem dshift_getLsbD (b : Byte) (s : Int) {i : Nat} (hi : i < 8) :
    (dshift b s).getLsbD i = (decide (0 ≤ (i : Int) + s) && b.getLsbD ((i : Int) + s).toNat) := by
  unfold dshift
  split
  · rw [BitVec.getLsbD_shiftLeft]
    by_cases h : 0 ≤ (i : Int) + s
    · have h1 : ¬ i < (-s).toNat := by omega
      have h2 : i - (-s).toNat = ((i : Int) + s).toNat := by omega
      simp [hi, h, h1, h2]
    · have h1 : i < (-s).toNat := by omega
      simp [hi, h, h1]
  · rw [BitVec.getLsbD_ushiftRight]
    have h : 0 ≤ (i : Int) + s := by omega
    have h2 : s.toNat + i = ((i : Int) + s).toNat := by omega
    simp [h, h2]

/-- A move's contribution, bit by bit, from the entry's mask and shift. -/
theorem moved_getLsbD (x mask : Byte) (s : Int) {i : Nat} (hi : i < 8) :
    (dshift (x &&& mask) s).getLsbD i =
      (decide (0 ≤ (i : Int) + s) && x.getLsbD ((i : Int) + s).toNat && mask.getLsbD ((i : Int) + s).toNat) := by
  rw [dshift_getLsbD _ _ hi, BitVec.getLsbD_and, Bool.and_assoc]

/-- An entry's contribution under MSB_FIRST: `n` bits from position `ov` of a source unit of `S` bits to position `ob`
of an output unit of `U` bits (40_bit_primitives R136). -/
theorem moved_msb {x mask : Byte} {s : Int} {S U n ov ob q : Nat} (hS : S ≤ 8) (hU : U ≤ 8) (hs : ov + n ≤ S)
    (hu : ob + n ≤ U) (hq : q < U) (hmask : ∀ j, mask.getLsbD j = decide (S - ov - n ≤ j ∧ j < S - ov - n + n))
    (hsh : s = (S : Int) - ov - (U - ob)) :
    (dshift (x &&& mask) s).getLsbD (U - 1 - q) =
      (decide (ob ≤ q ∧ q < ob + n) && x.getLsbD (S - 1 - (ov + (q - ob)))) := by
  subst hsh
  rw [moved_getLsbD _ _ _ (by omega), hmask]
  by_cases hin : ob ≤ q ∧ q < ob + n
  · have h1 : (0 : Int) ≤ ((U - 1 - q : Nat) : Int) + ((S : Int) - ov - (U - ob)) := by omega
    have h2 : (((U - 1 - q : Nat) : Int) + ((S : Int) - ov - (U - ob))).toNat = S - 1 - (ov + (q - ob)) := by omega
    have h3 : S - ov - n ≤ S - 1 - (ov + (q - ob)) ∧ S - 1 - (ov + (q - ob)) < S - ov - n + n := by omega
    rw [h2, decide_eq_true h1, decide_eq_true h3, decide_eq_true hin, Bool.true_and, Bool.and_true]
  · rw [decide_eq_false hin, Bool.false_and, Bool.and_eq_false_iff, Bool.and_eq_false_iff]
    by_cases h1 : (0 : Int) ≤ ((U - 1 - q : Nat) : Int) + ((S : Int) - ov - (U - ob))
    · right
      rw [decide_eq_false_iff_not]
      omega
    · exact .inl (.inl (decide_eq_false h1))

/-- An entry's contribution under LSB_FIRST (40_bit_primitives R148). -/
theorem moved_lsb {x mask : Byte} {s : Int} {U n ov ob q : Nat} (hU : U ≤ 8) (hq : q < U)
    (hmask : ∀ j, mask.getLsbD j = decide (ov ≤ j ∧ j < ov + n)) (hsh : s = (ov : Int) - ob) :
    (dshift (x &&& mask) s).getLsbD q = (decide (ob ≤ q ∧ q < ob + n) && x.getLsbD (ov + (q - ob))) := by
  subst hsh
  rw [moved_getLsbD _ _ _ (by omega), hmask]
  by_cases hin : ob ≤ q ∧ q < ob + n
  · have h1 : (0 : Int) ≤ (q : Int) + ((ov : Int) - ob) := by omega
    have h2 : ((q : Int) + ((ov : Int) - ob)).toNat = ov + (q - ob) := by omega
    have h3 : ov ≤ ov + (q - ob) ∧ ov + (q - ob) < ov + n := by omega
    rw [h2, decide_eq_true h1, decide_eq_true h3, decide_eq_true hin, Bool.true_and, Bool.and_true]
  · rw [decide_eq_false hin, Bool.false_and, Bool.and_eq_false_iff, Bool.and_eq_false_iff]
    by_cases h1 : (0 : Int) ≤ (q : Int) + ((ov : Int) - ob)
    · right
      rw [decide_eq_false_iff_not]
      omega
    · exact .inl (.inl (decide_eq_false h1))

/-- The mask of an entry has its 1 bits from bit `lo` on, `n` of them. -/
def maskAt (e : Entry) (lo : Nat) : Bool :=
  decide (lo + e.n ≤ 8) && (List.range 8).all fun j => e.mask.getLsbD j == decide (lo ≤ j ∧ j < lo + e.n)

theorem maskAt_bit {e : Entry} {lo : Nat} (h : maskAt e lo = true) (j : Nat) :
    e.mask.getLsbD j = decide (lo ≤ j ∧ j < lo + e.n) := by
  simp only [maskAt, Bool.and_eq_true, decide_eq_true_eq] at h
  by_cases hj : j < 8
  · simpa using (List.all_eq_true.1 h.2) j (by simpa using hj)
  · rw [BitVec.getLsbD_of_ge _ _ (by omega)]
    symm
    rw [decide_eq_false_iff_not]
    omega

/-- What entry `k` does with a source unit `x`: bit `q` of its contribution is the bit of `x` at the same stream
position inside the entry's segment, and 0 outside it; nothing lands outside the output unit. -/
structure Direction.EntryMoves (d : Direction) (k : Nat) : Prop where
  bits : ∀ (x : Byte) (q : Nat), q < d.unit →
    d.unitBit (dshift (x &&& (entryAt d.table k).mask) (entryAt d.table k).shift) q =
      (decide (startOf d.table k % d.unit ≤ q ∧ q < startOf d.table k % d.unit + (entryAt d.table k).n) &&
        d.sourceBit x (startOf d.table k % d.source + (q - startOf d.table k % d.unit)))

theorem packing_moves (o : BitOrder) (w : Width) (k : Nat) (hk : k < w.cycle) : (packing o w).EntryMoves k := by
  obtain ⟨-, hs, hu, -⟩ := packing_fits o w k hk
  have hw : w.bits ≤ 8 := by cases w <;> decide
  refine ⟨fun x q hq => ?_⟩
  cases o with
  | msbFirst =>
    have hm : ∀ k < w.cycle, maskAt (entryAt (writeTable .msbFirst w) k)
        (w.bits - startOf (writeTable .msbFirst w) k % w.bits - (entryAt (writeTable .msbFirst w) k).n) = true ∧
        (entryAt (writeTable .msbFirst w) k).shift = (w.bits : Int) - (startOf (writeTable .msbFirst w) k % w.bits : Nat) -
          ((8 : Nat) - (startOf (writeTable .msbFirst w) k % 8 : Nat)) := by
      cases w <;> decide
    exact moved_msb hw (Nat.le_refl 8) hs hu hq (maskAt_bit (hm k hk).1) (hm k hk).2
  | lsbFirst =>
    have hm : ∀ k < w.cycle, maskAt (entryAt (writeTable .lsbFirst w) k)
        (startOf (writeTable .lsbFirst w) k % w.bits) = true ∧
        (entryAt (writeTable .lsbFirst w) k).shift = ((startOf (writeTable .lsbFirst w) k % w.bits : Nat) : Int) -
          (startOf (writeTable .lsbFirst w) k % 8 : Nat) := by
      cases w <;> decide
    exact moved_lsb (Nat.le_refl 8) hq (maskAt_bit (hm k hk).1) (hm k hk).2

theorem unpacking_moves (o : BitOrder) (w : Width) (k : Nat) (hk : k < w.cycle) : (unpacking o w).EntryMoves k := by
  obtain ⟨-, hs, hu, -⟩ := unpacking_fits o w k hk
  have hw : w.bits ≤ 8 := by cases w <;> decide
  refine ⟨fun x q hq => ?_⟩
  cases o with
  | msbFirst =>
    have hm : ∀ k < w.cycle, maskAt (entryAt (readTable .msbFirst w) k)
        (8 - startOf (readTable .msbFirst w) k % 8 - (entryAt (readTable .msbFirst w) k).n) = true ∧
        (entryAt (readTable .msbFirst w) k).shift = ((8 : Nat) : Int) - (startOf (readTable .msbFirst w) k % 8 : Nat) -
          (w.bits - (startOf (readTable .msbFirst w) k % w.bits : Nat)) := by
      cases w <;> decide
    exact moved_msb (Nat.le_refl 8) hw hs hu hq (maskAt_bit (hm k hk).1) (hm k hk).2
  | lsbFirst =>
    have hm : ∀ k < w.cycle, maskAt (entryAt (readTable .lsbFirst w) k)
        (startOf (readTable .lsbFirst w) k % 8) = true ∧
        (entryAt (readTable .lsbFirst w) k).shift = ((startOf (readTable .lsbFirst w) k % 8 : Nat) : Int) -
          (startOf (readTable .lsbFirst w) k % w.bits : Nat) := by
      cases w <;> decide
    exact moved_lsb hw hq (maskAt_bit (hm k hk).1) (hm k hk).2

/-- A decoded value stays below `2^w` (40_bit_primitives R146): a read entry deposits inside the low `w` bits. -/
theorem unpacking_small (o : BitOrder) (w : Width) : ∀ k < w.cycle, ∀ x : Byte,
    (dshift (x &&& (entryAt (readTable o w) k).mask) (entryAt (readTable o w) k).shift).toNat < 2 ^ w.bits := by
  have small : ∀ (mask : Byte) (s : Int) (x : Byte), (∀ i < 8, w.bits ≤ i →
      (decide (0 ≤ (i : Int) + s) && mask.getLsbD ((i : Int) + s).toNat) = false) →
      (dshift (x &&& mask) s).toNat < 2 ^ w.bits := by
    intro mask s x h
    refine Nat.lt_pow_two_of_testBit _ fun i hi => ?_
    by_cases h8 : i < 8
    · have := h i h8 hi
      have hb := moved_getLsbD x mask s h8
      rw [Bool.and_right_comm, this, Bool.false_and] at hb
      exact hb
    · exact BitVec.getLsbD_of_ge _ _ (by omega)
  intro k hk x
  refine small _ _ x ?_
  revert k
  cases o <;> cases w <;> decide

end Sys2Proof.Machine
end

