-- ==== Sys2Proof/Laws/Position.lean ====
section
/-! SUPPORT. The codec machines by stream position (10_state R33): what the engine holds after `p` bits have been moved,
for both directions at once, and that each table step takes it from one segment boundary to the next. -/

namespace Sys2Proof.Machine

open Sys2Proof

/-- The bit of the source stream at position `q`. -/
def Direction.streamBit (d : Direction) (src : List Byte) (q : Nat) : Bool :=
  d.sourceBit (src.getD (q / d.source) 0) (q % d.source)

/-- `out` holds the first `count` output units of the stream. -/
def Direction.Holds (d : Direction) (src out : List Byte) (count : Nat) : Prop :=
  out.length = count ∧
  ∀ q < d.unit * count, d.unitBit (out.getD (q / d.unit) 0) (q % d.unit) = d.streamBit src q

/-- What the engine holds when `p` bits have been moved and the output unit in progress is number `u`: shared by all
moments of a table step. `m0` is the engine at the start of the command. -/
structure Direction.Moved (d : Direction) (m0 : Engine) (p u : Nat) (m : Engine) : Prop where
  taken : (d.taken m).toNat * d.source = m.rem.toNat + p
  done : (d.done m).toNat = u
  accBits : m.accBits.toNat + d.unit * u = p
  input : m.input = ⟨m0.input.queue.drop (d.taken m).toNat, m0.input.atEnd⟩
  output : ∃ out, m.output = m0.output ++ out ∧ d.Holds m0.input.queue out u
  acc : ∀ q < d.unit, d.unitBit m.acc q =
    (decide (q < m.accBits.toNat) && d.streamBit m0.input.queue (d.unit * u + q))

/-- The engine between two table steps, after `p` bits. -/
structure Direction.At (d : Direction) (m0 : Engine) (p : Nat) (m : Engine) : Prop
    extends d.Moved m0 p (p / d.unit) m where
  stepLt : m.step.toNat < d.table.length
  stepAt : startOf d.table m.step.toNat = p % (d.source * d.unit)
  remLt : m.rem.toNat < d.source
  cur : m.rem ≠ 0 → m.cur = m0.input.queue.getD (p / d.source) 0

/-- The engine inside a table step, with a source unit at hand. -/
structure Direction.Loaded (d : Direction) (m0 : Engine) (p : Nat) (m : Engine) : Prop
    extends d.Moved m0 p (p / d.unit) m where
  stepLt : m.step.toNat < d.table.length
  stepAt : startOf d.table m.step.toNat = p % (d.source * d.unit)
  remEq : m.rem.toNat = d.source - p % d.source
  cur : m.cur = m0.input.queue.getD (p / d.source) 0

/-- The general facts of a direction that the walk needs. -/
structure Direction.Sound (d : Direction) : Prop where
  fits : ∀ k < d.table.length, d.EntryFits k
  moves : ∀ k < d.table.length, d.EntryMoves k
  sourcePos : 0 < d.source
  unitPos : 0 < d.unit
  sourceLe : d.source ≤ 8
  unitLe : d.unit ≤ 8
  cycleLe : d.table.length ≤ 14
  unitBit_or : ∀ a b q, d.unitBit (a ||| b) q = (d.unitBit a q || d.unitBit b q)
  unitBit_zero : ∀ q, d.unitBit 0 q = false
  taken_step : ∀ m s r a b, d.taken { m with step := s, rem := r, acc := a, accBits := b } = d.taken m
  done_step : ∀ m s r a b, d.done { m with step := s, rem := r, acc := a, accBits := b } = d.done m

theorem byteBit_or (o : BitOrder) (a b : Byte) (q : Nat) : byteBit o (a ||| b) q = (byteBit o a q || byteBit o b q) := by
  cases o <;> simp [byteBit]

theorem valueBit_or (o : BitOrder) (w : Nat) (a b : Byte) (q : Nat) :
    valueBit o w (a ||| b) q = (valueBit o w a q || valueBit o w b q) := by
  cases o <;> simp [valueBit]

theorem packing_sound (o : BitOrder) (w : Width) : (packing o w).Sound where
  fits := by rw [packing_table_length]; exact packing_fits o w
  moves := by rw [packing_table_length]; exact packing_moves o w
  sourcePos := by cases o <;> cases w <;> decide
  unitPos := by simp [packing]
  sourceLe := by cases o <;> cases w <;> decide
  unitLe := by simp [packing]
  cycleLe := by rw [packing_table_length]; cases w <;> decide
  unitBit_or := byteBit_or o
  unitBit_zero := by cases o <;> simp [packing, byteBit]
  taken_step _ _ _ _ _ := rfl
  done_step _ _ _ _ _ := rfl

theorem unpacking_sound (o : BitOrder) (w : Width) : (unpacking o w).Sound where
  fits := by rw [unpacking_table_length]; exact unpacking_fits o w
  moves := by rw [unpacking_table_length]; exact unpacking_moves o w
  sourcePos := by simp [unpacking]
  unitPos := by cases o <;> cases w <;> decide
  sourceLe := by simp [unpacking]
  unitLe := by cases o <;> cases w <;> decide
  cycleLe := by rw [unpacking_table_length]; cases w <;> decide
  unitBit_or := valueBit_or o w.bits
  unitBit_zero := by cases o <;> simp [unpacking, valueBit]
  taken_step _ _ _ _ _ := rfl
  done_step _ _ _ _ _ := rfl

/-! ## Arithmetic of boundaries -/

theorem mod_start {s p a b : Nat} (h : s = p % (a * b)) : s % a = p % a ∧ s % b = p % b := by
  subst h
  exact ⟨Nat.mod_mod_of_dvd _ (Nat.dvd_mul_right a b), Nat.mod_mod_of_dvd _ (Nat.dvd_mul_left b a)⟩

/-- The entry that STEP selects moves bits that stay inside the source unit and the output unit at `p`. -/
theorem entry_room {d : Direction} (hd : d.Sound) {m : Engine} {p : Nat} (hlt : m.step.toNat < d.table.length)
    (hat : startOf d.table m.step.toNat = p % (d.source * d.unit)) :
    1 ≤ (entryAt d.table m.step.toNat).n ∧
    p % d.source + (entryAt d.table m.step.toNat).n ≤ d.source ∧
    p % d.unit + (entryAt d.table m.step.toNat).n ≤ d.unit := by
  obtain ⟨h1, h2, h3, -⟩ := hd.fits _ hlt
  obtain ⟨e1, e2⟩ := mod_start hat
  rw [e1] at h2
  rw [e2] at h3
  exact ⟨h1, h2, h3⟩

/-- A segment does not reach past a boundary of either kind. -/
theorem segment_le {d : Direction} {p n b : Nat} (hb : b % d.source = 0 ∨ b % d.unit = 0) (hp : p < b)
    (hs : p % d.source + n ≤ d.source) (hu : p % d.unit + n ≤ d.unit) : p + n ≤ b := by
  rcases hb with hb | hb
  · obtain ⟨k, rfl⟩ := Nat.dvd_of_mod_eq_zero hb
    have h1 := Nat.div_add_mod p d.source
    have h2 : p / d.source < k := Nat.div_lt_of_lt_mul hp
    have h3 : d.source * (p / d.source + 1) ≤ d.source * k := Nat.mul_le_mul_left _ h2
    rw [Nat.mul_add, Nat.mul_one] at h3
    omega
  · obtain ⟨k, rfl⟩ := Nat.dvd_of_mod_eq_zero hb
    have h1 := Nat.div_add_mod p d.unit
    have h2 : p / d.unit < k := Nat.div_lt_of_lt_mul hp
    have h3 : d.unit * (p / d.unit + 1) ≤ d.unit * k := Nat.mul_le_mul_left _ h2
    rw [Nat.mul_add, Nat.mul_one] at h3
    omega

theorem toNat_sub_ofNat {r : BitVec 4} {n : Nat} (h : n ≤ r.toNat) : (r - BitVec.ofNat 4 n).toNat = r.toNat - n := by
  have := r.isLt
  rw [BitVec.toNat_sub, BitVec.toNat_ofNat, Nat.mod_eq_of_lt (by omega : n < 2 ^ 4)]
  omega

theorem toNat_add_ofNat {r : BitVec 4} {n : Nat} (h : r.toNat + n < 16) : (r + BitVec.ofNat 4 n).toNat = r.toNat + n := by
  rw [BitVec.toNat_add, BitVec.toNat_ofNat, Nat.mod_eq_of_lt (by omega : n < 2 ^ 4), Nat.mod_eq_of_lt (by omega)]

/-! ## One table step -/

/-- The move of a table step (41_pack R164, 42_unpack R184): with a source unit at hand at position `p`, the entry's
`n` bits land where the stream has them. -/
theorem Direction.Loaded.move {d : Direction} (hd : d.Sound) {m0 m : Engine} {p : Nat} (h : d.Loaded m0 p m) :
    d.Moved m0 (p + (entryAt d.table m.step.toNat).n) (p / d.unit) (m.move (entryAt d.table m.step.toNat)) := by
  obtain ⟨hn, hs, hu⟩ := entry_room hd h.stepLt h.stepAt
  have hmv := (hd.moves _ h.stepLt).bits
  obtain ⟨e1, e2⟩ := mod_start h.stepAt
  have hrem := h.remEq
  have hacc := h.accBits
  have hsl := hd.sourceLe
  have hul := hd.unitLe
  have hdiv := Nat.div_add_mod p d.unit
  have hab : m.accBits.toNat = p % d.unit := by omega
  generalize he : entryAt d.table m.step.toNat = e at *
  have hr : (m.rem - BitVec.ofNat 4 e.n).toNat = m.rem.toNat - e.n := toNat_sub_ofNat (by omega)
  have ha : (m.accBits + BitVec.ofNat 4 e.n).toNat = m.accBits.toNat + e.n := toNat_add_ofNat (by omega)
  refine ⟨?_, ?_, ?_, ?_, h.output, ?_⟩
  · have := h.taken
    simp only [Engine.move, hr]
    rw [hd.taken_step]
    omega
  · simp only [Engine.move]
    rw [hd.done_step]
    exact h.done
  · simp only [Engine.move, ha]
    omega
  · simp only [Engine.move]
    rw [hd.taken_step]
    exact h.input
  · intro q hq
    simp only [Engine.move, ha, hab]
    rw [hd.unitBit_or, h.acc q hq, hmv m.cur q hq, e1, e2, hab, h.cur]
    by_cases h1 : q < p % d.unit
    · have h2 : ¬ (p % d.unit ≤ q ∧ q < p % d.unit + e.n) := by omega
      have h3 : q < p % d.unit + e.n := by omega
      rw [decide_eq_true h1, decide_eq_false h2, decide_eq_true h3, Bool.false_and, Bool.or_false]
    · by_cases h2 : q < p % d.unit + e.n
      · have h3 : p % d.unit ≤ q ∧ q < p % d.unit + e.n := by omega
        have hd1 := Nat.div_add_mod p d.source
        have hpos : d.unit * (p / d.unit) + q = p % d.source + (q - p % d.unit) + d.source * (p / d.source) := by omega
        have hlt : p % d.source + (q - p % d.unit) < d.source := by omega
        have hq1 : (d.unit * (p / d.unit) + q) / d.source = p / d.source := by
          rw [hpos, Nat.add_mul_div_left _ _ hd.sourcePos, Nat.div_eq_of_lt hlt, Nat.zero_add]
        have hq2 : (d.unit * (p / d.unit) + q) % d.source = p % d.source + (q - p % d.unit) := by
          rw [hpos, Nat.add_mul_mod_self_left, Nat.mod_eq_of_lt hlt]
        rw [decide_eq_false h1, decide_eq_true h3, decide_eq_true h2, Bool.false_and, Bool.false_or, Bool.true_and,
          Bool.true_and, Direction.streamBit, hq1, hq2]
      · have h3 : ¬ (p % d.unit ≤ q ∧ q < p % d.unit + e.n) := by omega
        rw [decide_eq_false h1, decide_eq_false h3, decide_eq_false h2]
        simp

/-- The end of a table step: once the output unit in progress is the one of position `p'`, advancing STEP makes the
engine ready for the next step. -/
theorem Direction.Loaded.advance {d : Direction} (hd : d.Sound) {m0 m m' : Engine} {p p' : Nat} {w : Width}
    (h : d.Loaded m0 p m) (hw : w.cycle = d.table.length) (hp' : p' = p + (entryAt d.table m.step.toNat).n)
    (hm : d.Moved m0 p' (p' / d.unit) m') (hstep : m'.step = m.step) (hcur : m'.cur = m.cur)
    (hrem : m'.rem = (m.move (entryAt d.table m.step.toNat)).rem) : d.At m0 p' (m'.advance w) := by
  obtain ⟨hn, hs, hu⟩ := entry_room hd h.stepLt h.stepAt
  obtain ⟨-, -, -, hnext⟩ := hd.fits _ h.stepLt
  have hr := h.remEq
  have hsl := hd.sourceLe
  have hcyc := hd.cycleLe
  have hsp := hd.sourcePos
  have hlt := h.stepLt
  have hremv : m'.rem.toNat = d.source - p % d.source - (entryAt d.table m.step.toNat).n := by
    rw [hrem, Engine.move, toNat_sub_ofNat (by omega), hr]
  have hst : (BitVec.ofNat 4 ((m'.step.toNat + 1) % w.cycle)).toNat = (m.step.toNat + 1) % d.table.length := by
    have : (m.step.toNat + 1) % d.table.length < d.table.length := Nat.mod_lt _ (by omega)
    rw [hstep, hw, BitVec.toNat_ofNat, Nat.mod_eq_of_lt (by omega)]
  refine ⟨⟨?_, ?_, hm.accBits, ?_, hm.output, hm.acc⟩, ?_, ?_, ?_, ?_⟩
  · simp only [Engine.advance]; rw [hd.taken_step m' _ m'.rem m'.acc m'.accBits]; exact hm.taken
  · simp only [Engine.advance]; rw [hd.done_step m' _ m'.rem m'.acc m'.accBits]; exact hm.done
  · simp only [Engine.advance]; rw [hd.taken_step m' _ m'.rem m'.acc m'.accBits]; exact hm.input
  · simp only [Engine.advance, hst]
    exact Nat.mod_lt _ (by omega)
  · simp only [Engine.advance, hst]
    rw [← hnext, h.stepAt, hp', Nat.mod_add_mod]
  · simp only [Engine.advance, hremv]
    omega
  · intro hne
    simp only [Engine.advance] at hne ⊢
    have hpos : 0 < m'.rem.toNat := by
      rcases Nat.eq_zero_or_pos m'.rem.toNat with h0 | h0
      · exact absurd (BitVec.eq_of_toNat_eq (by simpa using h0)) hne
      · exact h0
    have hd1 := Nat.div_add_mod p d.source
    have hq : p' / d.source = p / d.source := by
      rw [hp', show p + (entryAt d.table m.step.toNat).n = p % d.source + (entryAt d.table m.step.toNat).n +
        d.source * (p / d.source) by omega, Nat.add_mul_div_left _ _ hsp, Nat.div_eq_of_lt (by omega), Nat.zero_add]
    rw [hcur, h.cur, hq]

end Sys2Proof.Machine
end

