-- ==== Sys2Proof/Laws/Walk.lean ====
section
/-! SUPPORT. The codec machines as walks over stream positions: a table step from one segment boundary to the next, and
the loops from the start of a command to any boundary (41_pack R173, 42_unpack R193). -/

namespace Sys2Proof.Machine

open Sys2Proof

/-! ## Between two table steps -/

/-- REM is what is left of the source unit at `p` (10_state R33). -/
theorem Direction.At.rem_eq {d : Direction} {m0 m : Engine} {p : Nat} (h : d.At m0 p m) :
    (m.rem = 0 ∧ p % d.source = 0) ∨ (m.rem ≠ 0 ∧ 0 < p % d.source ∧ m.rem.toNat = d.source - p % d.source) := by
  have hs := h.remLt
  have hmod : (m.rem.toNat + p) % d.source = 0 := by rw [← h.taken]; exact Nat.mul_mod_left _ _
  have hp := Nat.mod_lt p (show 0 < d.source by omega)
  rw [Nat.add_mod, Nat.mod_eq_of_lt hs] at hmod
  by_cases h0 : m.rem = 0
  · left
    refine ⟨h0, ?_⟩
    rwa [show m.rem.toNat = 0 by rw [h0]; rfl, Nat.zero_add, Nat.mod_mod] at hmod
  · right
    have hr : 0 < m.rem.toNat := by
      rcases Nat.eq_zero_or_pos m.rem.toNat with hz | hz
      · exact absurd (BitVec.eq_of_toNat_eq hz) h0
      · exact hz
    by_cases hlt : m.rem.toNat + p % d.source < d.source
    · rw [Nat.mod_eq_of_lt hlt] at hmod; omega
    · rw [Nat.mod_eq_sub_mod (by omega), Nat.mod_eq_of_lt (by omega)] at hmod
      exact ⟨h0, by omega, by omega⟩

theorem Direction.At.taken_eq {d : Direction} {m0 m : Engine} {p : Nat} (h : d.At m0 p m) (h0 : m.rem = 0) :
    (d.taken m).toNat = p / d.source := by
  have ht := h.taken
  rw [show m.rem.toNat = 0 by rw [h0]; rfl, Nat.zero_add] at ht
  rw [← ht, Nat.mul_div_cancel _ (by have := h.remLt; omega)]

/-- No pull is due: the source unit at hand is the one at `p`. -/
theorem Direction.At.loaded_rem {d : Direction} {m0 m : Engine} {p : Nat} (h : d.At m0 p m) (hr : m.rem ≠ 0) :
    d.Loaded m0 p m := by
  rcases h.rem_eq with ⟨h0, -⟩ | ⟨-, -, he⟩
  · exact absurd h0 hr
  · exact ⟨h.toMoved, h.stepLt, h.stepAt, he, h.cur hr⟩

/-- A pull is due and takes the source unit at `p` (41_pack R163, 42_unpack R183). -/
theorem Direction.At.loaded_pull {d : Direction} {m0 m m' : Engine} {p : Nat} (h : d.At m0 p m)
    (hb : p < 2 ^ 36 * d.source) (hr : m.rem = 0) {x : Byte} {xs : List Byte} (hq : m.input.queue = x :: xs)
    (hcur : m'.cur = x) (hrem : m'.rem.toNat = d.source) (ht : d.taken m' = d.taken m + 1)
    (hdone : d.done m' = d.done m) (hacc : m'.acc = m.acc) (hab : m'.accBits = m.accBits) (hstep : m'.step = m.step)
    (hin : m'.input = ⟨xs, m.input.atEnd⟩) (hout : m'.output = m.output) : d.Loaded m0 p m' := by
  have htk := h.taken_eq hr
  have hz : p % d.source = 0 := by
    rcases h.rem_eq with ⟨-, hz⟩ | ⟨h0, -⟩
    · exact hz
    · exact absurd hr h0
  have hlt : p / d.source < 2 ^ 36 := Nat.div_lt_of_lt_mul (by rwa [Nat.mul_comm] at hb)
  have ht' : (d.taken m').toNat = (d.taken m).toNat + 1 := by
    rw [ht, BitVec.toNat_add, show (1 : BitVec 37).toNat = 1 from rfl, Nat.mod_eq_of_lt (by omega)]
  have hi := h.input
  rw [hi] at hq
  have hxs : xs = m0.input.queue.drop ((d.taken m).toNat + 1) := by
    rw [← List.drop_drop]
    exact (congrArg (List.drop 1) hq).symm
  have hx : x = m0.input.queue.getD (p / d.source) 0 := by
    rw [← htk]
    have := congrArg (fun l => l[0]?) hq
    simp only [List.getElem?_drop, Nat.add_zero, List.getElem?_cons_zero] at this
    rw [List.getD_eq_getElem?_getD, this, Option.getD_some]
  refine ⟨⟨?_, ?_, ?_, ?_, ?_, ?_⟩, ?_, ?_, ?_, ?_⟩
  · have h1 := Nat.div_add_mod p d.source
    rw [ht', hrem, htk, Nat.add_mul, Nat.one_mul, Nat.mul_comm]
    omega
  · rw [hdone]; exact h.done
  · rw [hab]; exact h.accBits
  · rw [hin, ht', hxs, hi]
  · rw [hout]; exact h.output
  · intro q hq; rw [hacc, hab]; exact h.acc q hq
  · rw [hstep]; exact h.stepLt
  · rw [hstep]; exact h.stepAt
  · rw [hrem, hz]; rfl
  · rw [hcur, hx]

/-! ## A complete output unit -/

/-- Handing over the complete output unit in progress (41_pack R165, 42_unpack R185). -/
theorem Direction.Moved.push {d : Direction} (hd : d.Sound) {m0 m m' : Engine} {p u : Nat} (h : d.Moved m0 p u m)
    (hb : u < 2 ^ 36) (hfull : m.accBits.toNat = d.unit) (ht : d.taken m' = d.taken m)
    (hdone : d.done m' = d.done m + 1) (hrem : m'.rem = m.rem) (hacc : m'.acc = 0) (hab : m'.accBits = 0)
    (hin : m'.input = m.input) (hout : m'.output = m.output ++ [m.acc]) : d.Moved m0 p (u + 1) m' := by
  have hup := hd.unitPos
  have hpos := h.accBits
  obtain ⟨out, ho, hl, hbits⟩ := h.output
  refine ⟨?_, ?_, ?_, ?_, ⟨out ++ [m.acc], ?_, ?_, ?_⟩, ?_⟩
  · rw [ht, hrem]; exact h.taken
  · rw [hdone, BitVec.toNat_add, h.done, show (1 : BitVec 37).toNat = 1 from rfl, Nat.mod_eq_of_lt (by omega)]
  · rw [hab, show (0 : BitVec 4).toNat = 0 from rfl, Nat.mul_add]; omega
  · rw [hin, ht]; exact h.input
  · rw [hout, ho, List.append_assoc]
  · rw [List.length_append, hl]; rfl
  · intro q hq
    by_cases hlt : q < d.unit * u
    · have h1 : q / d.unit < out.length := by rw [hl]; exact Nat.div_lt_of_lt_mul hlt
      rw [List.getD_append _ _ _ _ h1]
      exact hbits q hlt
    · rw [Nat.mul_add, Nat.mul_one] at hq
      have h1 : q = (q - d.unit * u) + d.unit * u := by omega
      have h2 : q / d.unit = u := by
        rw [h1, Nat.add_mul_div_left _ _ hup, Nat.div_eq_of_lt (by omega), Nat.zero_add]
      have h3 : q % d.unit = q - d.unit * u := by
        have := Nat.div_add_mod q d.unit
        rw [h2] at this
        omega
      have h4 := h.acc (q - d.unit * u) (by omega)
      rw [hfull, decide_eq_true (by omega : q - d.unit * u < d.unit), Bool.true_and, Nat.add_comm,
        ← h1] at h4
      rw [List.getD_append_right _ _ _ _ (by rw [hl, h2]), hl, h2, Nat.sub_self, h3]
      exact h4
  · intro q hq
    rw [hacc, hab, hd.unitBit_zero]
    simp

/-- The output unit in progress after a segment of `n` bits. -/
theorem unit_after {p n u : Nat} (hu : 0 < u) (hn : 1 ≤ n) (h : p % u + n ≤ u) :
    ((p + n) % u = 0 ∧ p % u + n = u ∧ (p + n) / u = p / u + 1) ∨
    ((p + n) % u ≠ 0 ∧ p % u + n < u ∧ (p + n) / u = p / u) := by
  have h1 := Nat.div_add_mod p u
  rcases Nat.lt_or_ge (p % u + n) u with hlt | hge
  · right
    have h2 : p + n = p % u + n + u * (p / u) := by omega
    refine ⟨?_, hlt, ?_⟩
    · rw [h2, Nat.add_mul_mod_self_left, Nat.mod_eq_of_lt hlt]; omega
    · rw [h2, Nat.add_mul_div_left _ _ hu, Nat.div_eq_of_lt hlt, Nat.zero_add]
  · left
    have h2 : p + n = u * (p / u + 1) := by rw [Nat.mul_add]; omega
    refine ⟨?_, by omega, ?_⟩
    · rw [h2, Nat.mul_mod_right]
    · rw [h2, Nat.mul_div_cancel_left _ hu]

/-! ## The table steps -/

theorem packing_start (o : BitOrder) (w : Width) (s : State) (input : InPort) (output : List Byte) :
    (packing o w).At (Engine.start s input output) 0 (Engine.start s input output) := by
  have hd := packing_sound o w
  have ht := packing_table_length o w
  refine ⟨⟨?_, ?_, ?_, rfl, ⟨[], ?_, ?_, ?_⟩, ?_⟩, ?_, ?_, hd.sourcePos, fun h => absurd rfl h⟩
  · simp [packing, Engine.start]
  · simp [packing, Engine.start]
  · simp [packing, Engine.start]
  · simp [Engine.start]
  · simp [packing]
  · simp [packing]
  · intro q _
    rw [show (Engine.start s input output).acc = 0 from rfl, hd.unitBit_zero]
    simp [Engine.start]
  · rw [ht]; cases w <;> exact Nat.zero_lt_succ _
  · simp [startOf, Engine.start]

theorem unpacking_start (o : BitOrder) (w : Width) (s : State) (input : InPort) (output : List Byte) :
    (unpacking o w).At (Engine.start s input output) 0 (Engine.start s input output) := by
  have hd := unpacking_sound o w
  have ht := unpacking_table_length o w
  refine ⟨⟨?_, ?_, ?_, rfl, ⟨[], ?_, ?_, ?_⟩, ?_⟩, ?_, ?_, hd.sourcePos, fun h => absurd rfl h⟩
  · simp [unpacking, Engine.start]
  · simp [unpacking, Engine.start]
  · simp [unpacking, Engine.start]
  · simp [Engine.start]
  · simp [unpacking]
  · simp [unpacking]
  · intro q _
    rw [show (Engine.start s input output).acc = 0 from rfl, hd.unitBit_zero]
    simp [Engine.start]
  · rw [ht]; cases w <;> exact Nat.zero_lt_succ _
  · simp [startOf, Engine.start]

/-- PACK's pull between two table steps, if it goes on: a value is at hand, taken or left over (41_pack R163). -/
theorem pullValue_at {o : BitOrder} {w : Width} {m0 m m' : Engine} {p : Nat} (h : (packing o w).At m0 p m)
    (hb : p < 2 ^ 36 * w.bits) (hgo : pullValue w m = .going m') :
    (packing o w).Loaded m0 p m' ∧ m'.step = m.step ∧ m'.sink = m.sink := by
  rcases pullValue_cases w m with ⟨hr, he⟩ | ⟨hr, x, xs, hq, he⟩ | ⟨-, -, he⟩ | ⟨-, -, he⟩ <;> rw [he] at hgo <;>
    cases hgo
  · exact ⟨h.loaded_rem hr, rfl, rfl⟩
  · refine ⟨h.loaded_pull hb hr hq rfl ?_ rfl rfl rfl rfl rfl rfl rfl, rfl, rfl⟩
    cases w <;> rfl

/-- PACK's pull goes on if the value of position `p` is there. -/
theorem pullValue_goes {o : BitOrder} {w : Width} {m0 m : Engine} {p : Nat} (h : (packing o w).At m0 p m)
    (hv : p / w.bits < m0.input.queue.length) : ∃ m', pullValue w m = .going m' := by
  rcases pullValue_cases w m with ⟨-, he⟩ | ⟨-, x, xs, -, he⟩ | ⟨hr, hi, -⟩ | ⟨hr, hi, -⟩
  · exact ⟨m, he⟩
  · exact ⟨_, he⟩
  all_goals
    have h1 := h.input
    rw [hi, h.taken_eq hr] at h1
    have h2 := List.drop_eq_nil_iff.1 (InPort.mk.inj h1).1.symm
    exact absurd hv (Nat.not_lt.2 h2)

/-- UNPACK's pull between two table steps, if it goes on (42_unpack R183). -/
theorem pullByte_at {o : BitOrder} {w : Width} {m0 m m' : Engine} {p : Nat} (h : (unpacking o w).At m0 p m)
    (hb : p < 2 ^ 36 * 8) (hgo : pullByte m = .going m') :
    (unpacking o w).Loaded m0 p m' ∧ m'.step = m.step ∧ m'.sink = m.sink := by
  rcases pullByte_cases m with ⟨hr, he⟩ | ⟨hr, x, xs, hq, he⟩ | ⟨-, -, he⟩ | ⟨-, -, he⟩ <;> rw [he] at hgo <;>
    cases hgo
  · exact ⟨h.loaded_rem hr, rfl, rfl⟩
  · exact ⟨h.loaded_pull hb hr hq rfl rfl rfl rfl rfl rfl rfl rfl rfl, rfl, rfl⟩

/-- UNPACK's pull goes on if the byte of position `p` is there. -/
theorem pullByte_goes {o : BitOrder} {w : Width} {m0 m : Engine} {p : Nat} (h : (unpacking o w).At m0 p m)
    (hv : p / 8 < m0.input.queue.length) : ∃ m', pullByte m = .going m' := by
  rcases pullByte_cases m with ⟨-, he⟩ | ⟨-, x, xs, -, he⟩ | ⟨hr, hi, -⟩ | ⟨hr, hi, -⟩
  · exact ⟨m, he⟩
  · exact ⟨_, he⟩
  all_goals
    have h1 := h.input
    rw [hi, h.taken_eq hr] at h1
    have h2 := List.drop_eq_nil_iff.1 (InPort.mk.inj h1).1.symm
    exact absurd hv (Nat.not_lt.2 h2)

/-- The number of bits the table step at `m` moves. -/
def Direction.bitsAt (d : Direction) (m : Engine) : Nat := (entryAt d.table m.step.toNat).n

/-- One table step of PACK whose pull goes on (41_pack R169): it moves on to the next boundary, pushing the byte
if that is complete; the sink may refuse it or not answer. -/
theorem packStep_at {o : BitOrder} {w : Width} {m0 m m1 : Engine} {p p' : Nat} (h : (packing o w).At m0 p m)
    (hb : p < 2 ^ 36 * w.bits) (he1 : pullValue w m = .going m1) (hp : p' = p + (packing o w).bitsAt m) :
    (∃ m', packStep o w m = .going m' ∧ (packing o w).At m0 p' m' ∧
      ((p' % 8 ≠ 0 ∧ m'.sink = m.sink) ∨ (p' % 8 = 0 ∧ (nextAnswer m.sink).1 = .ok ∧ m'.sink = m.sink.drop 1))) ∨
    (p' % 8 = 0 ∧ (nextAnswer m.sink).1 = .fail ∧ ∃ m', packStep o w m = .raised .badOutput m' ∧
      (packing o w).Moved m0 p' (p / 8) m' ∧ m'.rem.toNat < w.bits ∧ m'.sink = m.sink.drop 1) ∨
    (p' % 8 = 0 ∧ (nextAnswer m.sink).1 = .never ∧ packStep o w m = .stuck) := by
  have hd := packing_sound o w
  obtain ⟨hn, hsrc, hu⟩ := entry_room hd h.stepLt h.stepAt
  obtain ⟨hl, hst, hsk⟩ := pullValue_at h hb he1
  have hmv := hl.move hd
  have hlt36 : p / 8 < 2 ^ 36 := by
    have hw8 : w.bits ≤ 8 := by cases w <;> decide
    omega
  rw [hst] at hmv
  rw [packStep, he1, andThen_going, hst]
  rw [Direction.bitsAt] at hp
  have hab := hmv.accBits
  have hdiv := Nat.div_add_mod p 8
  change (packing o w).Moved m0 (p + (entryAt (writeTable o w) m.step.toNat).n) (p / 8)
    (m1.move (entryAt (writeTable o w) m.step.toNat)) at hmv
  change p' = p + (entryAt (writeTable o w) m.step.toNat).n at hp
  change p % 8 + (entryAt (writeTable o w) m.step.toNat).n ≤ 8 at hu
  change 1 ≤ (entryAt (writeTable o w) m.step.toNat).n at hn
  change (m1.move (entryAt (writeTable o w) m.step.toNat)).accBits.toNat + 8 * (p / 8) =
    p + (entryAt (writeTable o w) m.step.toNat).n at hab
  have hadv := fun (m' : Engine) => hl.advance hd (m' := m') (w := w) (packing_table_length o w).symm rfl
  rw [hst] at hadv
  change ∀ m', (packing o w).Moved m0 (p + (entryAt (writeTable o w) m.step.toNat).n)
    ((p + (entryAt (writeTable o w) m.step.toNat).n) / 8) m' → m'.step = m.step → m'.cur = m1.cur →
    m'.rem = (m1.move (entryAt (writeTable o w) m.step.toNat)).rem →
    (packing o w).At m0 (p + (entryAt (writeTable o w) m.step.toNat).n) (m'.advance w) at hadv
  have hms : (m1.move (entryAt (writeTable o w) m.step.toNat)).sink = m.sink := hsk
  have hmst : (m1.move (entryAt (writeTable o w) m.step.toNat)).step = m.step := hst
  have hmc : (m1.move (entryAt (writeTable o w) m.step.toNat)).cur = m1.cur := rfl
  have hrl : (m1.move (entryAt (writeTable o w) m.step.toNat)).rem.toNat < w.bits := by
    have h1 : m1.rem.toNat = w.bits - p % w.bits := hl.remEq
    change p % w.bits + (entryAt (writeTable o w) m.step.toNat).n ≤ w.bits at hsrc
    rw [Engine.move, toNat_sub_ofNat (by omega), h1]
    omega
  generalize (entryAt (writeTable o w) m.step.toNat).n = n at *
  generalize m1.move (entryAt (writeTable o w) m.step.toNat) = m2 at *
  subst hp
  rcases unit_after (by omega : 0 < 8) hn hu with ⟨h0, hfull, hdv⟩ | ⟨h0, hlt, hdv⟩
  · have h8 : m2.accBits.toNat = 8 := by omega
    have h8' : m2.accBits = 8 := BitVec.eq_of_toNat_eq h8
    rw [emitByte, if_pos h8']
    rcases pushByte_cases m2 with ⟨ha, he⟩ | ⟨ha, he⟩ | ⟨ha, he⟩
    · left
      rw [he, andThen_going]
      refine ⟨_, rfl, hadv _ ?_ hmst hmc rfl, .inr ⟨h0, hms ▸ ha, ?_⟩⟩
      · rw [hdv]
        exact hmv.push hd hlt36 h8 rfl rfl rfl rfl rfl rfl rfl
      · rw [← hms]; rfl
    · right; left
      rw [he, andThen_raised]
      exact ⟨h0, hms ▸ ha, { m2 with sink := m2.sink.drop 1 }, rfl,
        ⟨hmv.taken, hmv.done, hmv.accBits, hmv.input, hmv.output, hmv.acc⟩, hrl, by rw [← hms]⟩
    · right; right
      rw [he, andThen_stuck]
      exact ⟨h0, hms ▸ ha, rfl⟩
  · left
    have h8' : ¬ m2.accBits = 8 := by
      intro hc
      have : m2.accBits.toNat = 8 := by rw [hc]; rfl
      omega
    rw [emitByte, if_neg h8', andThen_going]
    refine ⟨_, rfl, hadv _ ?_ hmst hmc rfl, .inl ⟨h0, hms⟩⟩
    rw [hdv]
    exact hmv

/-- One table step of UNPACK whose pull goes on (42_unpack R189). -/
theorem unpackStep_at {o : BitOrder} {w : Width} {m0 m m1 : Engine} {p p' : Nat} (h : (unpacking o w).At m0 p m)
    (hb : p < 2 ^ 36 * w.bits) (he1 : pullByte m = .going m1) (hp : p' = p + (unpacking o w).bitsAt m) :
    ∃ m', unpackStep o w m = .going m' ∧ (unpacking o w).At m0 p' m' ∧ m'.sink = m.sink := by
  have hd := unpacking_sound o w
  have hw8 : w.bits ≤ 8 := by cases w <;> decide
  have hw0 : 0 < w.bits := hd.unitPos
  obtain ⟨hn, -, hu⟩ := entry_room hd h.stepLt h.stepAt
  obtain ⟨hl, hst, hsk⟩ := pullByte_at h (by omega) he1
  have hmv := hl.move hd
  rw [hst] at hmv
  rw [unpackStep, he1, andThen_going, hst]
  rw [Direction.bitsAt] at hp
  have hab := hmv.accBits
  change (unpacking o w).Moved m0 (p + (entryAt (readTable o w) m.step.toNat).n) (p / w.bits)
    (m1.move (entryAt (readTable o w) m.step.toNat)) at hmv
  change p' = p + (entryAt (readTable o w) m.step.toNat).n at hp
  change p % w.bits + (entryAt (readTable o w) m.step.toNat).n ≤ w.bits at hu
  change 1 ≤ (entryAt (readTable o w) m.step.toNat).n at hn
  change (m1.move (entryAt (readTable o w) m.step.toNat)).accBits.toNat + w.bits * (p / w.bits) =
    p + (entryAt (readTable o w) m.step.toNat).n at hab
  have hdiv := Nat.div_add_mod p w.bits
  have hadv := fun (m' : Engine) => hl.advance hd (m' := m') (w := w) (unpacking_table_length o w).symm rfl
  rw [hst] at hadv
  change ∀ m', (unpacking o w).Moved m0 (p + (entryAt (readTable o w) m.step.toNat).n)
    ((p + (entryAt (readTable o w) m.step.toNat).n) / w.bits) m' → m'.step = m.step → m'.cur = m1.cur →
    m'.rem = (m1.move (entryAt (readTable o w) m.step.toNat)).rem →
    (unpacking o w).At m0 (p + (entryAt (readTable o w) m.step.toNat).n) (m'.advance w) at hadv
  have hms : (m1.move (entryAt (readTable o w) m.step.toNat)).sink = m.sink := hsk
  have hmst : (m1.move (entryAt (readTable o w) m.step.toNat)).step = m.step := hst
  have hmc : (m1.move (entryAt (readTable o w) m.step.toNat)).cur = m1.cur := rfl
  generalize (entryAt (readTable o w) m.step.toNat).n = n at *
  generalize m1.move (entryAt (readTable o w) m.step.toNat) = m2 at *
  subst hp
  have hlt36 : p / w.bits < 2 ^ 36 := Nat.div_lt_of_lt_mul (by rwa [Nat.mul_comm] at hb)
  have hwn : (BitVec.ofNat 4 w.bits).toNat = w.bits := by cases w <;> rfl
  rcases unit_after hw0 hn hu with ⟨h0, hfull, hdv⟩ | ⟨h0, hlt, hdv⟩
  · have h8 : m2.accBits.toNat = w.bits := by omega
    have h8' : m2.accBits = BitVec.ofNat 4 w.bits := BitVec.eq_of_toNat_eq (by rw [h8, hwn])
    rw [storeValue, if_pos h8']
    have hpush := hmv.push hd hlt36 h8
      (m' := { m2 with output := m2.output ++ [m2.acc], vcnt := m2.vcnt + 1, acc := 0, accBits := 0 })
      rfl rfl rfl rfl rfl rfl rfl
    exact ⟨_, rfl, hadv _ (by rw [hdv]; exact hpush) hmst hmc rfl, hms⟩
  · have h8' : ¬ m2.accBits = BitVec.ofNat 4 w.bits := by
      intro hc
      have : m2.accBits.toNat = w.bits := by rw [hc, hwn]
      omega
    rw [storeValue, if_neg h8']
    refine ⟨_, rfl, hadv _ ?_ hmst hmc rfl, hms⟩
    rw [hdv]
    exact hmv

end Sys2Proof.Machine
end

