-- ==== Sys2Proof/Laws/Runs.lean ====
section
/-! SUPPORT. How a codec command ends, as far as its engine goes: complete, short of input, or stopped by the sink
(41_pack R172 to R174, 42_unpack R186, R193, R195). -/

namespace Sys2Proof.Machine

open Sys2Proof

/-! ## The loops -/

theorem div_lt_of_lt_mul' {p n w : Nat} (h : p < n * w) : p / w < n :=
  Nat.div_lt_of_lt_mul (by rwa [Nat.mul_comm])

theorem nextAnswer_at (sink : List SinkAnswer) (j : Nat) : (nextAnswer (sink.drop j)).1 = sink.getD j .ok := by
  rw [List.getD_eq_getElem?_getD, ← Nat.add_zero j, ← List.getElem?_drop, Nat.add_zero]
  cases sink.drop j <;> rfl

/-- Before its last bit PACK's loop goes on (41_pack R169). -/
theorem packLoop_goes {o : BitOrder} {w : Width} {m0 m : Engine} {p n fuel : Nat} (h : (packing o w).At m0 p m)
    (hp : p < n * w.bits) :
    packLoop o w n (fuel + 1) m = (packStep o w m).andThen (packLoop o w n fuel) := by
  rw [packLoop, if_neg]
  rintro ⟨h0, hn⟩
  have ht := h.taken
  rw [show (packing o w).taken m = m.vcnt from rfl, hn, show m.rem.toNat = 0 by rw [h0]; rfl, Nat.zero_add] at ht
  change n * w.bits = p at ht
  omega

/-- PACK walks from `p` to the table step that ends at the boundary `b`, if the values are there and the sink accepts
every byte complete before `b`. -/
theorem packLoop_before {o : BitOrder} {w : Width} {m0 : Engine} {n b : Nat} (hn : n ≤ 2 ^ 36) (hb : b ≤ n * w.bits)
    (hbd : b % w.bits = 0 ∨ b % 8 = 0) (hv : b ≤ m0.input.queue.length * w.bits)
    (hs : ∀ j, 8 * (j + 1) < b → m0.sink.getD j .ok = .ok) (fuel : Nat) (m : Engine) (p : Nat)
    (h : (packing o w).At m0 p m) (hsk : m.sink = m0.sink.drop (p / 8)) (hp : p < b) (hf : n * w.bits ≤ fuel + p) :
    ∃ m1 p1 fuel1, (packing o w).At m0 p1 m1 ∧ m1.sink = m0.sink.drop (p1 / 8) ∧ p1 < b ∧
      b = p1 + (packing o w).bitsAt m1 ∧ n * w.bits ≤ fuel1 + b ∧
      packLoop o w n fuel m = (packStep o w m1).andThen (packLoop o w n fuel1) := by
  induction fuel generalizing m p with
  | zero => omega
  | succ fuel ih =>
    have hd := packing_sound o w
    obtain ⟨hn1, hsrc, hu⟩ := entry_room hd h.stepLt h.stepAt
    have hle : p + (packing o w).bitsAt m ≤ b := segment_le hbd hp hsrc hu
    have hgo := packLoop_goes (n := n) (fuel := fuel) h (by omega)
    rcases Nat.lt_or_ge (p + (packing o w).bitsAt m) b with hlt | hge
    · have hmul : n * w.bits ≤ 2 ^ 36 * w.bits := Nat.mul_le_mul_right _ hn
      have hpq : p < m0.input.queue.length * w.bits := by omega
      obtain ⟨mp, hmp⟩ := pullValue_goes h (div_lt_of_lt_mul' hpq)
      have hstep := packStep_at h (by omega) hmp rfl
      have hans : (nextAnswer m.sink).1 = m0.sink.getD (p / 8) .ok := by rw [hsk, nextAnswer_at]
      have hua := unit_after (by omega : 0 < 8) hn1 hu
      change ((p + (packing o w).bitsAt m) % 8 = 0 ∧ p % 8 + (packing o w).bitsAt m = 8 ∧
        (p + (packing o w).bitsAt m) / 8 = p / 8 + 1) ∨ ((p + (packing o w).bitsAt m) % 8 ≠ 0 ∧
        p % 8 + (packing o w).bitsAt m < 8 ∧ (p + (packing o w).bitsAt m) / 8 = p / 8) at hua
      change 1 ≤ (packing o w).bitsAt m at hn1
      have hok : (p + (packing o w).bitsAt m) % 8 = 0 → m0.sink.getD (p / 8) .ok = .ok := fun h0 => hs _ (by omega)
      rcases hstep with ⟨m', he, hat, hsk'⟩ | ⟨h0, ha, -⟩ | ⟨h0, ha, -⟩
      · rw [he, andThen_going] at hgo
        rw [hgo]
        refine ih m' _ hat ?_ hlt (by omega)
        rcases hsk' with ⟨h0, hk⟩ | ⟨h0, -, hk⟩
        · rw [hk, hsk, show (p + (packing o w).bitsAt m) / 8 = p / 8 by omega]
        · rw [hk, hsk, List.drop_drop, show (p + (packing o w).bitsAt m) / 8 = p / 8 + 1 by omega]
      · rw [hans, hok h0] at ha; cases ha
      · rw [hans, hok h0] at ha; cases ha
    · exact ⟨m, p, fuel, h, hsk, hp, by omega, by omega, hgo⟩

/-- PACK walks from the start to the boundary `b`, if the values are there and the sink accepts every byte complete at
`b`. -/
theorem packLoop_reaches {o : BitOrder} {w : Width} {m0 : Engine} {n b : Nat} (hn : n ≤ 2 ^ 36) (hb : b ≤ n * w.bits)
    (hbd : b % w.bits = 0 ∨ b % 8 = 0) (hv : b ≤ m0.input.queue.length * w.bits)
    (hs : ∀ j, 8 * (j + 1) ≤ b → m0.sink.getD j .ok = .ok) (h : (packing o w).At m0 0 m0) :
    ∃ m1 fuel1, (packing o w).At m0 b m1 ∧ m1.sink = m0.sink.drop (b / 8) ∧ n * w.bits ≤ fuel1 + b ∧
      packLoop o w n (n * w.bits) m0 = packLoop o w n fuel1 m1 := by
  rcases Nat.eq_zero_or_pos b with rfl | hpos
  · exact ⟨m0, _, h, rfl, Nat.le_refl _, rfl⟩
  obtain ⟨m1, p1, fuel1, hat, hsk, hlt, hbe, hfu, hrun⟩ := packLoop_before hn hb hbd hv
    (fun j hj => hs j (Nat.le_of_lt hj)) (n * w.bits) m0 0 h rfl hpos (Nat.le_refl _)
  have hd := packing_sound o w
  obtain ⟨hn1, -, hu⟩ := entry_room hd hat.stepLt hat.stepAt
  have hua := unit_after (by omega : 0 < 8) hn1 hu
  change ((p1 + (packing o w).bitsAt m1) % 8 = 0 ∧ p1 % 8 + (packing o w).bitsAt m1 = 8 ∧
    (p1 + (packing o w).bitsAt m1) / 8 = p1 / 8 + 1) ∨ ((p1 + (packing o w).bitsAt m1) % 8 ≠ 0 ∧
    p1 % 8 + (packing o w).bitsAt m1 < 8 ∧ (p1 + (packing o w).bitsAt m1) / 8 = p1 / 8) at hua
  rw [← hbe] at hua
  have hmul : n * w.bits ≤ 2 ^ 36 * w.bits := Nat.mul_le_mul_right _ hn
  have hans : (nextAnswer m1.sink).1 = m0.sink.getD (p1 / 8) .ok := by rw [hsk, nextAnswer_at]
  have hok : b % 8 = 0 → m0.sink.getD (p1 / 8) .ok = .ok := fun h0 => hs _ (by omega)
  obtain ⟨mp, hmp⟩ := pullValue_goes hat (div_lt_of_lt_mul' (by omega))
  rcases packStep_at hat (by omega) hmp hbe with ⟨m', he, hat', hsk'⟩ | ⟨h0, ha, -⟩ | ⟨h0, ha, -⟩
  · rw [he, andThen_going] at hrun
    refine ⟨m', fuel1, hat', ?_, hfu, hrun⟩
    rcases hsk' with ⟨h0, hk⟩ | ⟨h0, -, hk⟩
    · rw [hk, hsk, show b / 8 = p1 / 8 by omega]
    · rw [hk, hsk, List.drop_drop, show b / 8 = p1 / 8 + 1 by omega]
  · rw [hans, hok h0] at ha; cases ha
  · rw [hans, hok h0] at ha; cases ha

/-- After `n` values PACK's loop ends (41_pack R169). -/
theorem packLoop_ends {o : BitOrder} {w : Width} {m0 m : Engine} {n : Nat} (h : (packing o w).At m0 (n * w.bits) m)
    (fuel : Nat) : packLoop o w n fuel m = .going m ∧ m.rem = 0 ∧ m.vcnt.toNat = n := by
  have hw : 0 < w.bits := (packing_sound o w).sourcePos
  have h0 : m.rem = 0 := by
    rcases h.rem_eq with ⟨h0, -⟩ | ⟨-, hpos, -⟩
    · exact h0
    · change 0 < n * w.bits % w.bits at hpos
      rw [Nat.mul_mod_left] at hpos
      exact absurd hpos (Nat.lt_irrefl _)
  have hv : m.vcnt.toNat = n := by
    have := h.taken_eq h0
    change m.vcnt.toNat = n * w.bits / w.bits at this
    rwa [Nat.mul_div_cancel _ hw] at this
  refine ⟨?_, h0, hv⟩
  cases fuel with
  | zero => rfl
  | succ fuel => rw [packLoop, if_pos ⟨h0, hv⟩]

/-! ## PACK -/

theorem ofNat_of_toNat {k : Nat} {x : BitVec 37} (h : x.toNat = k) : x = BitVec.ofNat 37 k := by
  rw [← h, BitVec.ofNat_toNat, BitVec.setWidth_eq]

/-- The bytes of a finished walk, the last one padded with zeros, are the section of the values (20_memory R70 to R74). -/
theorem section_of_walk {o : BitOrder} {w : Width} {n : Nat} {queue out : List Byte} {acc : Byte}
    (hn : n ≤ queue.length) (hout : (packing o w).Holds queue out (n * w.bits / 8))
    (hacc : ∀ q < 8, byteBit o acc q = (decide (q < n * w.bits % 8) &&
      (packing o w).streamBit queue (8 * (n * w.bits / 8) + q))) :
    IsSection o w.bits (queue.take n) (if n * w.bits % 8 = 0 then out else out ++ [acc]) := by
  obtain ⟨hl, hbits⟩ := hout
  have hlen : (queue.take n).length = n := by rw [List.length_take]; omega
  have hw : 0 < w.bits := (packing_sound o w).sourcePos
  have hval : ∀ q < n * w.bits, (packing o w).streamBit queue q =
      valueBit o w.bits ((queue.take n).getD (q / w.bits) 0) (q % w.bits) := by
    intro q hq
    have h1 := div_lt_of_lt_mul' hq
    change valueBit o w.bits (queue.getD (q / w.bits) 0) (q % w.bits) = _
    rw [List.getD_eq_getElem?_getD, List.getD_eq_getElem?_getD, List.getElem?_take_of_lt h1]
  change ∀ q < 8 * (n * w.bits / 8), byteBit o (out.getD (q / 8) 0) (q % 8) = _ at hbits
  unfold IsSection sectionLength
  rw [hlen]
  split
  · refine ⟨by omega, fun q hq => ?_⟩
    have hq' : q < n * w.bits := by omega
    rw [hbits q (by omega), hval q hq', decide_eq_true hq', Bool.true_and]
  · rw [List.length_append, hl]
    refine ⟨by simp only [List.length_cons, List.length_nil]; omega, fun q hq => ?_⟩
    simp only [List.length_cons, List.length_nil] at hq
    by_cases hlt : q < 8 * (n * w.bits / 8)
    · have hq' : q < n * w.bits := by omega
      rw [List.getD_append _ _ _ _ (by omega), hbits q hlt, hval q hq', decide_eq_true hq', Bool.true_and]
    · have h1 : q / 8 = n * w.bits / 8 := by omega
      rw [List.getD_append_right _ _ _ _ (by omega), hl, h1, Nat.sub_self]
      change byteBit o acc (q % 8) = _
      rw [hacc _ (by omega), show 8 * (n * w.bits / 8) + q % 8 = q by omega]
      by_cases hq' : q < n * w.bits
      · rw [hval q hq', decide_eq_true hq', decide_eq_true (by omega)]
      · rw [decide_eq_false hq', decide_eq_false (by omega), Bool.false_and, Bool.false_and]

/-- A PACK with its values there and a sink that accepts (41_pack R172). -/
theorem packRun_complete {o : BitOrder} {w : Width} {m0 : Engine} {n len : Nat} (hn : n ≤ 2 ^ 36)
    (h : (packing o w).At m0 0 m0) (hlen : len = (n * w.bits + 7) / 8) (hv : n ≤ m0.input.queue.length)
    (hs : ∀ j < len, m0.sink.getD j .ok = .ok) :
    ∃ m bytes, packRun o w n m0 = .going m ∧ m.output = m0.output ++ bytes ∧
      IsSection o w.bits (m0.input.queue.take n) bytes ∧ m.vcnt = BitVec.ofNat 37 n ∧ m.bcnt = BitVec.ofNat 37 len ∧
      m.input = ⟨m0.input.queue.drop n, m0.input.atEnd⟩ ∧ m.sink = m0.sink.drop len := by
  obtain ⟨m, fuel, hat, hsk, -, hrun⟩ := packLoop_reaches hn (Nat.le_refl _) (.inl (Nat.mul_mod_left _ _))
    (Nat.mul_le_mul_right _ hv) (fun j hj => hs j (by omega)) h
  obtain ⟨hend, -, hvc⟩ := packLoop_ends hat fuel
  rw [packRun, hrun, hend, andThen_going]
  obtain ⟨out, ho, hout⟩ := hat.output
  have hab := hat.accBits
  have hdone := hat.done
  have hin := hat.input
  have hacc := hat.acc
  change m.accBits.toNat + 8 * (n * w.bits / 8) = n * w.bits at hab
  change m.bcnt.toNat = n * w.bits / 8 at hdone
  change m.input = ⟨m0.input.queue.drop m.vcnt.toNat, m0.input.atEnd⟩ at hin
  rw [hvc] at hin
  have habm : m.accBits.toNat = n * w.bits % 8 := by omega
  rw [habm] at hacc
  have hsec := section_of_walk hv hout hacc
  have hvc' := ofNat_of_toNat hvc
  unfold flushByte
  by_cases h0 : m.accBits = 0
  · have hz : n * w.bits % 8 = 0 := by rw [← habm, h0]; rfl
    rw [if_pos h0]
    rw [if_pos hz] at hsec
    exact ⟨m, out, rfl, ho, hsec, hvc', ofNat_of_toNat (by omega), hin, by rw [hsk, hlen, show n * w.bits / 8 = (n * w.bits + 7) / 8 by omega]⟩
  · have hnz : n * w.bits % 8 ≠ 0 := by
      rw [← habm]
      exact fun hz => h0 (BitVec.eq_of_toNat_eq hz)
    rw [if_neg h0]
    rw [if_neg hnz] at hsec
    have hans : (nextAnswer m.sink).1 = .ok := by rw [hsk, nextAnswer_at]; exact hs _ (by omega)
    rcases pushByte_cases m with ⟨-, he⟩ | ⟨ha, -⟩ | ⟨ha, -⟩
    · have hw : n * w.bits ≤ 2 ^ 36 * 8 := Nat.mul_le_mul hn (by cases w <;> decide)
      refine ⟨_, out ++ [m.acc], he, ?_, hsec, hvc', ofNat_of_toNat ?_, hin, ?_⟩
      · simp only [ho, List.append_assoc]
      · rw [BitVec.toNat_add, hdone, show (1 : BitVec 37).toNat = 1 from rfl]
        omega
      · simp only [hsk, List.drop_drop]
        rw [show n * w.bits / 8 + 1 = len by omega]
    · rw [hans] at ha; cases ha
    · rw [hans] at ha; cases ha

/-- A PACK that finds no value waiting after `k < n` of them: BadData at `EOS` (41_pack R166, R174), no end on a silent
port (93_implementation_defined U6). -/
theorem packRun_starved {o : BitOrder} {w : Width} {m0 : Engine} {n k : Nat} (hn : n ≤ 2 ^ 36)
    (h : (packing o w).At m0 0 m0) (hk : k = m0.input.queue.length) (hkn : k < n)
    (hs : ∀ j < k * w.bits / 8, m0.sink.getD j .ok = .ok) :
    (m0.input.atEnd = .eos → ∃ m bytes, packRun o w n m0 = .raised .badData m ∧ m.output = m0.output ++ bytes ∧
      bytes.length = k * w.bits / 8 ∧ m.vcnt = BitVec.ofNat 37 k ∧ m.bcnt = BitVec.ofNat 37 (k * w.bits / 8) ∧
      m.input = ⟨[], .eos⟩ ∧ m.sink = m0.sink.drop (k * w.bits / 8)) ∧
    (m0.input.atEnd = .never → packRun o w n m0 = .stuck) := by
  have hw : 0 < w.bits := (packing_sound o w).sourcePos
  have hmul : (k + 1) * w.bits ≤ n * w.bits := Nat.mul_le_mul_right _ hkn
  rw [Nat.add_mul, Nat.one_mul] at hmul
  obtain ⟨m, fuel, hat, hsk, hf, hrun⟩ := packLoop_reaches hn (b := k * w.bits) (by omega) (.inl (Nat.mul_mod_left _ _))
    (by rw [hk]) (fun j hj => hs j (by omega)) h
  obtain ⟨-, h0, hvc⟩ := packLoop_ends hat 0
  have hin := hat.input
  change m.input = ⟨m0.input.queue.drop m.vcnt.toNat, m0.input.atEnd⟩ at hin
  rw [hvc, hk, List.drop_length] at hin
  obtain ⟨fuel, rfl⟩ : ∃ f, fuel = f + 1 := ⟨fuel - 1, by omega⟩
  rw [packRun, hrun, packLoop_goes hat (by omega), packStep]
  obtain ⟨out, ho, hl, -⟩ := hat.output
  rcases pullValue_cases w m with ⟨hr, -⟩ | ⟨-, x, xs, hq, -⟩ | ⟨-, hi, hp⟩ | ⟨-, hi, hp⟩
  · exact absurd h0 hr
  · rw [hin] at hq; cases hq
  · rw [hp, andThen_raised, andThen_raised, andThen_raised]
    refine ⟨fun _ => ⟨m, out, rfl, ho, hl, ofNat_of_toNat hvc, ofNat_of_toNat hat.done, hi, hsk⟩, fun he => ?_⟩
    rw [hin, he] at hi; cases hi
  · rw [hp, andThen_stuck, andThen_stuck, andThen_stuck]
    refine ⟨fun he => ?_, fun _ => rfl⟩
    rw [hin, he] at hi; cases hi

/-- A PACK whose sink accepts `j` bytes but not the next: BadOutput where it refuses (41_pack R165, R167, R174), no end
where it does not answer (93_implementation_defined U6). -/
theorem packRun_blocked {o : BitOrder} {w : Width} {m0 : Engine} {n j taken : Nat} (hn : n ≤ 2 ^ 36)
    (h : (packing o w).At m0 0 m0) (hj : j < (n * w.bits + 7) / 8)
    (ht : taken = min n ((8 * (j + 1) + w.bits - 1) / w.bits)) (hv : taken ≤ m0.input.queue.length)
    (hs : ∀ i < j, m0.sink.getD i .ok = .ok) :
    (m0.sink.getD j .ok = .fail → ∃ m bytes, packRun o w n m0 = .raised .badOutput m ∧
      m.output = m0.output ++ bytes ∧ bytes.length = j ∧
      m.vcnt = BitVec.ofNat 37 taken ∧ m.bcnt = BitVec.ofNat 37 j ∧
      m.input = ⟨m0.input.queue.drop taken, m0.input.atEnd⟩ ∧ m.sink = m0.sink.drop (j + 1)) ∧
    (m0.sink.getD j .ok = .never → packRun o w n m0 = .stuck) := by
  have hw : 0 < w.bits := (packing_sound o w).sourcePos
  have hmul : n * w.bits ≤ 2 ^ 36 * w.bits := Nat.mul_le_mul_right _ hn
  have hceil : ∀ b, b ≤ n * w.bits → (b + w.bits - 1) / w.bits ≤ n := by
    intro b hb
    have : b + w.bits - 1 < (n + 1) * w.bits := by rw [Nat.add_mul, Nat.one_mul]; omega
    have := div_lt_of_lt_mul' this
    omega
  have hceil' : ∀ b, b ≤ (b + w.bits - 1) / w.bits * w.bits := by
    intro b
    have h1 := Nat.div_add_mod (b + w.bits - 1) w.bits
    have h2 := Nat.mod_lt (b + w.bits - 1) hw
    rw [Nat.mul_comm] at h1
    omega
  by_cases hfull : 8 * (j + 1) ≤ n * w.bits
  · -- the refused byte is a full one
    have htk : taken = (8 * (j + 1) + w.bits - 1) / w.bits := by rw [ht, Nat.min_eq_right (hceil _ hfull)]
    have hval : 8 * (j + 1) ≤ m0.input.queue.length * w.bits :=
      Nat.le_trans (hceil' _) (by rw [← htk]; exact Nat.mul_le_mul_right _ hv)
    obtain ⟨m1, p1, fuel, hat, hsk, hlt, hbe, -, hrun⟩ := packLoop_before hn hfull (.inr (Nat.mul_mod_right _ _)) hval
      (fun i hi => hs i (by omega)) (n * w.bits) m0 0 h rfl (by omega) (Nat.le_refl _)
    obtain ⟨hn1, -, hu⟩ := entry_room (packing_sound o w) hat.stepLt hat.stepAt
    have hua := unit_after (by omega : 0 < 8) hn1 hu
    change ((p1 + (packing o w).bitsAt m1) % 8 = 0 ∧ p1 % 8 + (packing o w).bitsAt m1 = 8 ∧
      (p1 + (packing o w).bitsAt m1) / 8 = p1 / 8 + 1) ∨ ((p1 + (packing o w).bitsAt m1) % 8 ≠ 0 ∧
      p1 % 8 + (packing o w).bitsAt m1 < 8 ∧ (p1 + (packing o w).bitsAt m1) / 8 = p1 / 8) at hua
    rw [← hbe] at hua
    have hp1 : p1 / 8 = j := by omega
    have hans : (nextAnswer m1.sink).1 = m0.sink.getD j .ok := by rw [hsk, nextAnswer_at, hp1]
    rw [← hans]
    rw [packRun, hrun]
    obtain ⟨mp, hmp⟩ := pullValue_goes hat (div_lt_of_lt_mul' (by omega))
    rcases packStep_at hat (by omega) hmp hbe with
      ⟨m', -, -, ⟨h0, -⟩ | ⟨-, ha, -⟩⟩ | ⟨-, ha, m', he, hmv, hrl, hsk'⟩ | ⟨-, ha, he⟩
    · exact absurd (Nat.mul_mod_right _ _) h0
    · rw [ha]; exact ⟨fun h => (by cases h), fun h => (by cases h)⟩
    · rw [he, andThen_raised, andThen_raised, ha]
      refine ⟨fun _ => ?_, fun h => (by cases h)⟩
      obtain ⟨out, ho, hl, -⟩ := hmv.output
      have hvt : m'.vcnt.toNat * w.bits = m'.rem.toNat + 8 * (j + 1) := hmv.taken
      have hvc : m'.vcnt.toNat = taken := by
        rw [htk]
        symm
        rw [Nat.div_eq_iff hw]
        constructor
        · omega
        · omega
      have hin : m'.input = ⟨m0.input.queue.drop m'.vcnt.toNat, m0.input.atEnd⟩ := hmv.input
      rw [hvc] at hin
      exact ⟨m', out, rfl, ho, by rw [hl, hp1], ofNat_of_toNat hvc, ofNat_of_toNat (by rw [← hp1]; exact hmv.done), hin,
        by rw [hsk', hsk, List.drop_drop, hp1]⟩
    · rw [he, andThen_stuck, andThen_stuck, ha]
      exact ⟨fun h => (by cases h), fun _ => rfl⟩
  · -- the refused byte is the final partial one
    have htk : taken = n := by
      rw [ht, Nat.min_eq_left]
      refine (Nat.le_div_iff_mul_le hw).2 ?_
      omega
    obtain ⟨m, fuel, hat, hsk, -, hrun⟩ := packLoop_reaches hn (Nat.le_refl _) (.inl (Nat.mul_mod_left _ _))
      (Nat.mul_le_mul_right _ (htk ▸ hv)) (fun i hi => hs i (by omega)) h
    obtain ⟨hend, -, hvc⟩ := packLoop_ends hat fuel
    have hj8 : n * w.bits / 8 = j := by omega
    have hab := hat.accBits
    change m.accBits.toNat + 8 * (n * w.bits / 8) = n * w.bits at hab
    have h0 : m.accBits ≠ 0 := by
      intro hz
      rw [hz] at hab
      change 0 + _ = _ at hab
      omega
    have hans : (nextAnswer m.sink).1 = m0.sink.getD j .ok := by rw [hsk, nextAnswer_at, hj8]
    rw [← hans]
    rw [packRun, hrun, hend, andThen_going, flushByte, if_neg h0]
    obtain ⟨out, ho, hl, -⟩ := hat.output
    have hin : m.input = ⟨m0.input.queue.drop m.vcnt.toNat, m0.input.atEnd⟩ := hat.input
    rw [hvc] at hin
    rcases pushByte_cases m with ⟨ha, -⟩ | ⟨ha, he⟩ | ⟨ha, he⟩
    · rw [ha]; exact ⟨fun h => (by cases h), fun h => (by cases h)⟩
    · rw [ha]
      refine ⟨fun _ => ⟨_, out, he, ho, ?_, ?_, ?_, ?_, ?_⟩, fun h => (by cases h)⟩
      · rw [hl]; exact hj8
      · rw [htk]; exact ofNat_of_toNat hvc
      · rw [← hj8]; exact ofNat_of_toNat hat.done
      · rw [htk]; exact hin
      · simp only [hsk, List.drop_drop, hj8]
    · rw [ha]; exact ⟨fun h => (by cases h), fun _ => he⟩

/-! ## UNPACK -/

/-- Before its last bit UNPACK's loop goes on (42_unpack R189). -/
theorem unpackLoop_goes {o : BitOrder} {w : Width} {m0 m : Engine} {p n fuel : Nat} (h : (unpacking o w).At m0 p m)
    (hp : p < n * w.bits) :
    unpackLoop o w n (fuel + 1) m = (unpackStep o w m).andThen (unpackLoop o w n fuel) := by
  have hv : m.vcnt.toNat = p / w.bits := h.done
  rw [unpackLoop, if_pos (by rw [hv]; exact div_lt_of_lt_mul' hp)]

/-- UNPACK walks from `p` to the boundary `b`, if the bytes are there. -/
theorem unpackLoop_reaches {o : BitOrder} {w : Width} {m0 : Engine} {n b : Nat} (hn : n ≤ 2 ^ 36)
    (hb : b ≤ n * w.bits) (hbd : b % 8 = 0 ∨ b % w.bits = 0) (hv : b ≤ 8 * m0.input.queue.length) (fuel : Nat)
    (m : Engine) (p : Nat) (h : (unpacking o w).At m0 p m) (hsk : m.sink = m0.sink) (hp : p ≤ b)
    (hf : n * w.bits ≤ fuel + p) :
    ∃ m1 fuel1, (unpacking o w).At m0 b m1 ∧ m1.sink = m0.sink ∧ n * w.bits ≤ fuel1 + b ∧
      unpackLoop o w n fuel m = unpackLoop o w n fuel1 m1 := by
  induction fuel generalizing m p with
  | zero =>
    obtain rfl : p = b := by omega
    exact ⟨m, 0, h, hsk, hf, rfl⟩
  | succ fuel ih =>
    rcases Nat.lt_or_ge p b with hlt | hge
    · obtain ⟨hn1, hsrc, hu⟩ := entry_room (unpacking_sound o w) h.stepLt h.stepAt
      have hle : p + (unpacking o w).bitsAt m ≤ b := segment_le hbd hlt hsrc hu
      have hmul : n * w.bits ≤ 2 ^ 36 * w.bits := Nat.mul_le_mul_right _ hn
      obtain ⟨mp, hmp⟩ := pullByte_goes h (by omega)
      obtain ⟨m', he, hat, hsk'⟩ := unpackStep_at h (by omega) hmp rfl
      rw [unpackLoop_goes h (by omega), he, andThen_going]
      change 1 ≤ (unpacking o w).bitsAt m at hn1
      exact ih m' _ hat (hsk'.trans hsk) hle (by omega)
    · obtain rfl : p = b := by omega
      exact ⟨m, fuel + 1, h, hsk, hf, rfl⟩

/-- After `n` values UNPACK's loop ends (42_unpack R193). -/
theorem unpackLoop_ends {o : BitOrder} {w : Width} {m0 m : Engine} {n : Nat}
    (h : (unpacking o w).At m0 (n * w.bits) m) (fuel : Nat) :
    unpackLoop o w n fuel m = .going m ∧ m.vcnt.toNat = n := by
  have hw : 0 < w.bits := (unpacking_sound o w).unitPos
  have hv : m.vcnt.toNat = n := by
    have : m.vcnt.toNat = n * w.bits / w.bits := h.done
    rwa [Nat.mul_div_cancel _ hw] at this
  refine ⟨?_, hv⟩
  cases fuel with
  | zero => rfl
  | succ fuel => rw [unpackLoop, if_neg (by omega)]

/-- `acc` and everything pushed after `output0` stay below `2^w`. -/
def Small (w : Width) (output0 : List Byte) (m : Engine) : Prop :=
  m.step.toNat < w.cycle ∧ m.acc.toNat < 2 ^ w.bits ∧
    ∃ vs, m.output = output0 ++ vs ∧ ∀ v ∈ vs, v.toNat < 2 ^ w.bits

theorem unpackStep_small {o : BitOrder} {w : Width} {output0 : List Byte} {m : Engine} (h : Small w output0 m) :
    (unpackStep o w m).All (Small w output0) := by
  have hadv : ∀ k, (BitVec.ofNat 4 ((k + 1) % w.cycle)).toNat < w.cycle := by
    intro k
    have h1 : (k + 1) % w.cycle < w.cycle := Nat.mod_lt _ (by cases w <;> decide)
    have h2 : w.cycle ≤ 14 := by cases w <;> decide
    rw [BitVec.toNat_ofNat, Nat.mod_eq_of_lt (by omega)]
    exact h1
  refine all_andThen (P := Small w output0) ?_ (fun m1 h1 => ?_) fun _ h => h
  · rcases pullByte_cases m with ⟨-, he⟩ | ⟨-, x, xs, -, he⟩ | ⟨-, -, he⟩ | ⟨-, -, he⟩ <;> rw [he]
    · exact h
    · exact h
    · exact h
    · trivial
  · obtain ⟨hst, hacc, vs, ho, hvs⟩ := h1
    have hm : (m1.move (entryAt (readTable o w) m1.step.toNat)).acc.toNat < 2 ^ w.bits := by
      rw [Engine.move, BitVec.toNat_or]
      exact Nat.or_lt_two_pow hacc (unpacking_small o w _ hst _)
    change Small w output0 (Engine.advance w (storeValue w _))
    unfold storeValue
    split
    · refine ⟨hadv _, Nat.two_pow_pos _, vs ++ [(m1.move (entryAt (readTable o w) m1.step.toNat)).acc], ?_, ?_⟩
      · change m1.output ++ _ = _
        rw [ho, List.append_assoc]
      · intro v hv
        rcases List.mem_append.1 hv with hv | hv
        · exact hvs v hv
        · rw [List.mem_singleton.1 hv]; exact hm
    · exact ⟨hadv _, hm, vs, ho, hvs⟩

/-- Wherever an UNPACK ends, the values it pushed are below `2^w` (40_bit_primitives R146). -/
theorem unpackRun_small (o : BitOrder) (w : Width) (n : Nat) (e : Bool) (s : State) (input : InPort)
    (output : List Byte) : (unpackRun o w n e (Engine.start s input output)).All (Small w output) := by
  refine unpackRun_all n e (fun m h => unpackStep_small h) (fun m h => h) _ ⟨?_, ?_, [], ?_, ?_⟩
  · cases w <;> exact Nat.zero_lt_succ _
  · exact Nat.two_pow_pos _
  · exact (List.append_nil _).symm
  · simp

/-- UNPACK's loop with the bytes of the section there (42_unpack R186, R193): the values are those the bytes hold, and
the bytes taken those of the section. -/
theorem unpackLoop_complete {o : BitOrder} {w : Width} {m0 : Engine} {n len : Nat} (hn : n ≤ 2 ^ 36)
    (h : (unpacking o w).At m0 0 m0) (hlen : len = (n * w.bits + 7) / 8) (hv : len ≤ m0.input.queue.length) :
    ∃ m vs, unpackLoop o w n (n * w.bits) m0 = .going m ∧ m.output = m0.output ++ vs ∧ vs.length = n ∧
      (∀ q < n * w.bits, valueBit o w.bits (vs.getD (q / w.bits) 0) (q % w.bits) =
        byteBit o (m0.input.queue.getD (q / 8) 0) (q % 8)) ∧
      m.vcnt = BitVec.ofNat 37 n ∧ m.bcnt = BitVec.ofNat 37 len ∧
      m.input = ⟨m0.input.queue.drop len, m0.input.atEnd⟩ ∧ m.sink = m0.sink := by
  obtain ⟨m, fuel, hat, hsk, -, hrun⟩ := unpackLoop_reaches hn (Nat.le_refl _) (.inr (Nat.mul_mod_left _ _))
    (by omega) (n * w.bits) m0 0 h rfl (Nat.zero_le _) (Nat.le_refl _)
  obtain ⟨hend, hvc⟩ := unpackLoop_ends hat fuel
  rw [hrun, hend]
  obtain ⟨vs, ho, hl, hbits⟩ := hat.output
  have hw : 0 < w.bits := (unpacking_sound o w).unitPos
  change vs.length = n * w.bits / w.bits at hl
  rw [Nat.mul_div_cancel _ hw] at hl
  change ∀ q < w.bits * (n * w.bits / w.bits), valueBit o w.bits (vs.getD (q / w.bits) 0) (q % w.bits) =
    byteBit o (m0.input.queue.getD (q / 8) 0) (q % 8) at hbits
  rw [Nat.mul_div_cancel _ hw, Nat.mul_comm] at hbits
  have htk : m.bcnt.toNat * 8 = m.rem.toNat + n * w.bits := hat.taken
  have hrl : m.rem.toNat < 8 := hat.remLt
  have hbc : m.bcnt.toNat = len := by omega
  have hin : m.input = ⟨m0.input.queue.drop m.bcnt.toNat, m0.input.atEnd⟩ := hat.input
  rw [hbc] at hin
  exact ⟨m, vs, rfl, ho, hl, hbits, ofNat_of_toNat hvc, ofNat_of_toNat hbc, hin, hsk⟩

/-- An UNPACK that finds no byte waiting after `k` of them, before the section ends: BadData at `EOS` (42_unpack R183,
R195), no end on a silent port (93_implementation_defined U6). -/
theorem unpackRun_starved {o : BitOrder} {w : Width} {e : Bool} {m0 : Engine} {n k : Nat} (hn : n ≤ 2 ^ 36)
    (h : (unpacking o w).At m0 0 m0) (hk : k = m0.input.queue.length) (hkn : k < (n * w.bits + 7) / 8) :
    (m0.input.atEnd = .eos → ∃ m vs, unpackRun o w n e m0 = .raised .badData m ∧ m.output = m0.output ++ vs ∧
      vs.length = 8 * k / w.bits ∧ m.vcnt = BitVec.ofNat 37 (8 * k / w.bits) ∧ m.bcnt = BitVec.ofNat 37 k ∧
      m.input = ⟨[], .eos⟩ ∧ m.sink = m0.sink) ∧
    (m0.input.atEnd = .never → unpackRun o w n e m0 = .stuck) := by
  obtain ⟨m, fuel, hat, hsk, hf, hrun⟩ := unpackLoop_reaches hn (b := 8 * k) (by omega) (.inl (Nat.mul_mod_right _ _))
    (by omega) (n * w.bits) m0 0 h rfl (Nat.zero_le _) (Nat.le_refl _)
  obtain ⟨fuel, rfl⟩ : ∃ f, fuel = f + 1 := ⟨fuel - 1, by omega⟩
  rw [unpackRun, hrun, unpackLoop_goes hat (by omega), unpackStep]
  have h0 : m.rem = 0 := by
    rcases hat.rem_eq with ⟨h0, -⟩ | ⟨-, hpos, -⟩
    · exact h0
    · change 0 < 8 * k % 8 at hpos; omega
  have hbc : m.bcnt.toNat = k := by
    have := hat.taken_eq h0
    change m.bcnt.toNat = 8 * k / 8 at this
    omega
  have hin : m.input = ⟨m0.input.queue.drop m.bcnt.toNat, m0.input.atEnd⟩ := hat.input
  rw [hbc, hk, List.drop_length] at hin
  obtain ⟨vs, ho, hl, -⟩ := hat.output
  rcases pullByte_cases m with ⟨hr, -⟩ | ⟨-, x, xs, hq, -⟩ | ⟨-, hi, hp⟩ | ⟨-, hi, hp⟩
  · exact absurd h0 hr
  · rw [hin] at hq; cases hq
  · rw [hp, andThen_raised, andThen_raised, andThen_raised]
    refine ⟨fun _ => ⟨m, vs, rfl, ho, hl, ofNat_of_toNat hat.done, ofNat_of_toNat hbc, hi, hsk⟩, fun he => ?_⟩
    rw [hin, he] at hi; cases hi
  · rw [hp, andThen_stuck, andThen_stuck, andThen_stuck]
    refine ⟨fun he => ?_, fun _ => rfl⟩
    rw [hin, he] at hi; cases hi

/-! ## The counters, wherever a command ends -/

/-- The counters stay within the values and the bytes of the section (10_state R39, 41_pack R175). -/
def Counted (w : Width) (n : Nat) (m : Engine) : Prop :=
  m.vcnt.toNat ≤ n ∧ m.bcnt.toNat ≤ (n * w.bits + 7) / 8

/-- What the counter of source units says at a position inside the section. -/
theorem taken_le {source t r p top : Nat} (ht : t * source = r + p) (hr : r < source) (hp : p ≤ top) :
    t ≤ (top + source - 1) / source := by
  refine (Nat.le_div_iff_mul_le (by omega)).2 ?_
  omega

theorem packing_counted {o : BitOrder} {w : Width} {m0 m : Engine} {n p u : Nat} (h : (packing o w).Moved m0 p u m)
    (hr : m.rem.toNat < w.bits) (hp : p ≤ n * w.bits) : Counted w n m := by
  have hw : 0 < w.bits := (packing_sound o w).sourcePos
  have h1 : m.vcnt.toNat ≤ (n * w.bits + w.bits - 1) / w.bits := taken_le h.taken hr hp
  have h2 : (n * w.bits + w.bits - 1) / w.bits = n := by
    rw [Nat.add_sub_assoc hw, Nat.mul_comm, Nat.mul_add_div hw, Nat.div_eq_of_lt (by omega), Nat.add_zero]
  have h3 : m.bcnt.toNat = u := h.done
  have h4 : m.accBits.toNat + 8 * u = p := h.accBits
  exact ⟨by omega, by omega⟩

theorem unpacking_counted {o : BitOrder} {w : Width} {m0 m : Engine} {n p u : Nat}
    (h : (unpacking o w).Moved m0 p u m) (hr : m.rem.toNat < 8) (hp : p ≤ n * w.bits) : Counted w n m := by
  have hw : 0 < w.bits := (unpacking_sound o w).unitPos
  have h1 : m.bcnt.toNat ≤ (n * w.bits + 8 - 1) / 8 := taken_le h.taken hr hp
  have h3 : m.vcnt.toNat = u := h.done
  have h4 : m.accBits.toNat + w.bits * u = p := h.accBits
  refine ⟨?_, by omega⟩
  rw [h3]
  exact Nat.le_of_mul_le_mul_left (by rw [Nat.mul_comm w.bits n]; omega) hw

theorem packLoop_counted {o : BitOrder} {w : Width} {m0 : Engine} {n : Nat} (hn : n ≤ 2 ^ 36) (fuel : Nat) (m : Engine)
    (p : Nat) (h : (packing o w).At m0 p m) (hp : p ≤ n * w.bits) (hf : n * w.bits ≤ fuel + p) :
    (∃ m', packLoop o w n fuel m = .going m' ∧ (packing o w).At m0 (n * w.bits) m') ∨
    (∃ k m', packLoop o w n fuel m = .raised k m' ∧ Counted w n m') ∨ packLoop o w n fuel m = .stuck := by
  induction fuel generalizing m p with
  | zero =>
    obtain rfl : p = n * w.bits := by omega
    exact .inl ⟨m, rfl, h⟩
  | succ fuel ih =>
    rcases Nat.lt_or_ge p (n * w.bits) with hlt | hge
    · rw [packLoop_goes h hlt]
      have hmul : n * w.bits ≤ 2 ^ 36 * w.bits := Nat.mul_le_mul_right _ hn
      obtain ⟨hn1, hsrc, hu⟩ := entry_room (packing_sound o w) h.stepLt h.stepAt
      have hle : p + (packing o w).bitsAt m ≤ n * w.bits := segment_le (.inl (Nat.mul_mod_left _ _)) hlt hsrc hu
      rcases hpv : pullValue w m with mp | ⟨k, mp⟩ | _
      · rcases packStep_at h (by omega) hpv rfl with ⟨m', he, hat, -⟩ | ⟨-, -, m', he, hmv, hrl, -⟩ | ⟨-, -, he⟩
        · rw [he, andThen_going]
          change 1 ≤ (packing o w).bitsAt m at hn1
          exact ih m' _ hat hle (by omega)
        · rw [he, andThen_raised]
          exact .inr (.inl ⟨_, m', rfl, packing_counted hmv hrl hle⟩)
        · rw [he, andThen_stuck]
          exact .inr (.inr rfl)
      · rw [packStep, hpv, andThen_raised, andThen_raised]
        have : mp = m := by
          rcases pullValue_cases w m with ⟨-, he⟩ | ⟨-, x, xs, -, he⟩ | ⟨-, -, he⟩ | ⟨-, -, he⟩ <;> rw [he] at hpv <;>
            cases hpv
          rfl
        exact .inr (.inl ⟨k, mp, rfl, this ▸ packing_counted h.toMoved h.remLt hp⟩)
      · rw [packStep, hpv, andThen_stuck, andThen_stuck]
        exact .inr (.inr rfl)
    · obtain rfl : p = n * w.bits := by omega
      exact .inl ⟨m, (packLoop_ends h _).1, h⟩

/-- Wherever a PACK ends, its counters are within its section. -/
theorem packRun_counted {o : BitOrder} {w : Width} {m0 : Engine} {n : Nat} (hn : n ≤ 2 ^ 36)
    (h : (packing o w).At m0 0 m0) : (packRun o w n m0).All (Counted w n) := by
  unfold packRun
  rcases packLoop_counted hn (n * w.bits) m0 0 h (Nat.zero_le _) (Nat.le_refl _) with
    ⟨m, he, hat⟩ | ⟨k, m, he, hc⟩ | he <;> rw [he]
  · have hc : Counted w n m := packing_counted hat.toMoved hat.remLt (Nat.le_refl _)
    rw [andThen_going, flushByte]
    split
    · exact hc
    · rename_i h0
      have hmul : n * w.bits ≤ 2 ^ 36 * 8 := Nat.mul_le_mul hn (by cases w <;> decide)
      have hb : m.bcnt.toNat = n * w.bits / 8 := hat.done
      have hab : m.accBits.toNat + 8 * (n * w.bits / 8) = n * w.bits := hat.accBits
      have hpos : m.accBits.toNat ≠ 0 := fun hz => h0 (BitVec.eq_of_toNat_eq hz)
      rcases pushByte_cases m with ⟨-, he⟩ | ⟨-, he⟩ | ⟨-, he⟩ <;> rw [he]
      · refine ⟨hc.1, ?_⟩
        change (m.bcnt + 1).toNat ≤ _
        rw [BitVec.toNat_add, hb, show (1 : BitVec 37).toNat = 1 from rfl]
        omega
      · exact hc
      · trivial
  · exact hc
  · trivial

theorem unpackLoop_counted {o : BitOrder} {w : Width} {m0 : Engine} {n : Nat} (hn : n ≤ 2 ^ 36) (fuel : Nat)
    (m : Engine) (p : Nat) (h : (unpacking o w).At m0 p m) (hp : p ≤ n * w.bits) (hf : n * w.bits ≤ fuel + p) :
    (unpackLoop o w n fuel m).All (Counted w n) := by
  induction fuel generalizing m p with
  | zero => exact unpacking_counted h.toMoved h.remLt hp
  | succ fuel ih =>
    rcases Nat.lt_or_ge p (n * w.bits) with hlt | hge
    · rw [unpackLoop_goes h hlt]
      have hmul : n * w.bits ≤ 2 ^ 36 * w.bits := Nat.mul_le_mul_right _ hn
      have hw8 : w.bits ≤ 8 := by cases w <;> decide
      obtain ⟨hn1, hsrc, hu⟩ := entry_room (unpacking_sound o w) h.stepLt h.stepAt
      have hle : p + (unpacking o w).bitsAt m ≤ n * w.bits := segment_le (.inr (Nat.mul_mod_left _ _)) hlt hsrc hu
      rcases hpv : pullByte m with mp | ⟨k, mp⟩ | _
      · obtain ⟨m', he, hat, -⟩ := unpackStep_at h (by omega) hpv rfl
        rw [he, andThen_going]
        change 1 ≤ (unpacking o w).bitsAt m at hn1
        exact ih m' _ hat hle (by omega)
      · rw [unpackStep, hpv, andThen_raised, andThen_raised]
        have : mp = m := by
          rcases pullByte_cases m with ⟨-, he⟩ | ⟨-, x, xs, -, he⟩ | ⟨-, -, he⟩ | ⟨-, -, he⟩ <;> rw [he] at hpv <;>
            cases hpv
          rfl
        exact this ▸ unpacking_counted h.toMoved h.remLt hp
      · rw [unpackStep, hpv, andThen_stuck, andThen_stuck]
        trivial
    · obtain rfl : p = n * w.bits := by omega
      rw [(unpackLoop_ends h _).1]
      exact unpacking_counted h.toMoved h.remLt hp

/-- Wherever an UNPACK ends, its counters are within its section. -/
theorem unpackRun_counted {o : BitOrder} {w : Width} {e : Bool} {m0 : Engine} {n : Nat} (hn : n ≤ 2 ^ 36)
    (h : (unpacking o w).At m0 0 m0) : (unpackRun o w n e m0).All (Counted w n) := by
  refine all_andThen (unpackLoop_counted hn (n * w.bits) m0 0 h (Nat.zero_le _) (Nat.le_refl _)) (fun m hm => ?_)
    fun _ h => h
  unfold probeEnd
  cases e with
  | false => exact hm
  | true => rcases m.input.pull with _ | _ | _ <;> first | exact hm | trivial

end Sys2Proof.Machine
end

