-- ==== Sys2Proof/Tests/Slice0.lean ====
section
/-! SUPPORT. Small tests. Expected values are those of spec/95_test_vectors.md (rules V, programs P) or of the encoding
formats of spec/30_encoding.md; each test runs one command. The witnesses at the end show, for every statement with
hypotheses, a concrete case that meets them all. -/

namespace Sys2Proof.Tests

open Sys2Proof Sys2Proof.Machine

/-! ## Helpers -/

/-- The state a result goes on to. -/
def after : Result → Option State
  | .next t => some t
  | .fault _ => none
  | .refused _ => none

/-- One view of the state a result goes on to. -/
def look {α : Type} (f : State → α) (r : Result) : Option α := (after r).map f

/-- The result goes on. -/
def goesOn (r : Result) : Bool := (after r).isSome

/-- Bytes from numbers. -/
def bytes (ns : List Nat) : List Byte := ns.map (BitVec.ofNat 8)

/-- The nine values of V20 and the six bytes they pack to. -/
def nine : List Byte := bytes [0, 31, 16, 1, 30, 2, 29, 15, 17]
def nineBytes : List Byte := bytes [0x07, 0xE0, 0x1F, 0x0B, 0xAF, 0x88]

/-- A unit with dimensions set, values on VIN and bytes on BIN. -/
def grid (h w : Nat) (vs bs : List Byte) : State :=
  { State.reset with
    height := BitVec.ofNat 19 h, width := BitVec.ofNat 19 w
    vin := ⟨vs, .eos⟩, bin := ⟨bs, .eos⟩ }

/-- A unit whose sink gives these answers. -/
def withSink (s : State) (answers : List SinkAnswer) : State := { s with sink := answers }

/-- A unit in LSB_FIRST order. -/
def lsb (s : State) : State := { s with params := ⟨.lsbFirst, 3, 3⟩ }

/-- A unit with two tiles in its buffers. -/
def tiles (a b : TileBuf) : State := { State.reset with ta := a, tb := b }

/-- A valid 3 by 3 tile. -/
def tile (cells : List Nat) : TileBuf := ⟨true, 3, 3, bytes cells⟩

/-- A valid 2 by 3 tile, which leaves the third row of the store unused. -/
def edgeTile (cells : List Nat) : TileBuf := ⟨true, 2, 3, bytes cells⟩

/-- No tile. -/
def noTile : TileBuf := TileBuf.blank Params.default fun _ => 0

/-- The unit with an error latched. -/
def failed (s : State) : State := { s with err := 3 }

/-- A unit with a word on its command port. -/
def asked (x : Command) (s : State) : State := { s with host := [.command x] }

/-- The last response, as (ERR, RES). -/
def said (s : State) : Option (Nat × Nat) := s.responses.getLast?.map fun r => (r.err.toNat, r.res.toNat)

/-- The counters as (VCNT, BCNT). -/
def counts (s : State) : Nat × Nat := (s.vcnt.toNat, s.bcnt.toNat)

/-! ## WellFormed -/

/-- The one check of WellFormed: a GETREG above 8 is refused, 8 is not (30_encoding R116). -/
theorem test_wf_refuses_register_nine : (Instr.getreg 9).wf = false ∧ (Instr.getreg 8).wf = true := by decide

/-! ## Decoding words written out from the formats (30_encoding R101 to R106, V51) -/

theorem test_decode_control :
    decode 0b00000000_000000000000000000000000 = .ok .nop ∧
    decode 0b00000001_000000000000000000000011 = .ok (.seth 3) ∧
    decode 0b00000010_111111111111111111111111 = .ok (.setw 16777215) ∧
    decode 0b00000011_0000000000000000_00001000 = .ok (.getreg 8) ∧
    decode 0b00000100_000000000000000000000000 = .ok .clrerr ∧
    decode 0b00000101_000000000000000000000000 = .ok .sreset := ⟨rfl, rfl, rfl, rfl, rfl, rfl⟩

theorem test_decode_codec :
    decode 0b00010000_000000000000000000000000 = .ok .pack5 ∧
    decode 0b00010001_000000000000000000000000 = .ok .pack7 ∧
    decode 0b00010010_00000000000000000000000_1 = .ok (.unpack5 true) ∧
    decode 0b00010011_00000000000000000000000_0 = .ok (.unpack7 false) := ⟨rfl, rfl, rfl, rfl⟩

theorem test_decode_tile :
    decode 0b00100000_00000000_00000010_00000011 = .ok (.lda 2 3) ∧
    decode 0b00100001_00000000_11111111_00000001 = .ok (.ldb 255 1) ∧
    decode 0b00100010_000000000000000000000000 = .ok .tsum ∧
    decode 0b00100011_000000000000000000000000 = .ok .tavg ∧
    decode 0b00100100_000000000000000000000000 = .ok .tdiff ∧
    decode 0b00100101_000000000000000000000000 = .ok .tdsum := ⟨rfl, rfl, rfl, rfl, rfl, rfl⟩

/-- V51: words that are not legal. -/
theorem test_decode_illegal :
    decode 0x00000001 = .error .reservedField ∧ decode 0x03000009 = .error .undefinedRegister ∧
    decode 0x03000100 = .error .reservedField ∧ decode 0x12000002 = .error .reservedField ∧
    decode 0x13000003 = .error .reservedField ∧ decode 0x20010303 = .error .reservedField ∧
    decode 0x25000001 = .error .reservedField ∧ decode 0x0F000000 = .error .reservedOpcode ∧
    decode 0x14000000 = .error .reservedOpcode ∧ decode 0xFF000000 = .error .reservedOpcode :=
  ⟨rfl, rfl, rfl, rfl, rfl, rfl, rfl, rfl, rfl, rfl⟩

/-! ## Tables and primitives -/

/-- V11. -/
theorem test_dshift : dshift 0x1C 2 = 0x07 ∧ dshift 0x03 (-6) = 0xC0 ∧ dshift 0xFF (-1) = 0xFE ∧
    dshift 0x80 (-1) = 0x00 ∧ dshift 0xFF 7 = 0x01 ∧ dshift 0xFF (-7) = 0x80 ∧ dshift 0xAB 0 = 0xAB := by decide

/-- V12. -/
theorem test_popcount8 : popcount8 0x55 = 4 ∧ popcount8 0x7C = 5 ∧ popcount8 0xFE = 7 := by decide

/-- V13, the spot values. -/
theorem test_table_spots :
    entryAt (writeTable .msbFirst .w5) 1 = ⟨0x1C, 2, 3⟩ ∧ entryAt (writeTable .msbFirst .w5) 10 = ⟨0x07, -5, 3⟩ ∧
    entryAt (writeTable .msbFirst .w7) 3 = ⟨0x60, 5, 2⟩ ∧ entryAt (readTable .msbFirst .w7) 12 = ⟨0x80, 7, 1⟩ := by
  decide

/-! ## Control (V50, V52) -/

/-- V52: NOP runs while the latch is set. -/
theorem test_nop_runs_latched : look (fun t => (said t, t.err)) (exec .nop (failed State.reset)) = some (some (0, 0), 3) := by
  decide

/-- V50: the largest height, and one more. -/
theorem test_seth_bounds :
    look (fun t => (said t, t.height.toNat)) (exec (.seth 262144) State.reset) = some (some (0, 0), 262144) ∧
    look (fun t => (said t, t.height.toNat)) (exec (.seth 262145) State.reset) = some (some (3, 0), 0) := by decide

/-- V50: a width out of range; V52: a refused command. -/
theorem test_setw_fails :
    look (fun t => (said t, t.err)) (exec (.setw 16777215) State.reset) = some (some (3, 0), 3) ∧
    look (fun t => (said t, t.width)) (exec (.setw 5) (failed State.reset)) = some (some (3, 0), 0) := by decide

/-- V50: PARAM at reset. V52: GETREG ERR. -/
theorem test_getreg_param :
    look said (exec (.getreg 8) State.reset) = some (some (0, 771)) ∧
    look said (exec (.getreg 2) (failed State.reset)) = some (some (0, 3)) := by decide

/-- V40: TA_DIM and TB_DIM. -/
theorem test_getreg_dimensions :
    look said (exec (.getreg 6) (tiles (tile []) noTile)) = some (some (0, 0x10303)) ∧
    look said (exec (.getreg 7) (tiles noTile (edgeTile []))) = some (some (0, 0x10203)) := by decide

/-- V52. -/
theorem test_clrerr : look (fun t => (said t, t.err)) (exec .clrerr (failed State.reset)) = some (some (0, 0), 0) := by decide

/-- 10_state R55: SRESET while the latch is set, over dimensions and a valid tile. -/
theorem test_sreset :
    look (fun t => (said t, t.err, t.height, t.ta.valid, t.ta.h, t.vin.queue))
      (exec .sreset (failed { grid 3 3 (bytes [7]) [] with ta := tile [] })) =
      some (some (0, 0), 0, 0, false, 0, bytes [7]) := rfl

/-! ## Codec -/

/-- V20, P1: the source's nine values at width 5. -/
theorem test_pack5_nine_values :
    look (fun t => (t.bout, said t, counts t)) (exec .pack5 (grid 1 9 nine [])) = some (nineBytes, some (0, 6), 9, 6) := by
  decide

/-- V25 (a), P5: the third push fails. -/
theorem test_pack5_third_push_fails :
    look (fun t => (t.bout, said t, counts t, t.vin.queue)) (exec .pack5 (withSink (grid 1 9 nine []) [.ok, .ok, .fail])) =
      some (bytes [0x07, 0xE0], some (2, 0), (5, 2), bytes [2, 29, 15, 17]) := by decide

/-- V21: three values at width 7. -/
theorem test_pack7_three_values :
    look (fun t => (t.bout, said t)) (exec .pack7 (grid 1 3 (bytes [127, 0, 85]) [])) =
      some (bytes [0xFE, 0x02, 0xA8], some (0, 3)) := by decide

/-- V28: the same under LSB_FIRST. -/
theorem test_pack7_lsb :
    look State.bout (exec .pack7 (lsb (grid 1 3 (bytes [127, 0, 85]) []))) = some (bytes [0x7F, 0x40, 0x15]) := by decide

/-- V30, P2: the six bytes decode to the nine values, with the end-of-stream check. -/
theorem test_unpack5_nine_values :
    look (fun t => (t.vout, said t, counts t)) (exec (.unpack5 true) (grid 3 3 [] nineBytes)) =
      some (nine, some (0, 6), 9, 6) := by decide

/-- V33 (a), P2c: a short stream. -/
theorem test_unpack5_short :
    look (fun t => (t.vout, said t, counts t)) (exec (.unpack5 false) (grid 1 9 [] (bytes [0x07, 0xE0, 0x1F]))) =
      some (bytes [0, 31, 16, 1], some (1, 0), 4, 3) := by decide

/-- V31. -/
theorem test_unpack7_three_values :
    look (fun t => (t.vout, said t)) (exec (.unpack7 false) (grid 1 3 [] (bytes [0xFE, 0x02, 0xA8]))) =
      some (bytes [127, 0, 85], some (0, 3)) := by decide

/-- V34 (b) at width 7, on the bytes of V21: a byte follows the section; it is gone and not counted. -/
theorem test_unpack7_trailing_byte :
    look (fun t => (said t, counts t, t.bin.queue)) (exec (.unpack7 true) (grid 1 3 [] (bytes [0xFE, 0x02, 0xA8, 0x0A]))) =
      some (some (1, 0), (3, 3), []) := by decide

/-! ## Tiles -/

/-- V40: a full load in row-major order. -/
theorem test_lda_nine :
    look (fun t => (t.ta.cell t.params 1 0, t.ta.cell t.params 2 2, said t, t.vin.queue))
      (exec (.lda 3 3) (grid 1 1 (bytes [1, 2, 3, 4, 5, 6, 7, 8, 9]) [])) = some (4, 9, some (0, 0), []) := rfl

/-- V44: a load short of elements takes what there is and leaves the buffer invalid. -/
theorem test_lda_short :
    look (fun t => (said t, t.ta.valid, t.vin.queue)) (exec (.lda 3 3) (grid 1 1 (bytes [1, 2, 3, 9]) [])) =
      some (some (1, 0), false, []) := by decide

/-- V40: an edge tile in TB, 2 rows of 3. -/
theorem test_ldb_edge :
    look (fun t => (t.tb.cell t.params 1 0, t.tb.h, t.tb.w, said t))
      (exec (.ldb 2 3) (grid 1 1 (bytes [1, 2, 3, 4, 5, 6]) [])) = some (4, 2, 3, some (0, 0)) := rfl

/-- V44 (first case, for TB): a dimension above nominal, and nothing pulled. -/
theorem test_ldb_too_high :
    look (fun t => (said t, t.tb.valid, t.vin.queue)) (exec (.ldb 4 3) (grid 1 1 (bytes [1]) [])) =
      some (some (1, 0), false, bytes [1]) := by decide

/-- V41: the sums of a full tile and of an edge tile. -/
theorem test_tsum :
    look said (exec .tsum (tiles (tile [1, 2, 3, 4, 5, 6, 7, 8, 9]) noTile)) = some (some (0, 45)) ∧
    look said (exec .tsum (tiles (edgeTile [5, 5, 5, 5, 5, 5, 77, 77, 77]) noTile)) = some (some (0, 30)) :=
  ⟨rfl, rfl⟩

/-- V41: an edge tile is averaged over the nominal area; 278 over 9 rounds to 31. -/
theorem test_tavg :
    look said (exec .tavg (tiles (edgeTile [5, 5, 5, 5, 5, 5, 77, 77, 77]) noTile)) = some (some (0, 3)) ∧
    look said (exec .tavg (tiles (tile [31, 31, 31, 31, 31, 31, 31, 31, 30]) noTile)) = some (some (0, 31)) :=
  ⟨rfl, rfl⟩

/-- V43, third row; V44: shapes that differ. -/
theorem test_tdiff :
    look said (exec .tdiff (tiles (tile [1, 2, 3, 4, 5, 6, 7, 8, 9]) (tile [9, 8, 7, 6, 5, 4, 3, 2, 1]))) =
      some (some (0, 40)) ∧
    look said (exec .tdiff (tiles (tile []) (edgeTile []))) = some (some (1, 0)) := ⟨rfl, rfl⟩

/-- V43, second row: a negative sum in two's complement. -/
theorem test_tdsum :
    look said (exec .tdsum (tiles (tile [3, 3, 3, 3, 3, 3, 3, 3, 3]) (tile [5, 5, 5, 5, 5, 5, 5, 5, 5]))) =
      some (some (0, 0xFFFFFFFFFFFFFFEE)) := rfl

/-! ## The step -/

/-- A word placed on the command port of the reset state runs as the next step (P1, first command). -/
theorem test_step_runs_the_word :
    look (fun t => (t.height, said t, t.host)) (step (State.reset.withFetchWord 32 0x01000001)) = some (1, some (0, 0), []) := by
  decide

/-- V52: an illegal word while the latch holds 3. -/
theorem test_step_answers_an_illegal_word :
    look (fun t => (said t, t.err)) (step (asked 0xFF000000 (failed State.reset))) = some (some (4, 0), 3) := by decide

/-! ## Witnesses: the hypotheses of each statement are met together -/

theorem witness_DecodeInvertsEncode : (Instr.getreg 8).wf = true := by decide

theorem witness_DecodedWordIsTheEncoding : decode 0x12000001 = .ok (.unpack5 true) := rfl

theorem witness_DecoderAcceptsTheLegalWords :
    (0x03000000, 0xFFFFFF00) ∈ opcodeRows ∧ (0x03000008 : Command) &&& 0xFFFFFF00 = 0x03000000 ∧
    (0x03000008 : Command).toNat % 256 ≤ 8 ∧ legalWord 0x03000008 = true ∧ legalWord 0x03000009 = false := by decide

theorem witness_CodecOpcodeBits :
    (decode 0x10000000 = .ok .pack5 ∧ (0x10000000 : Command).toNat / 2 ^ 26 = 4) ∧
    (decode 0x11000000 = .ok .pack7 ∧ (0x11000000 : Command).toNat / 2 ^ 26 = 4) ∧
    (decode 0x12000001 = .ok (.unpack5 true) ∧ (0x12000001 : Command).toNat / 2 ^ 26 = 4) ∧
    (decode 0x13000000 = .ok (.unpack7 false) ∧ (0x13000000 : Command).toNat / 2 ^ 26 = 4) :=
  ⟨⟨rfl, rfl⟩, ⟨rfl, rfl⟩, ⟨rfl, rfl⟩, ⟨rfl, rfl⟩⟩

theorem witness_IllegalWordsAnswerBadCommand :
    (asked 0x06000000 State.reset).host = [.command 0x06000000] ∧ legalWord 0x06000000 = false ∧
    (asked 0x03000009 (failed State.reset)).host = [.command 0x03000009] ∧ legalWord 0x03000009 = false := by decide

theorem witness_StepRunsTheDecodedCommand :
    (asked 0x22000000 State.reset).host = [.command 0x22000000] ∧ decode 0x22000000 = .ok .tsum := ⟨rfl, rfl⟩

theorem witness_WaitingUnitDoesNotChange : State.reset.host = [] := rfl

theorem witness_SethSetsTheHeight : State.reset.err = 0 ∧
    (1 ≤ (1 : BitVec 24).toNat ∧ (1 : BitVec 24).toNat ≤ 262144) ∧
    (1 ≤ (262144 : BitVec 24).toNat ∧ (262144 : BitVec 24).toNat ≤ 262144) ∧
    (0 : BitVec 24).toNat < 1 ∧ 262144 < (262145 : BitVec 24).toNat := by decide

theorem witness_SetwSetsTheWidth : (grid 0 7 [] []).err = 0 ∧
    (1 ≤ (1 : BitVec 24).toNat ∧ (1 : BitVec 24).toNat ≤ 262144) ∧
    (1 ≤ (262144 : BitVec 24).toNat ∧ (262144 : BitVec 24).toNat ≤ 262144) ∧
    (0 : BitVec 24).toNat < 1 ∧ 262144 < (16777215 : BitVec 24).toNat := by decide

theorem witness_GetregReadsEveryRegister : (0 : BitVec 8).toNat ≤ 8 ∧ (8 : BitVec 8).toNat ≤ 8 ∧
    noTile.wf Params.default = true ∧ noTile.valid = false := by decide

theorem witness_GetregOfAnUndefinedNumber : 8 < (9 : BitVec 8).toNat ∧ 8 < (255 : BitVec 8).toNat := by decide

theorem witness_LatchedUnitRefusesWork : Instr.pack5.alwaysExecuted = false ∧ (failed State.reset).err ≠ 0 := by decide

theorem witness_ErrorLatchHoldsTheFirstError :
    ((∃ t, exec .tsum (failed State.reset) = .next t) ∧ (failed State.reset).err ≠ 0) ∧
    ((∃ t, exec .tsum State.reset = .next t) ∧ State.reset.err = 0) ∧ Instr.tsum ≠ .clrerr ∧ Instr.tsum ≠ .sreset :=
  ⟨⟨⟨_, rfl⟩, by decide⟩, ⟨⟨_, rfl⟩, rfl⟩, by decide⟩

theorem witness_EveryCommandIsAnsweredOnce :
    (withSink (asked 0x10000000 (grid 1 9 nine [])) [.ok, .fail]).portsAnswer ∧
    (asked 0x10000000 (grid 1 9 nine [])).err.toNat ≤ 4 ∧
    (asked 0x10000000 (grid 1 9 nine [])).host = [.command 0x10000000] :=
  ⟨⟨rfl, rfl, by decide⟩, by decide, rfl⟩

/-- A unit whose ports do not answer. -/
def silent (s : State) : State := { s with vin := ⟨s.vin.queue, .never⟩, bin := ⟨s.bin.queue, .never⟩ }

theorem ready_example : CodecReady (grid 1 9 nine nineBytes) := by unfold CodecReady; decide

theorem ready_largest : CodecReady (grid 262144 262144 [] []) := by unfold CodecReady; decide

/-- The first pull of a PACK unanswered, and its last (width 7, so that six full bytes come before it). -/
theorem witness_SilentPortHangsTheCommand_pack_pull :
    (CodecReady (silent (grid 262144 262144 [] [])) ∧ 0 = (silent (grid 262144 262144 [] [])).vin.queue.length ∧
      0 < gridSize (silent (grid 262144 262144 [] [])) ∧ (silent (grid 262144 262144 [] [])).vin.atEnd = .never ∧
      ∀ a ∈ (silent (grid 262144 262144 [] [])).sink.take (0 * 5 / 8), a = .ok) ∧
    (CodecReady (withSink (silent (grid 2 5 nine [])) [.ok, .ok, .ok, .ok, .ok, .ok, .ok, .fail]) ∧
      9 = (silent (grid 2 5 nine [])).vin.queue.length ∧ 9 < gridSize (silent (grid 2 5 nine [])) ∧
      (silent (grid 2 5 nine [])).vin.atEnd = .never ∧
      ∀ a ∈ [SinkAnswer.ok, .ok, .ok, .ok, .ok, .ok, .ok, .fail].take (9 * 7 / 8), a = .ok) :=
  ⟨⟨by unfold CodecReady; decide, by decide⟩, by unfold CodecReady; decide, by decide⟩

/-- The push of the first byte unanswered, and that of the final partial byte. -/
theorem witness_SilentPortHangsTheCommand_push :
    (CodecReady (withSink (grid 1 9 nine []) [.never]) ∧
      (withSink (grid 1 9 nine []) [.never]).sink = List.replicate 0 .ok ++ .never :: [] ∧
      0 < (gridSize (withSink (grid 1 9 nine []) [.never]) * 5 + 7) / 8 ∧
      2 = min (gridSize (withSink (grid 1 9 nine []) [.never])) ((8 * (0 + 1) + 5 - 1) / 5) ∧
      2 ≤ (withSink (grid 1 9 nine []) [.never]).vin.queue.length) ∧
    (CodecReady (withSink (grid 1 9 nine []) [.ok, .ok, .ok, .ok, .ok, .never]) ∧
      (withSink (grid 1 9 nine []) [.ok, .ok, .ok, .ok, .ok, .never]).sink = List.replicate 5 .ok ++ .never :: [] ∧
      5 < (gridSize (withSink (grid 1 9 nine []) [.ok, .ok, .ok, .ok, .ok, .never]) * 5 + 7) / 8 ∧
      9 = min (gridSize (withSink (grid 1 9 nine []) [.ok, .ok, .ok, .ok, .ok, .never])) ((8 * (5 + 1) + 5 - 1) / 5) ∧
      9 ≤ (withSink (grid 1 9 nine []) [.ok, .ok, .ok, .ok, .ok, .never]).vin.queue.length) :=
  ⟨⟨by unfold CodecReady; decide, by decide⟩, by unfold CodecReady; decide, by decide⟩

/-- The first pull of an UNPACK unanswered, and the pull of its end-of-stream check. -/
theorem witness_SilentPortHangsTheCommand_unpack_pull :
    (CodecReady (silent (grid 262144 262144 [] [])) ∧ 0 = (silent (grid 262144 262144 [] [])).bin.queue.length ∧
      0 < (gridSize (silent (grid 262144 262144 [] [])) * 7 + 7) / 8 ∧
      (silent (grid 262144 262144 [] [])).bin.atEnd = .never) ∧
    (CodecReady (silent (grid 3 3 [] nineBytes)) ∧ 6 = (silent (grid 3 3 [] nineBytes)).bin.queue.length ∧
      6 = (gridSize (silent (grid 3 3 [] nineBytes)) * 5 + 7) / 8 ∧
      (silent (grid 3 3 [] nineBytes)).bin.atEnd = .never) :=
  ⟨⟨by unfold CodecReady; decide, by decide⟩, by unfold CodecReady; decide, by decide⟩

/-- The only pull of the smallest load unanswered, and the last of a nominal one. -/
theorem witness_SilentPortHangsTheCommand_load :
    State.reset.err = 0 ∧ 1 ≤ (1 : Byte).toNat ∧ (3 : Byte).toNat ≤ State.reset.params.nomH.toNat ∧
    (3 : Byte).toNat ≤ State.reset.params.nomW.toNat ∧
    (silent State.reset).vin.queue.length < (1 : Byte).toNat * (1 : Byte).toNat ∧
    (silent (grid 1 1 (bytes [1, 2, 3, 4, 5, 6, 7, 8]) [])).vin.queue.length < (3 : Byte).toNat * (3 : Byte).toNat ∧
    (silent (grid 1 1 (bytes [1, 2, 3, 4, 5, 6, 7, 8]) [])).vin.atEnd = .never := by decide

theorem witness_PackDeliversTheSection : CodecReady (grid 1 9 nine nineBytes) ∧ 9 = gridSize (grid 1 9 nine nineBytes) ∧
    6 = (9 * 5 + 7) / 8 ∧ 8 = (9 * 7 + 7) / 8 ∧ 9 ≤ (grid 1 9 nine nineBytes).vin.queue.length ∧
    ∀ a ∈ (grid 1 9 nine nineBytes).sink.take 8, a = .ok := ⟨ready_example, by decide⟩

theorem witness_SectionHasTheClosedForm : 3 = (8 - nine.length * 5 % 8) % 8 ∧ 1 = (8 - nine.length * 7 % 8) % 8 ∧
    0 = (8 - ([] : List Byte).length * 5 % 8) % 8 := by decide

theorem witness_CodecNeedsDimensions : State.reset.err = 0 ∧ State.reset.height = 0 ∧
    (grid 5 0 [] []).err = 0 ∧ (grid 5 0 [] []).width = 0 ∧
    (grid 262144 262144 [] []).wf = true ∧ (grid 262144 262144 [] []).err = 0 ∧ (grid 262144 262144 [] []).height ≠ 0 ∧
    (grid 262144 262144 [] []).width ≠ 0 := by decide

/-- Short by one value, and short by all. -/
theorem witness_PackShortOfValues :
    (CodecReady (grid 2 5 nine []) ∧ 9 = (grid 2 5 nine []).vin.queue.length ∧ 9 < gridSize (grid 2 5 nine []) ∧
      (grid 2 5 nine []).vin.atEnd = .eos ∧ ∀ a ∈ (grid 2 5 nine []).sink.take (9 * 7 / 8), a = .ok) ∧
    (CodecReady (grid 262144 262144 [] []) ∧ 0 = (grid 262144 262144 [] []).vin.queue.length ∧
      0 < gridSize (grid 262144 262144 [] []) ∧ (grid 262144 262144 [] []).vin.atEnd = .eos ∧
      ∀ a ∈ (grid 262144 262144 [] []).sink.take (0 * 5 / 8), a = .ok) :=
  ⟨⟨by unfold CodecReady; decide, by decide⟩, ready_largest, by decide⟩

/-- The first push refused, and the push of the final partial byte refused (V25 (b), (c)). -/
theorem witness_PackStopsAtARefusedByte :
    (CodecReady (withSink (grid 1 9 nine []) [.fail]) ∧
      (withSink (grid 1 9 nine []) [.fail]).sink = List.replicate 0 .ok ++ .fail :: [] ∧
      0 < (gridSize (withSink (grid 1 9 nine []) [.fail]) * 5 + 7) / 8 ∧
      2 = min (gridSize (withSink (grid 1 9 nine []) [.fail])) ((8 * (0 + 1) + 5 - 1) / 5) ∧
      2 ≤ (withSink (grid 1 9 nine []) [.fail]).vin.queue.length) ∧
    (CodecReady (withSink (grid 1 9 nine []) [.ok, .ok, .ok, .ok, .ok, .fail]) ∧
      (withSink (grid 1 9 nine []) [.ok, .ok, .ok, .ok, .ok, .fail]).sink = List.replicate 5 .ok ++ .fail :: [] ∧
      5 < (gridSize (withSink (grid 1 9 nine []) [.ok, .ok, .ok, .ok, .ok, .fail]) * 5 + 7) / 8 ∧
      9 = min (gridSize (withSink (grid 1 9 nine []) [.ok, .ok, .ok, .ok, .ok, .fail])) ((8 * (5 + 1) + 5 - 1) / 5) ∧
      9 ≤ (withSink (grid 1 9 nine []) [.ok, .ok, .ok, .ok, .ok, .fail]).vin.queue.length) :=
  ⟨⟨by unfold CodecReady; decide, by decide⟩, by unfold CodecReady; decide, by decide⟩

theorem witness_PackIgnoresHighBits : ∃ t, exec .pack5 (grid 1 1 (bytes [40]) []) = .next t := ⟨_, rfl⟩

theorem witness_CodecSeesTheProductOfTheDimensions :
    (∃ t, exec .pack7 (grid 1 9 nine []) = .next t) ∧ (3 : BitVec 19) ≠ 0 ∧ (grid 1 9 nine []).height ≠ 0 ∧
    (grid 1 9 nine []).width ≠ 0 ∧ (3 : BitVec 19).toNat * (3 : BitVec 19).toNat = gridSize (grid 1 9 nine []) :=
  ⟨⟨_, rfl⟩, by decide⟩

/-- With and without the end-of-stream check. -/
theorem witness_UnpackDeliversTheValues : CodecReady (grid 1 9 nine nineBytes) ∧
    9 = gridSize (grid 1 9 nine nineBytes) ∧ 6 = (9 * 5 + 7) / 8 ∧ 6 ≤ (grid 1 9 nine nineBytes).bin.queue.length ∧
    (true = true → (grid 1 9 nine nineBytes).bin.queue.length = 6 ∧ (grid 1 9 nine nineBytes).bin.atEnd = .eos) :=
  ⟨ready_example, by decide⟩

/-- Short by one byte at width 5, and short by all at width 7. -/
theorem witness_UnpackShortOfBytes :
    (CodecReady (grid 1 9 [] (bytes [7, 0xE0, 0x1F, 0x0B, 0xAF])) ∧
      5 = (grid 1 9 [] (bytes [7, 0xE0, 0x1F, 0x0B, 0xAF])).bin.queue.length ∧
      5 < (gridSize (grid 1 9 [] (bytes [7, 0xE0, 0x1F, 0x0B, 0xAF])) * 5 + 7) / 8 ∧
      (grid 1 9 [] (bytes [7, 0xE0, 0x1F, 0x0B, 0xAF])).bin.atEnd = .eos) ∧
    (CodecReady (grid 262144 262144 [] []) ∧ 0 = (grid 262144 262144 [] []).bin.queue.length ∧
      0 < (gridSize (grid 262144 262144 [] []) * 7 + 7) / 8 ∧ (grid 262144 262144 [] []).bin.atEnd = .eos) :=
  ⟨⟨by unfold CodecReady; decide, by decide⟩, ready_largest, by decide⟩

theorem witness_TrailingByteIsBadData : CodecReady (grid 3 3 [] (nineBytes ++ bytes [0x0A])) ∧
    9 = gridSize (grid 3 3 [] (nineBytes ++ bytes [0x0A])) ∧ 6 = (9 * 5 + 7) / 8 ∧
    6 < (grid 3 3 [] (nineBytes ++ bytes [0x0A])).bin.queue.length :=
  ⟨by unfold CodecReady; decide, by decide⟩

theorem witness_UnpackedValuesFitTheWidth : ∃ t, exec (.unpack7 true) (grid 1 1 [] (bytes [0x0B])) = .next t := ⟨_, rfl⟩

theorem witness_UnpackInvertsPack :
    CodecReady (grid 1 1 (bytes [40]) []) ∧
    (∃ t, exec .pack5 (grid 1 1 (bytes [40]) []) = .next t ∧
      t.responses = (grid 1 1 (bytes [40]) []).responses ++ [⟨0, 1⟩] ∧
      t.bout = (grid 1 1 (bytes [40]) []).bout ++ bytes [0x40]) ∧
    CodecReady (grid 1 1 [] (bytes [0x40])) ∧
    (grid 1 1 [] (bytes [0x40])).params.bitOrder = (grid 1 1 (bytes [40]) []).params.bitOrder ∧
    (grid 1 1 [] (bytes [0x40])).height = (grid 1 1 (bytes [40]) []).height ∧
    (grid 1 1 [] (bytes [0x40])).width = (grid 1 1 (bytes [40]) []).width ∧
    (grid 1 1 [] (bytes [0x40])).bin.queue = bytes [0x40] ++ [] ∧ (grid 1 1 [] (bytes [0x40])).bin.atEnd = .eos :=
  ⟨by unfold CodecReady; decide, ⟨_, rfl, rfl, rfl⟩, by unfold CodecReady; decide, by decide⟩

theorem witness_WorkingRegistersStayInRange :
    (grid 1 1 (bytes [5]) (bytes [0x28])).err = 0 ∧ (grid 1 1 (bytes [5]) (bytes [0x28])).height ≠ 0 ∧
    (grid 1 1 (bytes [5]) (bytes [0x28])).width ≠ 0 ∧
    (∃ t, exec .pack7 (grid 1 1 (bytes [5]) (bytes [0x28])) = .next t) ∧
    ∃ t, exec (.unpack5 false) (grid 1 1 (bytes [5]) (bytes [0x28])) = .next t :=
  ⟨by decide, by decide, by decide, ⟨_, rfl⟩, ⟨_, rfl⟩⟩

/-- The engine at the start of a command meets the invariant, and its first table step goes on. -/
theorem witness_TableStepsKeepTheCodecInvariant :
    InStep (writeTable .msbFirst .w5) 5 8 (fun acc q => byteBit .msbFirst acc q = false)
      (Engine.start State.reset ⟨bytes [5, 6], .eos⟩ []) ∧
    (∃ m, packStep .msbFirst .w5 (Engine.start State.reset ⟨bytes [5, 6], .eos⟩ []) = .going m) ∧
    InStep (readTable .lsbFirst .w7) 8 7 (fun acc q => valueBit .lsbFirst 7 acc q = false)
      (Engine.start State.reset ⟨bytes [5, 6], .eos⟩ []) ∧
    ∃ m, unpackStep .lsbFirst .w7 (Engine.start State.reset ⟨bytes [5, 6], .eos⟩ []) = .going m :=
  ⟨⟨by decide, by decide, by decide, fun q _ _ => by simp [Engine.start, byteBit]⟩, ⟨_, rfl⟩,
    ⟨by decide, by decide, by decide, fun q _ _ => by simp [Engine.start, valueBit]⟩, ⟨_, rfl⟩⟩

theorem witness_TablesFollowTheSegmentRule :
    BitOrder.lsbFirst ∈ [BitOrder.msbFirst, .lsbFirst] ∧ Width.w7 ∈ [Width.w5, .w7] := by decide

theorem witness_ReadTableInvertsWriteTable : 0 < Width.w5.cycle ∧ 13 < Width.w7.cycle := by decide

theorem witness_RunningSumsMeetTheBoundaries : 0 < Width.w5.cycle ∧ 11 < Width.w5.cycle ∧
    6 < startOf (writeTable .msbFirst .w5) (1 + 1) ∧ startOf (writeTable .msbFirst .w5) 1 < 6 := by decide

theorem witness_TableEntriesAreSound : ⟨0x1F, -3, 5⟩ ∈ writeTable .msbFirst .w5 ∧ ⟨0xFE, 1, 7⟩ ∈ readTable .lsbFirst .w7 := by
  decide

/-- The two ends of the domain of `dshift`, and its middle. -/
theorem witness_DirectionalShift : (-7 : Int) ≤ -7 ∧ (-7 : Int) < 0 ∧ (0 : Int) = 0 ∧ (7 : Int) ≤ 7 ∧ (0 : Int) < 7 := by
  decide

/-- The smallest tile, and the nominal one. -/
theorem witness_LoadFillsTheBuffer : State.reset.err = 0 ∧ State.reset.ta.cells.length = State.reset.params.area ∧
    State.reset.tb.cells.length = State.reset.params.area ∧
    (1 ≤ (1 : Byte).toNat ∧ (1 : Byte).toNat ≤ State.reset.params.nomH.toNat ∧
      1 * 1 ≤ (grid 1 1 (bytes [200]) []).vin.queue.length) ∧
    (1 ≤ (3 : Byte).toNat ∧ (3 : Byte).toNat ≤ State.reset.params.nomH.toNat ∧
      (3 : Byte).toNat ≤ State.reset.params.nomW.toNat ∧ 3 * 3 ≤ (grid 1 1 nine []).vin.queue.length) := by decide

theorem witness_LoadOfBadDimensions : State.reset.err = 0 ∧ State.reset.params.nomH.toNat < (4 : Byte).toNat ∧
    State.reset.params.nomW.toNat < (255 : Byte).toNat ∧ (0 : Byte) = 0 := by decide

/-- Short by one element, and short by all. -/
theorem witness_LoadShortOfElements : State.reset.err = 0 ∧ 1 ≤ (3 : Byte).toNat ∧
    (3 : Byte).toNat ≤ State.reset.params.nomH.toNat ∧ (3 : Byte).toNat ≤ State.reset.params.nomW.toNat ∧
    (grid 1 1 (bytes [1, 2, 3, 4, 5, 6, 7, 8]) []).vin.queue.length < (3 : Byte).toNat * (3 : Byte).toNat ∧
    State.reset.vin.queue.length < (1 : Byte).toNat * (1 : Byte).toNat ∧ State.reset.vin.atEnd = .eos := by decide

/-- Two full tiles in form. -/
def twoTiles : State := tiles (tile [1, 2, 3, 4, 5, 6, 7, 8, 9]) (tile [9, 8, 7, 6, 5, 4, 3, 2, 1])

theorem witness_TsumIsTheSumOfTheCells : twoTiles.err = 0 ∧ twoTiles.ta.valid = true ∧
    twoTiles.ta.wf twoTiles.params = true := by decide

theorem witness_TavgRoundsOverTheNominalArea : twoTiles.err = 0 ∧ twoTiles.ta.valid = true ∧
    twoTiles.params.wf = true ∧ 9 = twoTiles.params.area ∧ twoTiles.ta.wf twoTiles.params = true := by decide

/-- V42: at an even nominal area an exact half exists, and rounds upward. -/
theorem witness_TavgRoundsAHalf :
    cellSum ⟨.msbFirst, 2, 2⟩ ⟨true, 2, 2, bytes [0, 1, 1, 0]⟩ = 2 ∧ 2 * 2 % (2 * 4) = 4 ∧
    look said (exec .tavg { State.reset with params := ⟨.msbFirst, 2, 2⟩, ta := ⟨true, 2, 2, bytes [0, 1, 1, 0]⟩ }) =
      some (some (0, 1)) := ⟨rfl, rfl, rfl⟩

theorem witness_TdiffIsTheL1Distance : twoTiles.err = 0 ∧ twoTiles.ta.valid = true ∧ twoTiles.tb.valid = true ∧
    twoTiles.ta.h = twoTiles.tb.h ∧ twoTiles.ta.w = twoTiles.tb.w ∧ twoTiles.ta.wf twoTiles.params = true := by decide

theorem witness_TdsumIsTheSignedSum : twoTiles.err = 0 ∧ twoTiles.ta.valid = true ∧ twoTiles.tb.valid = true ∧
    twoTiles.ta.h = twoTiles.tb.h ∧ twoTiles.ta.w = twoTiles.tb.w ∧ twoTiles.ta.wf twoTiles.params = true := by decide

theorem witness_StatisticsNeedValidTiles : State.reset.err = 0 ∧ State.reset.ta.valid = false ∧
    (tiles (tile []) noTile).err = 0 ∧ (tiles (tile []) noTile).tb.valid = false := by decide

theorem witness_ShapesMustAgree :
    ((tiles (tile []) (edgeTile [])).err = 0 ∧
      (tiles (tile []) (edgeTile [])).ta.h ≠ (tiles (tile []) (edgeTile [])).tb.h ∧
      (tiles (tile []) (edgeTile [])).ta.valid = true ∧ (tiles (tile []) (edgeTile [])).tb.valid = true) ∧
    (tiles (tile []) noTile).err = 0 ∧ (tiles (tile []) noTile).ta.w ≠ (tiles (tile []) noTile).tb.w ∧
    (tiles (tile []) noTile).tb.valid = false := by decide

/-- An edge tile with other cells below it, and an invalid buffer with other cells. -/
theorem witness_UnusedCellsDoNotMatter :
    (∃ t, exec .tsum (tiles (edgeTile [1, 2, 3, 4, 5, 6, 0, 0, 0]) noTile) = .next t) ∧
    (∀ r < 2, ∀ c < 3, TileBuf.cell Params.default (edgeTile [1, 2, 3, 4, 5, 6, 7, 8, 9]) r c =
      TileBuf.cell Params.default (edgeTile [1, 2, 3, 4, 5, 6, 0, 0, 0]) r c) ∧ noTile.valid = false := by
  refine ⟨⟨_, rfl⟩, ?_, rfl⟩
  intro r hr c hc
  interval_cases r <;> interval_cases c <;> rfl

theorem witness_ConstantNominalTileAveragesToItself :
    (tiles (tile [5, 5, 5, 5, 5, 5, 5, 5, 5]) noTile).err = 0 ∧
    (tiles (tile [5, 5, 5, 5, 5, 5, 5, 5, 5]) noTile).params.wf = true ∧ (tile [5, 5, 5, 5, 5, 5, 5, 5, 5]).valid = true ∧
    (tile [5, 5, 5, 5, 5, 5, 5, 5, 5]).h = Params.default.nomH ∧
    (tile [5, 5, 5, 5, 5, 5, 5, 5, 5]).w = Params.default.nomW ∧
    ∀ r < 3, ∀ c < 3, TileBuf.cell Params.default (tile [5, 5, 5, 5, 5, 5, 5, 5, 5]) r c = 5 := by
  refine ⟨rfl, rfl, rfl, rfl, rfl, ?_⟩
  intro r hr c hc
  interval_cases r <;> interval_cases c <;> rfl

/-- A command that writes a register, one that writes a buffer, one that writes the counters. -/
theorem witness_RegistersChangeOnlyByTheirWriters :
    (∃ t, exec (.seth 3) State.reset = .next t ∧ t.height ≠ State.reset.height) ∧
    (∃ t, exec (.setw 3) State.reset = .next t ∧ t.width ≠ State.reset.width) ∧
    (∃ t, exec .tsum twoTiles = .next t ∧ t.res ≠ twoTiles.res) ∧
    (∃ t, exec .pack5 (grid 1 9 nine []) = .next t ∧ t.vcnt ≠ (grid 1 9 nine []).vcnt ∧
      t.step ≠ (grid 1 9 nine []).step) ∧
    (∃ t, exec (.lda 1 1) (grid 1 1 nine []) = .next t ∧ t.ta ≠ (grid 1 1 nine []).ta) ∧
    ∃ t, exec (.ldb 1 1) (grid 1 1 nine []) = .next t ∧ t.tb ≠ (grid 1 1 nine []).tb :=
  ⟨⟨_, rfl, by decide⟩, ⟨_, rfl, by decide⟩, ⟨_, rfl, by decide⟩, ⟨_, rfl, by decide⟩, ⟨_, rfl, by decide⟩,
    ⟨_, rfl, by decide⟩⟩

theorem witness_PortsAreFifosOfTheirUsers :
    (∃ t, exec .pack5 (grid 1 9 nine []) = .next t ∧ t.vin ≠ (grid 1 9 nine []).vin ∧ t.bout ≠ (grid 1 9 nine []).bout) ∧
    ∃ t, exec (.unpack5 true) (grid 1 9 [] nineBytes) = .next t ∧ t.bin ≠ (grid 1 9 [] nineBytes).bin ∧
      t.vout ≠ (grid 1 9 [] nineBytes).vout :=
  ⟨⟨_, rfl, by decide⟩, ⟨_, rfl, by decide⟩⟩

theorem witness_EveryStepKeepsTheInvariant :
    (asked 0x10000000 (grid 1 9 nine [])).wf = true ∧ ∃ t, step (asked 0x10000000 (grid 1 9 nine [])) = .next t :=
  ⟨by decide, ⟨_, rfl⟩⟩

theorem witness_ParametersNeverChange : ∃ t, step (asked 0x05000000 State.reset) = .next t := ⟨_, rfl⟩

/-- A command that fails after two pushes, and one that succeeds. -/
theorem witness_OutputOfAFailedCommandIsVoid :
    (∃ t, exec .pack5 (withSink (grid 1 9 nine []) [.ok, .ok, .fail]) = .next t ∧ t.bout ≠ []) ∧
    ∃ t, exec .pack5 (grid 1 9 nine []) = .next t ∧ t.bout ≠ [] :=
  ⟨⟨_, rfl, by decide⟩, ⟨_, rfl, by decide⟩⟩

end Sys2Proof.Tests
end

/-! SUPPORT. What one step can do, said once: how a command that goes on ends and what it has written by then, what an
action of the host changes. The invariant and the constancy of the parameters follow. -/

namespace Sys2Proof.Machine

open Sys2Proof

/-! ## The step -/

theorem step_idle {s : State} (h : s.host = []) : step s = .next s := by
  simp [step, takeAction, h]

theorem step_action {s : State} {a : HostAction} {rest : List HostAction} (h : s.host = a :: rest) :
    step s = hostAct a { s with host := rest } := by
  simp [step, takeAction, h]

theorem answerWord_legal {x : Command} {i : Instr} (hx : decode x = .ok i) (s : State) :
    answerWord x s = exec i s := by
  simp [answerWord, hx]

theorem step_command {s : State} {x : Command} {rest : List HostAction} {i : Instr}
    (h : s.host = .command x :: rest) (hx : decode x = .ok i) : step s = exec i { s with host := rest } :=
  (step_action h).trans (answerWord_legal hx _)

theorem withFetchWord_toNat (s : State) (x : Command) : s.withFetchWord 32 x.toNat = presentWord x s := by
  rw [State.withFetchWord, Nat.mod_eq_of_lt x.isLt, BitVec.ofNat_toNat, BitVec.setWidth_eq]

/-! ## What a command writes -/

/-- The stretch has ended with the engine `m`, in success or with an error. -/
def Run.EndsWith (r : Run) (m : Engine) : Prop := r = .going m ∨ ∃ k, r = .raised k m

theorem Run.All.of_endsWith {P : Engine → Prop} {r : Run} {m : Engine} (h : r.All P) (hm : r.EndsWith m) : P m := by
  rcases hm with rfl | ⟨k, rfl⟩
  · exact h
  · exact h

/-- A load of `th` by `tw` turns the buffer `t` into `t'` (43_tile_stats R201 to R203): a tile of dimensions in range, or
no tile. -/
def TileBuf.Loads (p : Params) (th tw : Byte) (t t' : TileBuf) : Prop :=
  t'.cells.length = t.cells.length ∧
  ((tileDimsInRange p th tw = true ∧ t'.valid = true ∧ t'.h = th ∧ t'.w = tw) ∨
    (t'.valid = false ∧ t'.h = 0 ∧ t'.w = 0))

/-- What the command `i` can have written, from `s` to `s'`, when it returns its response: nothing or, each by its own
commands, one register, the reset values, one tile buffer, or the codec's registers. -/
inductive Writes : Instr → State → State → Prop
  | nothing (i : Instr) (s : State) : Writes i s s
  | height {imm : BitVec 24} (s : State) (himm : dimInRange imm = true) :
      Writes (.seth imm) s { s with height := imm.setWidth 19 }
  | width {imm : BitVec 24} (s : State) (himm : dimInRange imm = true) :
      Writes (.setw imm) s { s with width := imm.setWidth 19 }
  | latch (s : State) : Writes .clrerr s (clearError s)
  | reset (s : State) : Writes .sreset s (resetUnit s)
  | packed {i : Instr} {w : Width} {s : State} {m : Engine} (hi : (i = .pack5 ∧ w = .w5) ∨ (i = .pack7 ∧ w = .w7))
      (hm : (packRun s.params.bitOrder w (s.height.toNat * s.width.toNat)
        (Engine.start s s.vin s.bout)).EndsWith m) : Writes i s (storePack m s)
  | unpacked {i : Instr} {w : Width} {e : Bool} {s : State} {m : Engine}
      (hi : (i = .unpack5 e ∧ w = .w5) ∨ (i = .unpack7 e ∧ w = .w7))
      (hm : (unpackRun s.params.bitOrder w (s.height.toNat * s.width.toNat) e
        (Engine.start s s.bin s.vout)).EndsWith m) : Writes i s (storeUnpack m s)
  | tileA {th tw : Byte} {s : State} {t : TileBuf} (k : Nat) (ht : TileBuf.Loads s.params th tw s.ta t) :
      Writes (.lda th tw) s { s with ta := t, vin := ⟨s.vin.queue.drop k, s.vin.atEnd⟩ }
  | tileB {th tw : Byte} {s : State} {t : TileBuf} (k : Nat) (ht : TileBuf.Loads s.params th tw s.tb t) :
      Writes (.ldb th tw) s { s with tb := t, vin := ⟨s.vin.queue.drop k, s.vin.atEnd⟩ }
  | result {i : Instr} (s : State) (v : BitVec 64) (hi : i = .tsum ∨ i = .tavg ∨ i = .tdiff ∨ i = .tdsum) :
      Writes i s { s with res := v }

/-- How a command that goes on ends: refused by the latch, answered, or with an error raised over what it has written. -/
inductive Ends (i : Instr) (s : State) : State → Prop
  | refused (hi : i.alwaysExecuted = false) (he : s.err ≠ 0) : Ends i s (refuse s)
  | answered {s' : State} (hw : Writes i s s') (v : BitVec 64) : Ends i s (respond 0 v s')
  | failed {s' : State} (hw : Writes i s s') (k : ErrKind) : Ends i s (raise k s')

section

variable {i : Instr} {s t : State}

theorem unlessLatched_ends {run : State → Result} (hi : i.alwaysExecuted = false)
    (h : unlessLatched s run = .next t) (hrun : run s = .next t → Ends i s t) : Ends i s t := by
  rcases unlessLatched_next h with ⟨he, rfl⟩ | ⟨-, h⟩
  · exact .refused hi he
  · exact hrun h

theorem execSeth_ends {imm : BitVec 24} (h : execSeth imm s = .next t) : Ends (.seth imm) s t := by
  refine unlessLatched_ends rfl h fun h => ?_
  split at h <;> cases h
  · exact .answered (.height s ‹_›) 0
  · exact .failed (.nothing _ s) _

theorem execSetw_ends {imm : BitVec 24} (h : execSetw imm s = .next t) : Ends (.setw imm) s t := by
  refine unlessLatched_ends rfl h fun h => ?_
  split at h <;> cases h
  · exact .answered (.width s ‹_›) 0
  · exact .failed (.nothing _ s) _

theorem execGetreg_ends {r : BitVec 8} (h : execGetreg r s = .next t) : Ends (.getreg r) s t := by
  unfold execGetreg at h
  split at h <;> cases h
  · exact .answered (.nothing _ s) _
  · exact .failed (.nothing _ s) _

theorem packCommand_ends {w : Width} (hi : (i = .pack5 ∧ w = .w5) ∨ (i = .pack7 ∧ w = .w7))
    (h : packCommand w s = .next t) : Ends i s t := by
  rcases packCommand_next h with ⟨he, rfl⟩ | ⟨-, -, rfl⟩ | ⟨-, -, -, m, ⟨hr, rfl⟩ | ⟨k, hr, rfl⟩⟩
  · exact .refused (by rcases hi with ⟨rfl, -⟩ | ⟨rfl, -⟩ <;> rfl) he
  · exact .failed (.nothing i s) _
  · exact .answered (.packed hi (.inl hr)) _
  · exact .failed (.packed hi (.inr ⟨k, hr⟩)) _

theorem unpackCommand_ends {w : Width} {e : Bool} (hi : (i = .unpack5 e ∧ w = .w5) ∨ (i = .unpack7 e ∧ w = .w7))
    (h : unpackCommand w e s = .next t) : Ends i s t := by
  rcases unpackCommand_next h with ⟨he, rfl⟩ | ⟨-, -, rfl⟩ | ⟨-, -, -, m, ⟨hr, rfl⟩ | ⟨k, hr, rfl⟩⟩
  · exact .refused (by rcases hi with ⟨rfl, -⟩ | ⟨rfl, -⟩ <;> rfl) he
  · exact .failed (.nothing i s) _
  · exact .answered (.unpacked hi (.inl hr)) _
  · exact .failed (.unpacked hi (.inr ⟨k, hr⟩)) _

theorem loads_tile {p : Params} {th tw : Byte} {b : TileBuf} {cells : List Byte}
    (hlen : cells.length = b.cells.length) (hd : tileDimsInRange p th tw = true) :
    TileBuf.Loads p th tw b { valid := true, h := th, w := tw, cells := cells } :=
  ⟨hlen, .inl ⟨hd, rfl, rfl, rfl⟩⟩

theorem loads_none {p : Params} {th tw : Byte} {b : TileBuf} {cells : List Byte}
    (hlen : cells.length = b.cells.length) :
    TileBuf.Loads p th tw b { b.invalidate with cells := cells } :=
  ⟨hlen, .inr ⟨rfl, rfl, rfl⟩⟩

/-- How a load that goes on can end (43_tile_stats R219): elements taken from the head of VIN and the buffer `b` stored
back as a tile or as none, in success or BadData. -/
theorem loadTile_next {put : TileBuf → State → State} {b : TileBuf} {th tw : Byte}
    (h : loadTile put b th tw s = .next t) :
    ∃ (b' : TileBuf) (k : Nat), TileBuf.Loads s.params th tw b b' ∧
      (t = respond 0 0 (put b' { s with vin := ⟨s.vin.queue.drop k, s.vin.atEnd⟩ }) ∨
        t = raise .badData (put b' { s with vin := ⟨s.vin.queue.drop k, s.vin.atEnd⟩ })) := by
  unfold loadTile at h
  split at h
  · rename_i hd
    have hlen := writeCells_length s.params (positions th.toNat tw.toNat) s.vin.queue b.cells
    rcases fillCells_cases s.params (positions th.toNat tw.toNat) b.cells s.vin with
      ⟨-, hf⟩ | ⟨hlt, hend, hf⟩ | ⟨-, -, hf⟩ <;> rw [hf] at h <;> cases h
    · exact ⟨_, _, loads_tile hlen hd, .inl rfl⟩
    · refine ⟨_, s.vin.queue.length, loads_none hlen, .inr ?_⟩
      rw [List.drop_length, hend]
  · cases h
    exact ⟨_, 0, loads_none rfl, .inr rfl⟩

theorem execLda_ends {th tw : Byte} (h : execLda th tw s = .next t) : Ends (.lda th tw) s t := by
  refine unlessLatched_ends rfl h fun h => ?_
  obtain ⟨b, k, hb, rfl | rfl⟩ := loadTile_next h
  · exact .answered (.tileA k hb) 0
  · exact .failed (.tileA k hb) _

theorem execLdb_ends {th tw : Byte} (h : execLdb th tw s = .next t) : Ends (.ldb th tw) s t := by
  refine unlessLatched_ends rfl h fun h => ?_
  obtain ⟨b, k, hb, rfl | rfl⟩ := loadTile_next h
  · exact .answered (.tileB k hb) 0
  · exact .failed (.tileB k hb) _

theorem withTileA_ends {v : State → BitVec 64} (hi : i = .tsum ∨ i = .tavg)
    (h : withTileA s (fun s => answerStat (v s) s) = .next t) : Ends i s t := by
  refine unlessLatched_ends (by rcases hi with rfl | rfl <;> rfl) h fun h => ?_
  split at h <;> cases h
  · exact .answered (.result s _ (by tauto)) _
  · exact .failed (.nothing i s) _

theorem withBothTiles_ends {v : State → BitVec 64} (hi : i = .tdiff ∨ i = .tdsum)
    (h : withBothTiles s (fun s => answerStat (v s) s) = .next t) : Ends i s t := by
  refine unlessLatched_ends (by rcases hi with rfl | rfl <;> rfl) h fun h => ?_
  split at h
  · split at h <;> cases h
    · exact .answered (.result s _ (by tauto)) _
    · exact .failed (.nothing i s) _
  · cases h
    exact .failed (.nothing i s) _

/-- Every command that goes on ends with one response over what it may write. -/
theorem exec_ends (h : exec i s = .next t) : Ends i s t := by
  cases i with
  | nop => cases h; exact .answered (.nothing _ s) 0
  | seth imm => exact execSeth_ends h
  | setw imm => exact execSetw_ends h
  | getreg r => exact execGetreg_ends h
  | clrerr => cases h; exact .answered (.latch s) 0
  | sreset => cases h; exact .answered (.reset s) 0
  | pack5 => exact packCommand_ends (.inl ⟨rfl, rfl⟩) h
  | pack7 => exact packCommand_ends (.inr ⟨rfl, rfl⟩) h
  | unpack5 e => exact unpackCommand_ends (.inl ⟨rfl, rfl⟩) h
  | unpack7 e => exact unpackCommand_ends (.inr ⟨rfl, rfl⟩) h
  | lda th tw => exact execLda_ends h
  | ldb th tw => exact execLdb_ends h
  | tsum => exact withTileA_ends (v := fun s => BitVec.ofNat 64 (tileSum s.params s.ta)) (.inl rfl) h
  | tavg => exact withTileA_ends (v := fun s => BitVec.ofNat 64 (tileAverage s.params s.ta)) (.inr rfl) h
  | tdiff => exact withBothTiles_ends (v := fun s => BitVec.ofNat 64 (tileL1 s.params s.ta s.tb)) (.inl rfl) h
  | tdsum => exact withBothTiles_ends (v := fun s => BitVec.ofInt 64 (tileDiffSum s.params s.ta s.tb)) (.inr rfl) h

/-! ## What an action of the host changes -/

/-- A command word that goes on was a command, or was illegal and is answered BadCommand (60_exceptions R262). -/
theorem answerWord_next {x : Command} (h : answerWord x s = .next t) :
    (∃ i, decode x = .ok i ∧ Ends i s t) ∨ t = raise .badCommand s := by
  unfold answerWord at h
  split at h
  · exact .inl ⟨_, ‹_›, exec_ends h⟩
  · cases h; exact .inr rfl

/-- An action of the host is a command word, a reset, or touches the ports only (70_reset_and_hazards R309). -/
theorem hostAct_next {a : HostAction} (h : hostAct a s = .next t) :
    (∃ x, a = .command x ∧ answerWord x s = .next t) ∨ (a = .reset ∧ t = resetUnit s) ∨
    ∃ vin bin sink, t = { s with vin := vin, bin := bin, sink := sink } := by
  cases a with
  | command x => exact .inl ⟨x, rfl, h⟩
  | reset => cases h; exact .inr (.inl ⟨rfl, rfl⟩)
  | queueVin xs | queueBin xs | dropVin k | dropBin k | endVin e | endBin e | sinkAnswers answers =>
    cases h; exact .inr (.inr ⟨_, _, _, rfl⟩)

/-- What a step that goes on can do: wait, run a command, answer an illegal word, reset, or change the ports. -/
theorem step_next (h : step s = .next t) :
    t = s ∨ ∃ rest, (∃ i, Ends i { s with host := rest } t) ∨ t = raise .badCommand { s with host := rest } ∨
      t = resetUnit { s with host := rest } ∨
      ∃ vin bin sink, t = { s with host := rest, vin := vin, bin := bin, sink := sink } := by
  cases hh : s.host with
  | nil =>
    rw [step_idle hh] at h
    cases h
    exact .inl rfl
  | cons a rest =>
    rw [step_action hh] at h
    refine .inr ⟨rest, ?_⟩
    rcases hostAct_next h with ⟨x, -, h⟩ | ⟨-, h⟩ | h
    · rcases answerWord_next h with ⟨i, -, h⟩ | h
      · exact .inl ⟨i, h⟩
      · exact .inr (.inl h)
    · exact .inr (.inr (.inl h))
    · exact .inr (.inr (.inr h))

/-! ## The parameters -/

theorem Writes.params_eq (h : Writes i s t) : t.params = s.params := by
  cases h <;> rfl

theorem Ends.params_eq (h : Ends i s t) : t.params = s.params := by
  cases h with
  | refused => rfl
  | answered hw => exact hw.params_eq
  | failed hw => exact hw.params_eq

/-! ## The invariant -/

/-- The invariant `State.wf`, clause by clause. -/
structure State.InForm (s : State) : Prop where
  params : s.params.wf = true
  height : s.height.toNat ≤ Config.dimMax
  width : s.width.toNat ≤ Config.dimMax
  err : s.err.toNat ≤ 4
  vcnt : s.vcnt.toNat ≤ 2 ^ 36
  bcnt : s.bcnt.toNat ≤ 7 * 2 ^ 33
  ta : s.ta.wf s.params = true
  tb : s.tb.wf s.params = true
  responses : ∀ r ∈ s.responses, r.wf = true

theorem wf_iff_inForm : s.wf = true ↔ s.InForm := by
  simp only [State.wf, Bool.and_eq_true, decide_eq_true_eq, List.all_eq_true]
  constructor
  · rintro ⟨⟨⟨⟨⟨⟨⟨⟨hp, hh⟩, hw⟩, he⟩, hv⟩, hb⟩, hta⟩, htb⟩, hr⟩
    exact ⟨hp, hh, hw, he, hv, hb, hta, htb, hr⟩
  · rintro ⟨hp, hh, hw, he, hv, hb, hta, htb, hr⟩
    exact ⟨⟨⟨⟨⟨⟨⟨⟨hp, hh⟩, hw⟩, he⟩, hv⟩, hb⟩, hta⟩, htb⟩, hr⟩

/-! ### Tile buffers -/

theorem tileBuf_wf_iff {p : Params} {b : TileBuf} :
    b.wf p = true ↔ b.cells.length = p.area ∧
      ((b.valid = true ∧ tileDimsInRange p b.h b.w = true) ∨ (b.valid = false ∧ b.h = 0 ∧ b.w = 0)) := by
  cases hv : b.valid <;> simp [TileBuf.wf, hv]

theorem blank_wf (p : Params) (f : Nat → Byte) : (TileBuf.blank p f).wf p = true :=
  tileBuf_wf_iff.2 ⟨blank_cells_length p f, .inr ⟨rfl, rfl, rfl⟩⟩

theorem TileBuf.Loads.wf {p : Params} {th tw : Byte} {b b' : TileBuf} (h : TileBuf.Loads p th tw b b')
    (hb : b.wf p = true) : b'.wf p = true := by
  obtain ⟨hlen, hcase⟩ := h
  refine tileBuf_wf_iff.2 ⟨hlen.trans (tileBuf_wf_iff.1 hb).1, ?_⟩
  rcases hcase with ⟨hd, hv, rfl, rfl⟩ | hnone
  · exact .inl ⟨hv, hd⟩
  · exact .inr hnone

/-! ### Responses and the latch -/

theorem success_wf (v : BitVec 64) : Response.wf ⟨0, v⟩ = true := by
  simp [Response.wf]

theorem failure_wf {e : BitVec 8} (he : e.toNat ≤ 4) : Response.wf ⟨e, 0⟩ = true := by
  simp [Response.wf, he]

theorem latchAfter_le_four (k : ErrKind) {e : BitVec 8} (he : e.toNat ≤ 4) : (latchAfter k e).toNat ≤ 4 := by
  by_cases h : e = 0
  · rw [latchAfter_clear k h]; exact code_le_four k
  · rwa [latchAfter_set k h]

theorem State.InForm.respond {e : BitVec 8} {v : BitVec 64} (h : s.InForm) (hr : Response.wf ⟨e, v⟩ = true) :
    (Machine.respond e v s).InForm :=
  { h with responses := List.forall_mem_append.2 ⟨h.responses, List.forall_mem_singleton.2 hr⟩ }

theorem State.InForm.refuse (h : s.InForm) : (Machine.refuse s).InForm :=
  h.respond (failure_wf h.err)

theorem State.InForm.raise (h : s.InForm) (k : ErrKind) : (Machine.raise k s).InForm :=
  State.InForm.respond { h with err := latchAfter_le_four k h.err } (failure_wf (code_le_four k))

theorem State.InForm.resetUnit (h : s.InForm) : (Machine.resetUnit s).InForm :=
  { h with
    height := Nat.zero_le _, width := Nat.zero_le _, err := Nat.zero_le _, vcnt := Nat.zero_le _, bcnt := Nat.zero_le _
    ta := blank_wf _ _, tb := blank_wf _ _ }

/-! ### What a command writes -/

theorem dimInRange_setWidth_le {imm : BitVec 24} (h : dimInRange imm = true) :
    (imm.setWidth 19).toNat ≤ Config.dimMax := by
  rw [BitVec.toNat_setWidth]
  exact (Nat.mod_le _ _).trans (of_decide_eq_true h).2

theorem State.InForm.valueCount_le (h : s.InForm) : s.height.toNat * s.width.toNat ≤ 2 ^ 36 :=
  (Nat.mul_le_mul h.height h.width).trans (by decide)

/-- Counters within the section are within one command's reach (41_pack R175). -/
theorem Counted.within_reach {w : Width} {n : Nat} {m : Engine} (h : Counted w n m) (hn : n ≤ 2 ^ 36) :
    m.vcnt.toNat ≤ 2 ^ 36 ∧ m.bcnt.toNat ≤ 7 * 2 ^ 33 := by
  obtain ⟨hv, hb⟩ := h
  have hbits : n * w.bits ≤ 2 ^ 36 * 7 := Nat.mul_le_mul hn (by cases w <;> decide)
  omega

theorem Writes.inForm (h : Writes i s t) (hs : s.InForm) : t.InForm := by
  cases h with
  | nothing => exact hs
  | height _ himm => exact { hs with height := dimInRange_setWidth_le himm }
  | width _ himm => exact { hs with width := dimInRange_setWidth_le himm }
  | latch => exact { hs with err := Nat.zero_le _ }
  | reset => exact hs.resetUnit
  | packed _ hm =>
    have hc := (packRun_counted hs.valueCount_le (packing_start ..)).of_endsWith hm
    obtain ⟨hv, hb⟩ := hc.within_reach hs.valueCount_le
    exact { hs with vcnt := hv, bcnt := hb }
  | unpacked _ hm =>
    have hc := (unpackRun_counted hs.valueCount_le (unpacking_start ..)).of_endsWith hm
    obtain ⟨hv, hb⟩ := hc.within_reach hs.valueCount_le
    exact { hs with vcnt := hv, bcnt := hb }
  | tileA _ ht => exact { hs with ta := ht.wf hs.ta }
  | tileB _ ht => exact { hs with tb := ht.wf hs.tb }
  | result => exact { hs with }

theorem Ends.inForm (h : Ends i s t) (hs : s.InForm) : t.InForm := by
  cases h with
  | refused => exact hs.refuse
  | answered hw v => exact (hw.inForm hs).respond (success_wf v)
  | failed hw k => exact (hw.inForm hs).raise k

theorem step_inForm (h : step s = .next t) (hs : s.InForm) : t.InForm := by
  rcases step_next h with rfl | ⟨rest, hcase⟩
  · exact hs
  have hs' : State.InForm { s with host := rest } := { hs with }
  rcases hcase with ⟨i, hi⟩ | rfl | rfl | ⟨vin, bin, sink, rfl⟩
  · exact hi.inForm hs'
  · exact hs'.raise .badCommand
  · exact hs'.resetUnit
  · exact { hs with }

end

/-! ## The statements of 00_scope -/

/-- Settles O55: `State.InForm` goes through every write a command ends with and every action of the host. -/
theorem everyStepKeepsTheInvariant : Obligations.EveryStepKeepsTheInvariant := by
  unfold Obligations.EveryStepKeepsTheInvariant
  intro s t hs h
  exact wf_iff_inForm.2 (step_inForm h (wf_iff_inForm.1 hs))

/-- Settles O57: nothing that a step can do writes the parameters. -/
theorem parametersNeverChange : Obligations.ParametersNeverChange := by
  unfold Obligations.ParametersNeverChange
  intro s t h
  rcases step_next h with rfl | ⟨rest, ⟨i, hi⟩ | rfl | rfl | ⟨vin, bin, sink, rfl⟩⟩
  · rfl
  · exact hi.params_eq
  · rfl
  · rfl
  · rfl

/-- Settles O7: a presented word reaches `exec` through `answerWord`, and `withFetchWord` presents exactly that word. -/
theorem stepRunsTheDecodedCommand : Obligations.StepRunsTheDecodedCommand := by
  unfold Obligations.StepRunsTheDecodedCommand
  refine ⟨fun s x rest i h hx => step_command h hx, fun s x i hx => ?_⟩
  rw [withFetchWord_toNat, step_command (presentWord_host x s) hx]
  rfl

/-- Settles O8: with no action pending the step waits. -/
theorem waitingUnitDoesNotChange : Obligations.WaitingUnitDoesNotChange := by
  unfold Obligations.WaitingUnitDoesNotChange
  exact fun s h => step_idle h

end Sys2Proof.Machine

/-! SUPPORT. What the whole command set leaves alone: the error latch, each register outside its writers, and the cells no
statistic reads; the state after reset (10_state R35 to R47, R55). -/

namespace Sys2Proof.Machine

open Sys2Proof

section

variable {i : Instr} {s t : State}

/-! ## The error latch -/

theorem Writes.responses_eq (h : Writes i s t) : t.responses = s.responses := by
  cases h <;> rfl

/-- Only CLRERR and SRESET write the latch other than by raising (10_state R37, 60_exceptions R264). -/
theorem Writes.err_eq (h : Writes i s t) (hc : i ≠ .clrerr) (hr : i ≠ .sreset) : t.err = s.err := by
  cases h with
  | latch => exact absurd rfl hc
  | reset => exact absurd rfl hr
  | _ => rfl

theorem raise_err_set (k : ErrKind) (h : s.err ≠ 0) : (raise k s).err = s.err :=
  latchAfter_set k h

theorem raise_err_clear (k : ErrKind) (h : s.err = 0) : (raise k s).err = k.code :=
  latchAfter_clear k h

theorem Ends.latch_kept (h : Ends i s t) (hc : i ≠ .clrerr) (hr : i ≠ .sreset) (he : s.err ≠ 0) : t.err = s.err := by
  cases h with
  | refused => rfl
  | answered hw v => exact hw.err_eq hc hr
  | failed hw k =>
    have herr := hw.err_eq hc hr
    exact (raise_err_set k (herr ▸ he)).trans herr

theorem Ends.latch_taken (h : Ends i s t) (hc : i ≠ .clrerr) (hr : i ≠ .sreset) (he : s.err = 0) :
    ∃ r, t.responses = s.responses ++ [r] ∧ t.err = r.err := by
  cases h with
  | refused _ hne => exact absurd he hne
  | answered hw v => exact ⟨⟨0, v⟩, congrArg (· ++ _) hw.responses_eq, (hw.err_eq hc hr).trans he⟩
  | failed hw k =>
    exact ⟨⟨k.code, 0⟩, congrArg (· ++ _) hw.responses_eq, raise_err_clear k ((hw.err_eq hc hr).trans he)⟩

/-! ## The writers of each register -/

/-- Apart from the latch and the response, a command that goes on leaves what it has written. -/
theorem Ends.written (h : Ends i s t) :
    ∃ s' e rs, Writes i s s' ∧ t = { s' with err := e, responses := rs } := by
  cases h with
  | refused => exact ⟨s, _, _, .nothing i s, rfl⟩
  | answered hw v => exact ⟨_, _, _, hw, rfl⟩
  | failed hw k => exact ⟨_, _, _, hw, rfl⟩

theorem Writes.host_eq (h : Writes i s t) : t.host = s.host := by
  cases h <;> rfl

theorem Writes.height_writer (h : Writes i s t) (hne : t.height ≠ s.height) : i = .sreset ∨ ∃ imm, i = .seth imm := by
  cases h with
  | reset => exact .inl rfl
  | height => exact .inr ⟨_, rfl⟩
  | _ => exact absurd rfl hne

theorem Writes.width_writer (h : Writes i s t) (hne : t.width ≠ s.width) : i = .sreset ∨ ∃ imm, i = .setw imm := by
  cases h with
  | reset => exact .inl rfl
  | width => exact .inr ⟨_, rfl⟩
  | _ => exact absurd rfl hne

theorem Writes.res_writer (h : Writes i s t) (hne : t.res ≠ s.res) :
    i = .sreset ∨ i = .tsum ∨ i = .tavg ∨ i = .tdiff ∨ i = .tdsum := by
  cases h with
  | reset => exact .inl rfl
  | result _ _ hi => exact .inr hi
  | _ => exact absurd rfl hne

theorem Writes.ta_writer (h : Writes i s t) (hne : t.ta ≠ s.ta) : i = .sreset ∨ ∃ th tw, i = .lda th tw := by
  cases h with
  | reset => exact .inl rfl
  | tileA => exact .inr ⟨_, _, rfl⟩
  | _ => exact absurd rfl hne

theorem Writes.tb_writer (h : Writes i s t) (hne : t.tb ≠ s.tb) : i = .sreset ∨ ∃ th tw, i = .ldb th tw := by
  cases h with
  | reset => exact .inl rfl
  | tileB => exact .inr ⟨_, _, rfl⟩
  | _ => exact absurd rfl hne

/-- The progress counters and the working registers (10_state R22 to R31, R39) are as they were. -/
def SameCodecRegisters (s t : State) : Prop :=
  (t.vcnt = s.vcnt ∧ t.bcnt = s.bcnt) ∧
  t.cur = s.cur ∧ t.rem = s.rem ∧ t.acc = s.acc ∧ t.accBits = s.accBits ∧ t.step = s.step

/-- Only the codec commands and SRESET write the progress counters and the working registers. -/
theorem Writes.codec_writer (h : Writes i s t) (hne : ¬ SameCodecRegisters s t) :
    i = .sreset ∨ i = .pack5 ∨ i = .pack7 ∨ (∃ e, i = .unpack5 e) ∨ ∃ e, i = .unpack7 e := by
  cases h with
  | reset => exact .inl rfl
  | packed hi =>
    rcases hi with ⟨rfl, -⟩ | ⟨rfl, -⟩
    · exact .inr (.inl rfl)
    · exact .inr (.inr (.inl rfl))
  | unpacked hi =>
    rcases hi with ⟨rfl, -⟩ | ⟨rfl, -⟩
    · exact .inr (.inr (.inr (.inl ⟨_, rfl⟩)))
    · exact .inr (.inr (.inr (.inr ⟨_, rfl⟩)))
  | _ => exact absurd ⟨⟨rfl, rfl⟩, rfl, rfl, rfl, rfl, rfl⟩ hne

end

/-! ## The statements on registers -/

/-- Settles O18: a command other than CLRERR and SRESET writes the latch by raising only. -/
theorem errorLatchHoldsTheFirstError : Obligations.ErrorLatchHoldsTheFirstError := by
  unfold Obligations.ErrorLatchHoldsTheFirstError
  intro i s t h hc hr
  exact ⟨(exec_ends h).latch_kept hc hr, (exec_ends h).latch_taken hc hr⟩

/-- Settles O53: the writes of a command, register by register. -/
theorem registersChangeOnlyByTheirWriters : Obligations.RegistersChangeOnlyByTheirWriters := by
  unfold Obligations.RegistersChangeOnlyByTheirWriters
  intro i s t h
  obtain ⟨s', e, rs, hw, rfl⟩ := (exec_ends h).written
  refine ⟨hw.params_eq, hw.host_eq, hw.height_writer, hw.width_writer, hw.res_writer, fun hne => ?_, hw.ta_writer,
    hw.tb_writer, fun hne => ?_⟩
  · refine hw.codec_writer fun ⟨hcounters, _⟩ => ?_
    exact not_and_or.2 hne hcounters
  · refine hw.codec_writer fun ⟨_, hcur, hrem, hacc, hbits, hstep⟩ => ?_
    rcases hne with h | h | h | h | h
    · exact h hcur
    · exact h hrem
    · exact h hacc
    · exact h hbits
    · exact h hstep

/-- Settles O56: the reset values meet `State.InForm` clause by clause. -/
theorem resetMeetsTheInvariant : Obligations.ResetMeetsTheInvariant := by
  unfold Obligations.ResetMeetsTheInvariant
  exact wf_iff_inForm.2
    { params := by decide, height := Nat.zero_le _, width := Nat.zero_le _, err := Nat.zero_le _, vcnt := Nat.zero_le _
      bcnt := Nat.zero_le _, ta := blank_wf _ _, tb := blank_wf _ _, responses := List.forall_mem_nil _ }

/-! ## The cells that no statistic reads -/

/-- Both tile buffers replaced, all else as it is. -/
def State.withTiles (s : State) (a b : TileBuf) : State := { s with ta := a, tb := b }

section

variable {p : Params} {a b : TileBuf} {ca cb : List Byte} {s t : State} {v : State → BitVec 64}

/-- The cells `ca` show the same tile as the buffer's own: they agree at every position of it. -/
def TileBuf.SameTile (p : Params) (a : TileBuf) (ca : List Byte) : Prop :=
  ∀ r < a.h.toNat, ∀ c < a.w.toNat, TileBuf.cell p { a with cells := ca } r c = a.cell p r c

theorem tileSum_sameTile (h : a.SameTile p ca) : tileSum p { a with cells := ca } = tileSum p a := by
  refine congrArg List.sum (List.map_congr_left fun ⟨r, c⟩ hrc => ?_)
  obtain ⟨hr, hc⟩ := mem_positions.1 hrc
  exact congrArg BitVec.toNat (h r hr c hc)

theorem tileAverage_sameTile (h : a.SameTile p ca) : tileAverage p { a with cells := ca } = tileAverage p a := by
  rw [tileAverage, tileSum_sameTile h, tileAverage]

/-- Of two tiles of one shape the cell differences are the same at every position. -/
theorem cellDiff_sameTile (ha : a.SameTile p ca) (hb : b.SameTile p cb) (hs : sameShape a b = true) {r c : Nat}
    (hrc : (r, c) ∈ a.positions) :
    cellDiff p { a with cells := ca } { b with cells := cb } r c = cellDiff p a b r c := by
  obtain ⟨hr, hc⟩ := mem_positions.1 hrc
  obtain ⟨hh, hw⟩ : a.h = b.h ∧ a.w = b.w := by simpa [sameShape] using hs
  rw [cellDiff, ha r hr c hc, hb r (hh ▸ hr) c (hw ▸ hc), cellDiff]

theorem tileL1_sameTile (ha : a.SameTile p ca) (hb : b.SameTile p cb) (hs : sameShape a b = true) :
    tileL1 p { a with cells := ca } { b with cells := cb } = tileL1 p a b :=
  congrArg List.sum (List.map_congr_left fun _ hrc => congrArg Int.natAbs (cellDiff_sameTile ha hb hs hrc))

theorem tileDiffSum_sameTile (ha : a.SameTile p ca) (hb : b.SameTile p cb) (hs : sameShape a b = true) :
    tileDiffSum p { a with cells := ca } { b with cells := cb } = tileDiffSum p a b :=
  congrArg List.sum (List.map_congr_left fun _ hrc => cellDiff_sameTile ha hb hs hrc)

theorem answerStat_withTiles (hv : v (s.withTiles a b) = v s) (h : answerStat (v s) s = .next t) :
    answerStat (v (s.withTiles a b)) (s.withTiles a b) = .next (t.withTiles a b) := by
  rw [hv]
  cases h
  rfl

/-- A statistic of TA ends alike over other tile buffers of the same VALID if its value, where TA is valid, is the same. -/
theorem withTileA_withTiles (hva : a.valid = s.ta.valid) (hv : s.ta.valid = true → v (s.withTiles a b) = v s)
    (h : withTileA s (fun s => answerStat (v s) s) = .next t) :
    withTileA (s.withTiles a b) (fun s => answerStat (v s) s) = .next (t.withTiles a b) := by
  rcases unlessLatched_next h with ⟨he, rfl⟩ | ⟨he, h⟩
  · exact unlessLatched_set _ he
  refine (unlessLatched_clear (s := s.withTiles a b) _ he).trans ?_
  have hvalid : validA (s.withTiles a b) = validA s := hva
  rw [hvalid]
  split at h
  · rw [if_pos ‹_›]
    exact answerStat_withTiles (hv ‹_›) h
  · cases h
    exact if_neg ‹_›

/-- A statistic of both tiles ends alike over other tile buffers of the same VALID and shape if its value, where both are
valid and of one shape, is the same. -/
theorem withBothTiles_withTiles (hva : a.valid = s.ta.valid) (hvb : b.valid = s.tb.valid)
    (hs : sameShape a b = sameShape s.ta s.tb)
    (hv : s.ta.valid = true → s.tb.valid = true → sameShape s.ta s.tb = true → v (s.withTiles a b) = v s)
    (h : withBothTiles s (fun s => answerStat (v s) s) = .next t) :
    withBothTiles (s.withTiles a b) (fun s => answerStat (v s) s) = .next (t.withTiles a b) := by
  rcases unlessLatched_next h with ⟨he, rfl⟩ | ⟨he, h⟩
  · exact unlessLatched_set _ he
  refine (unlessLatched_clear (s := s.withTiles a b) _ he).trans ?_
  have hvalid : (validA (s.withTiles a b) && validB (s.withTiles a b)) = (validA s && validB s) :=
    congrArg₂ and hva hvb
  have hshape : sameShape (s.withTiles a b).ta (s.withTiles a b).tb = sameShape s.ta s.tb := hs
  rw [hvalid, hshape]
  split at h
  · rename_i hboth
    obtain ⟨hta, htb⟩ := Bool.and_eq_true_iff.1 hboth
    rw [if_pos hboth]
    split at h
    · rw [if_pos ‹_›]
      exact answerStat_withTiles (hv hta htb ‹_›) h
    · cases h
      exact if_neg ‹_›
  · cases h
    exact if_neg ‹_›

end

/-- Settles O51: every statistic reads cells at the positions of valid tiles only. -/
theorem unusedCellsDoNotMatter : Obligations.UnusedCellsDoNotMatter := by
  unfold Obligations.UnusedCellsDoNotMatter
  intro s t i ca cb hi ha hb h
  rcases hi with rfl | rfl | rfl | rfl
  · exact withTileA_withTiles (v := fun s => BitVec.ofNat 64 (tileSum s.params s.ta)) rfl
      (fun va => congrArg (BitVec.ofNat 64) (tileSum_sameTile (ha va))) h
  · exact withTileA_withTiles (v := fun s => BitVec.ofNat 64 (tileAverage s.params s.ta)) rfl
      (fun va => congrArg (BitVec.ofNat 64) (tileAverage_sameTile (ha va))) h
  · exact withBothTiles_withTiles (v := fun s => BitVec.ofNat 64 (tileL1 s.params s.ta s.tb)) rfl rfl rfl
      (fun va vb hs => congrArg (BitVec.ofNat 64) (tileL1_sameTile (ha va) (hb vb) hs)) h
  · exact withBothTiles_withTiles (v := fun s => BitVec.ofInt 64 (tileDiffSum s.params s.ta s.tb)) rfl rfl rfl
      (fun va vb hs => congrArg (BitVec.ofInt 64) (tileDiffSum_sameTile (ha va) (hb vb) hs)) h

end Sys2Proof.Machine

/-! SUPPORT. The codec's position invariant (10_state R27, R33) for both directions at once: STEP alone fixes REM, ACCBITS
and the free bits of ACC between two table steps, whatever the counters hold. -/

namespace Sys2Proof.Machine

open Sys2Proof

/-! ## Between two table steps -/

/-- The position invariant of a direction. -/
abbrev Direction.InPlace (d : Direction) (m : Engine) : Prop :=
  InStep d.table d.source d.unit (fun acc q => d.unitBit acc q = false) m

/-- The invariant inside a table step, with a source unit at hand: REM is what is left of that unit. -/
structure Direction.AtHand (d : Direction) (m : Engine) : Prop where
  stepLt : m.step.toNat < d.table.length
  rem : m.rem.toNat = d.source - startOf d.table m.step.toNat % d.source
  accBits : m.accBits.toNat = startOf d.table m.step.toNat % d.unit
  free : ∀ q, m.accBits.toNat ≤ q → q < d.unit → d.unitBit m.acc q = false

section

variable {d : Direction} {m m' : Engine}

theorem Direction.Sound.inPlace_start (hd : d.Sound) (hlen : 0 < d.table.length) (s : State) (input : InPort)
    (output : List Byte) : d.InPlace (Engine.start s input output) := by
  refine ⟨hlen, ?_, ?_, fun q _ _ => hd.unitBit_zero q⟩
  · simp [Engine.start, startOf]
  · simp [Engine.start, startOf]

/-- What is left of a source unit, read modulo its size, is 0 exactly at a boundary. -/
theorem left_mod {source x : Nat} (hx : x < source) :
    (x = 0 ∧ (source - x) % source = 0) ∨ (0 < x ∧ (source - x) % source = source - x) := by
  rcases Nat.eq_zero_or_pos x with rfl | hpos
  · exact .inl ⟨rfl, Nat.mod_self source⟩
  · exact .inr ⟨hpos, Nat.mod_eq_of_lt (by omega)⟩

/-- No pull is due. -/
theorem inPlace_atHand_rem (hd : d.Sound) (h : d.InPlace m) (hr : m.rem ≠ 0) : d.AtHand m := by
  obtain ⟨hst, hrem, hbits, hfree⟩ := h
  have hne : m.rem.toNat ≠ 0 := fun h0 => hr (BitVec.eq_of_toNat_eq h0)
  refine ⟨hst, ?_, hbits, hfree⟩
  rcases left_mod (Nat.mod_lt (startOf d.table m.step.toNat) hd.sourcePos) with ⟨-, h0⟩ | ⟨-, hleft⟩
  · exact absurd (hrem.trans h0) hne
  · exact hrem.trans hleft

/-- A pull is due and takes a whole source unit. -/
theorem inPlace_atHand_pull (hd : d.Sound) (h : d.InPlace m) (hr : m.rem = 0) (hrem' : m'.rem.toNat = d.source)
    (hstep : m'.step = m.step) (hbits' : m'.accBits = m.accBits) (hacc : m'.acc = m.acc) : d.AtHand m' := by
  obtain ⟨hst, hrem, hbits, hfree⟩ := h
  rw [hr] at hrem
  have hx := Nat.mod_lt (startOf d.table m.step.toNat) hd.sourcePos
  refine ⟨hstep ▸ hst, ?_, by rw [hbits', hstep, hbits], by rwa [hbits', hacc]⟩
  rw [hrem', hstep]
  rcases left_mod hx with ⟨h0, -⟩ | ⟨-, hleft⟩
  · rw [h0, Nat.sub_zero]
  · have : (0 : BitVec 4).toNat = 0 := rfl
    omega

/-! ## One table step -/

theorem Direction.AtHand.move_rem (hd : d.Sound) (h : d.AtHand m) :
    (m.move (entryAt d.table m.step.toNat)).rem.toNat =
      d.source - startOf d.table m.step.toNat % d.source - (entryAt d.table m.step.toNat).n := by
  obtain ⟨-, hs, -, -⟩ := hd.fits _ h.stepLt
  rw [Engine.move, toNat_sub_ofNat (by rw [h.rem]; omega), h.rem]

theorem Direction.AtHand.move_accBits (hd : d.Sound) (h : d.AtHand m) :
    (m.move (entryAt d.table m.step.toNat)).accBits.toNat =
      startOf d.table m.step.toNat % d.unit + (entryAt d.table m.step.toNat).n := by
  obtain ⟨-, -, hu, -⟩ := hd.fits _ h.stepLt
  have hul := hd.unitLe
  rw [Engine.move, toNat_add_ofNat (by rw [h.accBits]; omega), h.accBits]

/-- The bits behind the segment moved stay free. -/
theorem Direction.AtHand.move_free (hd : d.Sound) (h : d.AtHand m) {q : Nat}
    (hq : startOf d.table m.step.toNat % d.unit + (entryAt d.table m.step.toNat).n ≤ q) (hlt : q < d.unit) :
    d.unitBit (m.move (entryAt d.table m.step.toNat)).acc q = false := by
  have hbits := h.accBits
  rw [Engine.move, hd.unitBit_or, h.free q (by omega) hlt, (hd.moves _ h.stepLt).bits m.cur q hlt,
    decide_eq_false (by omega), Bool.false_and, Bool.or_false]

/-- The output unit in progress after a move: handed over if it is complete, kept if not (41_pack R165, 42_unpack
R185). -/
def Direction.HandedOver (d : Direction) (m m' : Engine) : Prop :=
  m'.step = m.step ∧ m'.rem = m.rem ∧
  ((m.accBits.toNat = d.unit ∧ m'.accBits = 0 ∧ m'.acc = 0) ∨
    (m.accBits.toNat ≠ d.unit ∧ m'.accBits = m.accBits ∧ m'.acc = m.acc))

theorem advance_step (hd : d.Sound) {w : Width} (hw : w.cycle = d.table.length) (m : Engine) :
    (m.advance w).step.toNat = (m.step.toNat + 1) % d.table.length := by
  have hlt : (m.step.toNat + 1) % d.table.length < d.table.length :=
    Nat.mod_lt _ (by rw [← hw]; cases w <;> decide)
  have hcyc := hd.cycleLe
  rw [Engine.advance, hw, BitVec.toNat_ofNat, Nat.mod_eq_of_lt (by omega)]

/-- The offsets of the next entry in its two units. -/
theorem Direction.Sound.start_succ (hd : d.Sound) {k : Nat} (hk : k < d.table.length) :
    startOf d.table ((k + 1) % d.table.length) % d.source =
      (startOf d.table k % d.source + (entryAt d.table k).n) % d.source ∧
    startOf d.table ((k + 1) % d.table.length) % d.unit =
      (startOf d.table k % d.unit + (entryAt d.table k).n) % d.unit := by
  obtain ⟨-, -, -, hnext⟩ := hd.fits k hk
  obtain ⟨hsource, hunit⟩ := mod_start hnext.symm
  exact ⟨hsource.trans (Nat.mod_add_mod ..).symm, hunit.trans (Nat.mod_add_mod ..).symm⟩

/-- What is left of a source unit after a segment of `n` bits. -/
theorem left_after {source x n : Nat} (hn : 1 ≤ n) (h : x + n ≤ source) :
    source - x - n = (source - (x + n) % source) % source := by
  rcases Nat.lt_or_eq_of_le h with hlt | rfl
  · rw [Nat.mod_eq_of_lt hlt, Nat.mod_eq_of_lt (by omega)]
    omega
  · rw [Nat.mod_self, Nat.sub_zero, Nat.mod_self]
    omega

/-- The end of a table step: advancing STEP makes the invariant true of the next entry. -/
theorem Direction.AtHand.advance (hd : d.Sound) {w : Width} (hw : w.cycle = d.table.length) (h : d.AtHand m)
    (hm : d.HandedOver (m.move (entryAt d.table m.step.toNat)) m') : d.InPlace (m'.advance w) := by
  obtain ⟨hstep, hrem, hout⟩ := hm
  obtain ⟨hn, hs, hu, -⟩ := hd.fits _ h.stepLt
  obtain ⟨hsource, hunit⟩ := hd.start_succ h.stepLt
  have hnext : (m'.advance w).step.toNat = (m.step.toNat + 1) % d.table.length := by
    rw [advance_step hd hw, hstep]; rfl
  unfold Direction.InPlace InStep
  rw [hnext, hsource, hunit]
  refine ⟨Nat.mod_lt _ (Nat.zero_lt_of_lt h.stepLt), ?_, ?_⟩
  · exact (congrArg BitVec.toNat hrem).trans ((h.move_rem hd).trans (left_after hn hs))
  · change m'.accBits.toNat = _ ∧ ∀ q, m'.accBits.toNat ≤ q → q < d.unit → d.unitBit m'.acc q = false
    rw [← h.move_accBits hd]
    rcases hout with ⟨hfull, hb, ha⟩ | ⟨hpart, hb, ha⟩
    · rw [hb, ha, hfull, Nat.mod_self]
      exact ⟨rfl, fun q _ _ => hd.unitBit_zero q⟩
    · have hlt := Nat.lt_of_le_of_ne ((h.move_accBits hd).trans_le hu) hpart
      rw [hb, ha, Nat.mod_eq_of_lt hlt]
      exact ⟨rfl, fun q hq => h.move_free hd (h.move_accBits hd ▸ hq)⟩

/-! ## What the invariant gives (10_state R27) -/

theorem inPlace_rem_lt (hd : d.Sound) (h : d.InPlace m) : m.rem.toNat < d.source := by
  obtain ⟨-, hrem, -, -⟩ := h
  exact hrem ▸ Nat.mod_lt _ hd.sourcePos

theorem inPlace_accBits_lt (hd : d.Sound) (h : d.InPlace m) : m.accBits.toNat < d.unit := by
  obtain ⟨-, -, hbits, -⟩ := h
  exact hbits ▸ Nat.mod_lt _ hd.unitPos

/-- The source unit at hand, a fresh one if a pull is due, has the bits that the entry moves. -/
theorem inPlace_room_source (hd : d.Sound) (h : d.InPlace m) :
    (entryAt d.table m.step.toNat).n ≤ if m.rem = 0 then d.source else m.rem.toNat := by
  obtain ⟨-, hs, -, -⟩ := hd.fits _ h.1
  split
  · omega
  · have hrem := (inPlace_atHand_rem hd h ‹_›).rem
    omega

/-- The output unit in progress has room for the bits that the entry moves. -/
theorem inPlace_room_unit (hd : d.Sound) (h : d.InPlace m) :
    (entryAt d.table m.step.toNat).n ≤ d.unit - m.accBits.toNat := by
  obtain ⟨hst, -, hbits, -⟩ := h
  obtain ⟨-, -, hu, -⟩ := hd.fits _ hst
  omega

/-- At no position of the output unit do ACC and the entry's contribution both have a 1. -/
theorem inPlace_disjoint (hd : d.Sound) (h : d.InPlace m) (x : Byte) {q : Nat} (hq : q < d.unit) :
    (d.unitBit m.acc q && d.unitBit
      (dshift (x &&& (entryAt d.table m.step.toNat).mask) (entryAt d.table m.step.toNat).shift) q) = false := by
  obtain ⟨hst, -, hbits, hfree⟩ := h
  rcases Nat.lt_or_ge q m.accBits.toNat with hlt | hge
  · rw [(hd.moves _ hst).bits x q hq, decide_eq_false (by omega), Bool.false_and, Bool.and_false]
  · exact Bool.and_eq_false_imp.2 fun hone => absurd (hfree q hge hq) (by simp [hone])

end

/-! ## PACK and UNPACK -/

section

variable {o : BitOrder} {w : Width} {m m' : Engine}

theorem valueBit_and (o : BitOrder) (w : Nat) (a b : Byte) (q : Nat) :
    valueBit o w (a &&& b) q = (valueBit o w a q && valueBit o w b q) := by
  cases o <;> simp [valueBit]

/-- A value of `w` bits all of which are 0 is 0. -/
theorem eq_zero_of_valueBit {n : Nat} {a : Byte} (ha : a.toNat < 2 ^ n) (h : ∀ q < n, valueBit o n a q = false) :
    a = 0 := by
  refine BitVec.eq_of_getLsbD_eq fun i _ => ?_
  rw [show (0 : Byte).getLsbD i = false from BitVec.getLsbD_zero]
  rcases Nat.lt_or_ge i n with hlt | hge
  · cases o with
    | msbFirst =>
      have hbit : a.getLsbD (n - 1 - (n - 1 - i)) = false := h (n - 1 - i) (by omega)
      rwa [show n - 1 - (n - 1 - i) = i by omega] at hbit
    | lsbFirst => exact h i hlt
  · exact Nat.testBit_lt_two_pow (ha.trans_le (Nat.pow_le_pow_right (by decide) hge))

/-- A byte is a value of 8 bits. -/
theorem byteBit_eq_valueBit (o : BitOrder) (b : Byte) (q : Nat) : byteBit o b q = valueBit o 8 b q := by
  cases o <;> rfl

theorem packing_or_is_add (h : (packing o w).InPlace m) (x : Byte) :
    m.acc &&& dshift (x &&& (entryAt (writeTable o w) m.step.toNat).mask) (entryAt (writeTable o w) m.step.toNat).shift
      = 0 := by
  refine eq_zero_of_valueBit (o := o) (n := 8) (BitVec.isLt _) fun q hq => ?_
  rw [valueBit_and, ← byteBit_eq_valueBit, ← byteBit_eq_valueBit]
  exact inPlace_disjoint (packing_sound o w) h x hq

theorem unpacking_or_is_add (h : (unpacking o w).InPlace m) (x : Byte) :
    m.acc &&& dshift (x &&& (entryAt (readTable o w) m.step.toNat).mask) (entryAt (readTable o w) m.step.toNat).shift
      = 0 := by
  have hst : m.step.toNat < w.cycle := unpacking_table_length o w ▸ h.1
  refine eq_zero_of_valueBit (o := o) (n := w.bits) ?_ fun q hq => ?_
  · rw [BitVec.toNat_and]
    exact Nat.and_lt_two_pow _ (unpacking_small o w _ hst x)
  · rw [valueBit_and]
    exact inPlace_disjoint (unpacking_sound o w) h x hq

theorem ofNat_bits (w : Width) : (BitVec.ofNat 4 w.bits).toNat = w.bits := by
  cases w <;> rfl

/-- `P` holds of the engine if the stretch goes on, `Q` if it raised an error. -/
def Run.Leaves (P Q : Engine → Prop) : Run → Prop
  | .going m => P m
  | .raised _ m => Q m
  | .stuck => True

theorem Run.Leaves.andThen {P P' Q : Engine → Prop} {r : Run} {f : Engine → Run} (h : r.Leaves P Q)
    (hf : ∀ m, P m → (f m).Leaves P' Q) : (r.andThen f).Leaves P' Q := by
  cases r with
  | going m => exact hf m h
  | raised k m => exact h
  | stuck => trivial

theorem Run.Leaves.mono {P P' Q Q' : Engine → Prop} {r : Run} (h : r.Leaves P Q) (hp : ∀ m, P m → P' m)
    (hq : ∀ m, Q m → Q' m) : r.Leaves P' Q' := by
  cases r with
  | going m => exact hp m h
  | raised k m => exact hq m h
  | stuck => trivial

theorem Run.Leaves.all {P : Engine → Prop} {r : Run} (h : r.Leaves P P) : r.All P := by
  cases r <;> exact h

/-- The ranges of STEP, REM and ACCBITS (10_state R23, R25, R31). -/
def Direction.InRange (d : Direction) (m : Engine) : Prop :=
  m.step.toNat < d.table.length ∧ m.rem.toNat ≤ d.source ∧ m.accBits.toNat ≤ d.unit

theorem inPlace_inRange {d : Direction} (hd : d.Sound) (h : d.InPlace m) : d.InRange m :=
  ⟨h.1, (inPlace_rem_lt hd h).le, (inPlace_accBits_lt hd h).le⟩

theorem Direction.AtHand.move_inRange {d : Direction} (hd : d.Sound) (h : d.AtHand m) :
    d.InRange (m.move (entryAt d.table m.step.toNat)) := by
  obtain ⟨-, -, hu, -⟩ := hd.fits _ h.stepLt
  refine ⟨h.stepLt, ?_, (h.move_accBits hd).trans_le hu⟩
  rw [h.move_rem hd]
  omega

/-! ### PACK -/

theorem pullValue_leaves (h : (packing o w).InPlace m) :
    (pullValue w m).Leaves (packing o w).AtHand (packing o w).InPlace := by
  have hd := packing_sound o w
  rcases pullValue_cases w m with ⟨hr, he⟩ | ⟨hr, x, xs, -, he⟩ | ⟨-, -, he⟩ | ⟨-, -, he⟩ <;> rw [he]
  · exact inPlace_atHand_rem hd h hr
  · exact inPlace_atHand_pull hd h hr (ofNat_bits w) rfl rfl rfl
  · exact h
  · trivial

/-- A push empties ACC or, refused, leaves the working registers as they are. -/
theorem pushByte_leaves (h : (packing o w).InRange m) :
    (pushByte m).Leaves (fun m' => m'.step = m.step ∧ m'.rem = m.rem ∧ m'.accBits = 0 ∧ m'.acc = 0)
      (packing o w).InRange := by
  rcases pushByte_cases m with ⟨-, he⟩ | ⟨-, he⟩ | ⟨-, he⟩ <;> rw [he]
  · exact ⟨rfl, rfl, rfl, rfl⟩
  · exact h
  · trivial

theorem emitByte_leaves (h : (packing o w).InRange m) :
    (emitByte m).Leaves ((packing o w).HandedOver m) (packing o w).InRange := by
  unfold emitByte
  split
  · rename_i hfull
    exact (pushByte_leaves h).mono
      (fun m' ⟨hstep, hrem, hempty⟩ => ⟨hstep, hrem, .inl ⟨congrArg BitVec.toNat hfull, hempty⟩⟩) fun _ h => h
  · rename_i hpart
    exact ⟨rfl, rfl, .inr ⟨fun hfull => hpart (BitVec.eq_of_toNat_eq hfull), rfl, rfl⟩⟩

/-- A table step of PACK that goes on keeps the invariant, and one that raises an error leaves the registers in range. -/
theorem packStep_leaves (h : (packing o w).InPlace m) :
    (packStep o w m).Leaves (packing o w).InPlace (packing o w).InRange := by
  have hd := packing_sound o w
  refine ((pullValue_leaves h).mono (fun _ h => h) fun _ => inPlace_inRange hd).andThen fun m1 h1 => ?_
  exact (emitByte_leaves (h1.move_inRange hd)).andThen fun m2 h2 => h1.advance hd (packing_table_length o w).symm h2

theorem packLoop_leaves (n fuel : Nat) (h : (packing o w).InPlace m) :
    (packLoop o w n fuel m).Leaves (packing o w).InPlace (packing o w).InRange := by
  induction fuel generalizing m with
  | zero => exact h
  | succ fuel ih =>
    unfold packLoop
    split
    · exact h
    · exact (packStep_leaves h).andThen fun _ => ih

theorem flushByte_leaves (h : (packing o w).InRange m) :
    (flushByte m).Leaves (packing o w).InRange (packing o w).InRange := by
  unfold flushByte
  split
  · exact h
  · refine (pushByte_leaves h).mono (fun m' ⟨hstep, hrem, hbits, _⟩ => ?_) fun _ h => h
    obtain ⟨hst, hr, -⟩ := h
    exact ⟨hstep ▸ hst, hrem ▸ hr, hbits ▸ Nat.zero_le _⟩

theorem packing_inPlace_start (o : BitOrder) (w : Width) (s : State) (input : InPort) (output : List Byte) :
    (packing o w).InPlace (Engine.start s input output) :=
  (packing_sound o w).inPlace_start (packing_start o w s input output).stepLt s input output

/-- Wherever a PACK ends, its working registers are in range. -/
theorem packRun_inRange (o : BitOrder) (w : Width) (n : Nat) (s : State) (input : InPort) (output : List Byte) :
    (packRun o w n (Engine.start s input output)).All (packing o w).InRange :=
  ((packLoop_leaves n _ (packing_inPlace_start o w s input output)).andThen fun _ h =>
    flushByte_leaves (inPlace_inRange (packing_sound o w) h)).all

/-! ### UNPACK -/

theorem pullByte_leaves (h : (unpacking o w).InPlace m) :
    (pullByte m).Leaves (unpacking o w).AtHand (unpacking o w).InPlace := by
  have hd := unpacking_sound o w
  rcases pullByte_cases m with ⟨hr, he⟩ | ⟨hr, x, xs, -, he⟩ | ⟨-, -, he⟩ | ⟨-, -, he⟩ <;> rw [he]
  · exact inPlace_atHand_rem hd h hr
  · exact inPlace_atHand_pull hd h hr rfl rfl rfl rfl
  · exact h
  · trivial

theorem storeValue_handedOver (o : BitOrder) (w : Width) (m : Engine) :
    (unpacking o w).HandedOver m (storeValue w m) := by
  unfold storeValue
  split
  · rename_i hfull
    exact ⟨rfl, rfl, .inl ⟨(congrArg BitVec.toNat hfull).trans (ofNat_bits w), rfl, rfl⟩⟩
  · rename_i hpart
    exact ⟨rfl, rfl, .inr ⟨fun hfull => hpart (BitVec.eq_of_toNat_eq (hfull.trans (ofNat_bits w).symm)), rfl, rfl⟩⟩

/-- A table step of UNPACK keeps the invariant, also where it raises an error. -/
theorem unpackStep_leaves (h : (unpacking o w).InPlace m) :
    (unpackStep o w m).Leaves (unpacking o w).InPlace (unpacking o w).InPlace :=
  (pullByte_leaves h).andThen fun _ h1 =>
    h1.advance (unpacking_sound o w) (unpacking_table_length o w).symm (storeValue_handedOver o w _)

theorem unpacking_inPlace_start (o : BitOrder) (w : Width) (s : State) (input : InPort) (output : List Byte) :
    (unpacking o w).InPlace (Engine.start s input output) :=
  (unpacking_sound o w).inPlace_start (unpacking_start o w s input output).stepLt s input output

/-- Wherever an UNPACK ends, the position invariant holds. -/
theorem unpackRun_inPlace (o : BitOrder) (w : Width) (n : Nat) (e : Bool) (s : State) (input : InPort)
    (output : List Byte) : (unpackRun o w n e (Engine.start s input output)).All (unpacking o w).InPlace :=
  unpackRun_all n e (fun _ h => (unpackStep_leaves h).all) (fun _ h => h) _
    (unpacking_inPlace_start o w s input output)

end

/-! ## The commands -/

section

variable {w : Width} {s t : State}

theorem packCommand_inRange (he : s.err = 0) (hh : s.height ≠ 0) (hw : s.width ≠ 0)
    (h : packCommand w s = .next t) : t.step.toNat < w.cycle ∧ t.rem.toNat ≤ w.bits ∧ t.accBits.toNat ≤ 8 := by
  have hall := packRun_inRange s.params.bitOrder w (s.height.toNat * s.width.toNat) s s.vin s.bout
  rw [← packing_table_length s.params.bitOrder w]
  rcases packCommand_next h with ⟨hne, -⟩ | ⟨-, h0, -⟩ | ⟨-, -, -, m, ⟨hr, rfl⟩ | ⟨k, hr, rfl⟩⟩
  · exact absurd he hne
  · exact absurd h0 (not_or.2 ⟨hh, hw⟩)
  · exact hall.of_endsWith (.inl hr)
  · exact hall.of_endsWith (.inr ⟨k, hr⟩)

theorem unpackCommand_inRange {e : Bool} (he : s.err = 0) (hh : s.height ≠ 0) (hw : s.width ≠ 0)
    (h : unpackCommand w e s = .next t) :
    t.step.toNat < w.cycle ∧ t.rem.toNat ≤ 8 ∧ t.accBits.toNat ≤ w.bits := by
  have hd := unpacking_sound s.params.bitOrder w
  have hall := unpackRun_inPlace s.params.bitOrder w (s.height.toNat * s.width.toNat) e s s.bin s.vout
  rw [← unpacking_table_length s.params.bitOrder w]
  rcases unpackCommand_next h with ⟨hne, -⟩ | ⟨-, h0, -⟩ | ⟨-, -, -, m, ⟨hr, rfl⟩ | ⟨k, hr, rfl⟩⟩
  · exact absurd he hne
  · exact absurd h0 (not_or.2 ⟨hh, hw⟩)
  · exact inPlace_inRange hd (hall.of_endsWith (.inl hr))
  · exact inPlace_inRange hd (hall.of_endsWith (.inr ⟨k, hr⟩))

end

/-- Settles O34: a raised error leaves the registers in range too, though a refused push breaks the position invariant. -/
theorem workingRegistersStayInRange : Obligations.WorkingRegistersStayInRange := by
  unfold Obligations.WorkingRegistersStayInRange
  intro s t e i cycle source unit hi he hh hw h
  rcases hi with ⟨rfl, rfl, rfl, rfl⟩ | ⟨rfl, rfl, rfl, rfl⟩ | ⟨rfl, rfl, rfl, rfl⟩ | ⟨rfl, rfl, rfl, rfl⟩
  · exact packCommand_inRange (w := .w5) he hh hw h
  · exact packCommand_inRange (w := .w7) he hh hw h
  · exact unpackCommand_inRange (w := .w5) he hh hw h
  · exact unpackCommand_inRange (w := .w7) he hh hw h

/-- Settles O35: the position invariant of either direction, from the start through every table step. -/
theorem tableStepsKeepTheCodecInvariant : Obligations.TableStepsKeepTheCodecInvariant := by
  unfold Obligations.TableStepsKeepTheCodecInvariant
  intro o w
  have hp := packing_sound o w
  have hu := unpacking_sound o w
  refine ⟨fun s input output => ⟨packing_inPlace_start o w s input output, unpacking_inPlace_start o w s input output⟩,
    fun m m' h hgo => ?_, fun m m' h hgo => ?_, fun m h => ?_, fun m h => ?_⟩
  · have hstep := packStep_leaves h
    rwa [hgo] at hstep
  · have hstep := unpackStep_leaves h
    rwa [hgo] at hstep
  · exact ⟨(inPlace_rem_lt hp h).le, inPlace_accBits_lt hp h, inPlace_room_source hp h, inPlace_room_unit hp h,
      packing_or_is_add h⟩
  · exact ⟨(inPlace_rem_lt hu h).le, inPlace_accBits_lt hu h, inPlace_room_source hu h, inPlace_room_unit hu h,
      unpacking_or_is_add h⟩

end Sys2Proof.Machine

/-! SUPPORT. The ports as first-in first-out (20_memory R60, R61, R68): a codec run only moves forward along its ports, each
port has its users, and an action of the host rewrites one port. -/

namespace Sys2Proof.Machine

open Sys2Proof

/-! ## Ports are first-in first-out -/

/-- From `m0` to `m` elements were taken from the head of the input, pushes went behind those made before, and answers of
the sink were used up in order (20_memory R60, R68). -/
structure Engine.Onward (m0 m : Engine) : Prop where
  input : ∃ k, m.input = ⟨m0.input.queue.drop k, m0.input.atEnd⟩
  output : ∃ pushed, m.output = m0.output ++ pushed
  sink : ∃ k, m.sink = m0.sink.drop k

section

variable {o : BitOrder} {w : Width} {m0 m : Engine}

theorem Engine.Onward.refl (m : Engine) : m.Onward m :=
  ⟨⟨0, rfl⟩, ⟨[], (List.append_nil _).symm⟩, ⟨0, rfl⟩⟩

theorem Engine.Onward.input_drop (h : m0.Onward m) (j : Nat) :
    ∃ k, InPort.mk (m.input.queue.drop j) m.input.atEnd = ⟨m0.input.queue.drop k, m0.input.atEnd⟩ := by
  obtain ⟨k, hk⟩ := h.input
  exact ⟨k + j, by rw [hk, List.drop_drop]⟩

/-- A pull that took `x` took it from the head. -/
theorem Engine.Onward.input_tail (h : m0.Onward m) {x : Byte} {xs : List Byte} (hq : m.input.queue = x :: xs) :
    ∃ k, InPort.mk xs m.input.atEnd = ⟨m0.input.queue.drop k, m0.input.atEnd⟩ := by
  simpa [hq] using h.input_drop 1

theorem Engine.Onward.output_push (h : m0.Onward m) (x : Byte) :
    ∃ pushed, m.output ++ [x] = m0.output ++ pushed := by
  obtain ⟨pushed, hp⟩ := h.output
  exact ⟨pushed ++ [x], by rw [hp, List.append_assoc]⟩

theorem Engine.Onward.sink_drop (h : m0.Onward m) (j : Nat) : ∃ k, m.sink.drop j = m0.sink.drop k := by
  obtain ⟨k, hk⟩ := h.sink
  exact ⟨k + j, by rw [hk, List.drop_drop]⟩

theorem pullValue_onward (h : m0.Onward m) : (pullValue w m).All m0.Onward := by
  rcases pullValue_cases w m with ⟨-, he⟩ | ⟨-, x, xs, hq, he⟩ | ⟨-, -, he⟩ | ⟨-, -, he⟩ <;> rw [he]
  · exact h
  · exact ⟨h.input_tail hq, h.output, h.sink⟩
  · exact h
  · trivial

theorem pullByte_onward (h : m0.Onward m) : (pullByte m).All m0.Onward := by
  rcases pullByte_cases m with ⟨-, he⟩ | ⟨-, x, xs, hq, he⟩ | ⟨-, -, he⟩ | ⟨-, -, he⟩ <;> rw [he]
  · exact h
  · exact ⟨h.input_tail hq, h.output, h.sink⟩
  · exact h
  · trivial

theorem pushByte_onward (h : m0.Onward m) : (pushByte m).All m0.Onward := by
  rcases pushByte_cases m with ⟨-, he⟩ | ⟨-, he⟩ | ⟨-, he⟩ <;> rw [he]
  · exact ⟨h.input, h.output_push m.acc, h.sink_drop 1⟩
  · exact ⟨h.input, h.output, h.sink_drop 1⟩
  · trivial

theorem storeValue_onward (h : m0.Onward m) : m0.Onward (storeValue w m) := by
  unfold storeValue
  split
  · exact ⟨h.input, h.output_push m.acc, h.sink⟩
  · exact h

theorem Engine.Onward.move (h : m0.Onward m) (e : Entry) : m0.Onward (m.move e) :=
  ⟨h.input, h.output, h.sink⟩

theorem Engine.Onward.advance (h : m0.Onward m) (w : Width) : m0.Onward (m.advance w) :=
  ⟨h.input, h.output, h.sink⟩

theorem emitByte_onward (h : m0.Onward m) : (emitByte m).All m0.Onward := by
  unfold emitByte
  split
  · exact pushByte_onward h
  · exact h

theorem packStep_onward (h : m0.Onward m) : (packStep o w m).All m0.Onward := by
  refine all_andThen (pullValue_onward h) (fun m1 h1 => ?_) fun _ h => h
  exact all_andThen (emitByte_onward (h1.move _)) (fun _ h2 => h2.advance w) fun _ h => h

theorem unpackStep_onward (h : m0.Onward m) : (unpackStep o w m).All m0.Onward :=
  all_andThen (pullByte_onward h) (fun _ h1 => (storeValue_onward (h1.move _)).advance w) fun _ h => h

theorem packRun_onward (o : BitOrder) (w : Width) (n : Nat) (m0 : Engine) : (packRun o w n m0).All m0.Onward :=
  packRun_all n (fun _ => packStep_onward) (fun _ => pushByte_onward) m0 (.refl m0)

theorem unpackRun_onward (o : BitOrder) (w : Width) (n : Nat) (e : Bool) (m0 : Engine) :
    (unpackRun o w n e m0).All m0.Onward :=
  unpackRun_all n e (fun _ => unpackStep_onward) (fun _ h => ⟨h.input_drop 1, h.output, h.sink⟩) m0 (.refl m0)

end

section

variable {i : Instr} {s t : State}

/-- From `s` to `t` every port was used first-in first-out. -/
structure PortsOnward (s t : State) : Prop where
  vin : ∃ k, t.vin = ⟨s.vin.queue.drop k, s.vin.atEnd⟩
  bin : ∃ k, t.bin = ⟨s.bin.queue.drop k, s.bin.atEnd⟩
  bout : ∃ bytes, t.bout = s.bout ++ bytes
  vout : ∃ vs, t.vout = s.vout ++ vs
  sink : ∃ k, t.sink = s.sink.drop k

/-- Ports as they were. -/
theorem PortsOnward.refl (s : State) : PortsOnward s s :=
  ⟨⟨0, rfl⟩, ⟨0, rfl⟩, ⟨[], (List.append_nil _).symm⟩, ⟨[], (List.append_nil _).symm⟩, ⟨0, rfl⟩⟩

theorem Writes.portsOnward (h : Writes i s t) : PortsOnward s t := by
  have hs := PortsOnward.refl s
  cases h with
  | packed _ hm =>
    have hon := (packRun_onward _ _ _ _).of_endsWith hm
    exact { hs with vin := hon.input, bout := hon.output, sink := hon.sink }
  | unpacked _ hm =>
    have hon := (unpackRun_onward _ _ _ _ _).of_endsWith hm
    exact { hs with bin := hon.input, vout := hon.output }
  | tileA k => exact { hs with vin := ⟨k, rfl⟩ }
  | tileB k => exact { hs with vin := ⟨k, rfl⟩ }
  | _ => exact { hs with }

theorem Writes.vin_user (h : Writes i s t) (hne : t.vin ≠ s.vin) :
    i = .pack5 ∨ i = .pack7 ∨ (∃ th tw, i = .lda th tw) ∨ ∃ th tw, i = .ldb th tw := by
  cases h with
  | packed hi => exact hi.elim (fun h => .inl h.1) fun h => .inr (.inl h.1)
  | tileA => exact .inr (.inr (.inl ⟨_, _, rfl⟩))
  | tileB => exact .inr (.inr (.inr ⟨_, _, rfl⟩))
  | _ => exact absurd rfl hne

theorem Writes.bin_vout_user (h : Writes i s t) (hne : t.bin ≠ s.bin ∨ t.vout ≠ s.vout) :
    (∃ e, i = .unpack5 e) ∨ ∃ e, i = .unpack7 e := by
  cases h with
  | unpacked hi => exact hi.imp (fun h => ⟨_, h.1⟩) fun h => ⟨_, h.1⟩
  | _ => exact absurd ⟨rfl, rfl⟩ (not_and_or.2 hne)

theorem Writes.bout_sink_user (h : Writes i s t) (hne : t.bout ≠ s.bout ∨ t.sink ≠ s.sink) :
    i = .pack5 ∨ i = .pack7 := by
  cases h with
  | packed hi => exact hi.imp And.left And.left
  | _ => exact absurd ⟨rfl, rfl⟩ (not_and_or.2 hne)

end

/-- Settles O54: a codec run moves onward along its ports, and each port has its writes. -/
theorem portsAreFifosOfTheirUsers : Obligations.PortsAreFifosOfTheirUsers := by
  unfold Obligations.PortsAreFifosOfTheirUsers
  intro i s t h
  obtain ⟨s', e, rs, hw, rfl⟩ := (exec_ends h).written
  obtain ⟨hvin, hbin, hbout, hvout, hsink⟩ := hw.portsOnward
  exact ⟨hvin, hbin, hbout, hvout, hsink, hw.vin_user, hw.bin_vout_user, hw.bout_sink_user⟩

/-- With `a` next, the step is that action. -/
theorem step_with_action (s : State) (a : HostAction) (rest : List HostAction) :
    step { s with host := a :: rest } = hostAct a { s with host := rest } :=
  step_action rfl

/-- Settles O9: each of these actions rewrites one port, and the step takes it from the host. -/
theorem hostPortActionsTouchThePortsOnly : Obligations.HostPortActionsTouchThePortsOnly := by
  unfold Obligations.HostPortActionsTouchThePortsOnly
  intro s rest xs k e answers
  exact ⟨step_with_action s (.queueVin xs) rest, step_with_action s (.queueBin xs) rest,
    step_with_action s (.dropVin k) rest, step_with_action s (.dropBin k) rest, step_with_action s (.endVin e) rest,
    step_with_action s (.endBin e) rest, step_with_action s (.sinkAnswers answers) rest⟩

end Sys2Proof.Machine

/-! SUPPORT. What the codec and the loads deliver: values that fit the width, the values the bytes hold, a tile row by row
(20_memory R62, R63, R65, R69). -/

namespace Sys2Proof.Machine

open Sys2Proof

/-! ## The codec -/

section

variable {w : Width} {e : Bool} {s t : State} {h v : BitVec 19}

theorem unpackCommand_small (hx : unpackCommand w e s = .next t) :
    ∃ vs, t.vout = s.vout ++ vs ∧ ∀ v ∈ vs, v.toNat < 2 ^ w.bits := by
  have hall := unpackRun_small s.params.bitOrder w (s.height.toNat * s.width.toNat) e s s.bin s.vout
  rcases unpackCommand_next hx with ⟨-, rfl⟩ | ⟨-, -, rfl⟩ | ⟨-, -, -, m, ⟨hr, rfl⟩ | ⟨k, hr, rfl⟩⟩
  · exact ⟨[], by simp⟩
  · exact ⟨[], by simp⟩
  · exact (hall.of_endsWith (.inl hr)).2.2
  · exact (hall.of_endsWith (.inr ⟨k, hr⟩)).2.2

/-- Other dimensions, all else as it is. -/
def State.withDims (s : State) (h v : BitVec 19) : State := { s with height := h, width := v }

theorem finishRun_withDims {back : Engine → State → State} {r : Run}
    (hb : ∀ m, back m (s.withDims h v) = (back m s).withDims h v) (hx : finishRun back s r = .next t) :
    finishRun back (s.withDims h v) r = .next (t.withDims h v) := by
  cases r with
  | going m =>
    cases hx
    rw [finishRun, hb]
    rfl
  | raised k m =>
    cases hx
    rw [finishRun, hb]
    rfl
  | stuck => cases hx

/-- A codec command, PACK or UNPACK by what it runs and what it writes back (41_pack R161, 42_unpack R181). -/
def codecCommand (back : Engine → State → State) (run : State → Run) (s : State) : Result :=
  unlessLatched s fun s =>
    if dimsUnset s then .next (raise .badDimensions s) else finishRun back s (run s)

/-- The run of a PACK. -/
def packFrom (w : Width) (s : State) : Run :=
  packRun s.params.bitOrder w (valueCount s) (Engine.start s s.vin s.bout)

/-- The run of an UNPACK. -/
def unpackFrom (w : Width) (e : Bool) (s : State) : Run :=
  unpackRun s.params.bitOrder w (valueCount s) e (Engine.start s s.bin s.vout)

theorem packCommand_eq (w : Width) (s : State) : packCommand w s = codecCommand storePack (packFrom w) s := rfl

theorem unpackCommand_eq (w : Width) (e : Bool) (s : State) :
    unpackCommand w e s = codecCommand storeUnpack (unpackFrom w e) s := rfl

/-- A codec command ends alike over other dimensions if neither its run nor what it writes back depends on them. -/
theorem codecCommand_withDims {back : Engine → State → State} {run : State → Run}
    (hb : ∀ m, back m (s.withDims h v) = (back m s).withDims h v) (hrun : run (s.withDims h v) = run s)
    (hs : s.height ≠ 0 ∧ s.width ≠ 0) (hd : h ≠ 0 ∧ v ≠ 0) (hx : codecCommand back run s = .next t) :
    codecCommand back run (s.withDims h v) = .next (t.withDims h v) := by
  unfold codecCommand at hx ⊢
  rcases unlessLatched_next hx with ⟨he, rfl⟩ | ⟨he, hx⟩
  · exact unlessLatched_set _ he
  · rw [dimsUnset_false hs.1 hs.2] at hx
    rw [unlessLatched_clear (s := s.withDims h v) _ he, dimsUnset_false (s := s.withDims h v) hd.1 hd.2, hrun]
    exact finishRun_withDims hb hx

theorem packCommand_withDims (hs : s.height ≠ 0 ∧ s.width ≠ 0) (hd : h ≠ 0 ∧ v ≠ 0)
    (hn : h.toNat * v.toNat = s.height.toNat * s.width.toNat) (hx : packCommand w s = .next t) :
    packCommand w (s.withDims h v) = .next (t.withDims h v) := by
  rw [packCommand_eq] at hx ⊢
  exact codecCommand_withDims (fun _ => rfl) (congrArg (packRun _ w · (Engine.start s s.vin s.bout)) hn) hs hd hx

theorem unpackCommand_withDims (hs : s.height ≠ 0 ∧ s.width ≠ 0) (hd : h ≠ 0 ∧ v ≠ 0)
    (hn : h.toNat * v.toNat = s.height.toNat * s.width.toNat) (hx : unpackCommand w e s = .next t) :
    unpackCommand w e (s.withDims h v) = .next (t.withDims h v) := by
  rw [unpackCommand_eq] at hx ⊢
  exact codecCommand_withDims (fun _ => rfl) (congrArg (unpackRun _ w · e (Engine.start s s.bin s.vout)) hn) hs hd hx

/-- The end-of-stream check passes where it is not asked for or nothing follows (42_unpack R187). -/
theorem probeEnd_passes {m : Engine} (hm : e = true → m.input = ⟨[], .eos⟩) : probeEnd e m = .going m := by
  cases e with
  | false => rfl
  | true => simp [probeEnd, hm rfl, pull_nil_eos]

/-- An UNPACK with its bytes there, and nothing behind them if it asks (42_unpack R186, R187, R193): the values it pushes
are those the bytes hold. -/
theorem unpackRun_complete {o : BitOrder} {n len : Nat} {input : InPort} {output : List Byte} (hn : n ≤ 2 ^ 36)
    (hlen : len = (n * w.bits + 7) / 8) (hv : len ≤ input.queue.length)
    (hend : e = true → input.queue.length = len ∧ input.atEnd = .eos) :
    ∃ m vs, unpackRun o w n e (Engine.start s input output) = .going m ∧ m.output = output ++ vs ∧
      HoldsValues o w.bits n input.queue vs ∧ m.vcnt = BitVec.ofNat 37 n ∧ m.bcnt = BitVec.ofNat 37 len ∧
      m.input = ⟨input.queue.drop len, input.atEnd⟩ := by
  obtain ⟨m, vs, hrun, hout, hl, hbits, hvc, hbc, hin, -⟩ :=
    unpackLoop_complete hn (unpacking_start o w s input output) hlen hv
  have hrun : unpackRun o w n e (Engine.start s input output) = .going m := by
    rw [unpackRun, hrun, andThen_going]
    refine probeEnd_passes fun he => ?_
    obtain ⟨hq, ha⟩ := hend he
    rw [hin]
    simp [Engine.start, ← hq, ha]
  obtain ⟨-, -, vs', hout', hsmall⟩ := (unpackRun_small o w n e s input output).of_endsWith (.inl hrun)
  obtain rfl : vs = vs' := List.append_cancel_left (hout.symm.trans hout')
  exact ⟨m, vs, hrun, hout, ⟨hl, hsmall, hbits⟩, hvc, hbc, hin⟩

theorem codecReady_gridSize_le (hs : CodecReady s) : gridSize s ≤ 2 ^ 36 := by
  obtain ⟨-, -, -, hh, hw⟩ := hs
  exact (Nat.mul_le_mul hh hw).trans (by decide)

/-- A byte count within one command's reach goes whole from BCNT into the response (41_pack R175). -/
theorem setWidth_count {k : Nat} (hk : k < 2 ^ 37) : (BitVec.ofNat 37 k).setWidth 64 = BitVec.ofNat 64 k := by
  apply BitVec.eq_of_toNat_eq
  simp only [BitVec.toNat_setWidth, BitVec.toNat_ofNat]
  omega

theorem unpackCommand_delivers {n len : Nat} (hs : CodecReady s) (hn : n = gridSize s)
    (hlen : len = (n * w.bits + 7) / 8) (hv : len ≤ s.bin.queue.length)
    (hend : e = true → s.bin.queue.length = len ∧ s.bin.atEnd = .eos) :
    ∃ (vs : List Byte) (cur : BitVec 8) (rem : BitVec 4) (acc : BitVec 8) (accBits step : BitVec 4),
      HoldsValues s.params.bitOrder w.bits n s.bin.queue vs ∧
      unpackCommand w e s = .next { s with
        vcnt := BitVec.ofNat 37 n, bcnt := BitVec.ofNat 37 len
        cur := cur, rem := rem, acc := acc, accBits := accBits, step := step
        bin := ⟨s.bin.queue.drop len, s.bin.atEnd⟩
        vout := s.vout ++ vs
        responses := s.responses ++ [⟨0, BitVec.ofNat 64 len⟩] } := by
  have hn36 : n ≤ 2 ^ 36 := hn ▸ codecReady_gridSize_le hs
  obtain ⟨he, hh, hw, -, -⟩ := hs
  obtain ⟨m, vs, hrun, hout, hvals, hvc, hbc, hin⟩ :=
    unpackRun_complete (o := s.params.bitOrder) (s := s) (output := s.vout) hn36 hlen hv hend
  have hbits : n * w.bits ≤ 2 ^ 36 * 7 := Nat.mul_le_mul hn36 (by cases w <;> decide)
  refine ⟨vs, m.cur, m.rem, m.acc, m.accBits, m.step, hvals, ?_⟩
  rw [unpackCommand_runs he hh hw, ← gridSize, ← hn, hrun, finishRun, hbc, setWidth_count (by omega), ← hbc, ← hvc,
    ← hin, ← hout]
  rfl

end

/-- Settles O32: ACC stays below `2^w` from the start of the command to wherever it ends. -/
theorem unpackedValuesFitTheWidth : Obligations.UnpackedValuesFitTheWidth := by
  unfold Obligations.UnpackedValuesFitTheWidth
  intro s t e i w hi hx
  rcases hi with ⟨rfl, rfl⟩ | ⟨rfl, rfl⟩
  · exact unpackCommand_small (w := .w5) hx
  · exact unpackCommand_small (w := .w7) hx

/-- Settles O28: the engine is started from the product and the ports, and nothing it writes back reads a dimension. -/
theorem codecSeesTheProductOfTheDimensions : Obligations.CodecSeesTheProductOfTheDimensions := by
  unfold Obligations.CodecSeesTheProductOfTheDimensions
  intro s t e i h v hi hh hv hsh hsw hn hx
  rcases hi with rfl | rfl | rfl | rfl
  · exact packCommand_withDims (w := .w5) ⟨hsh, hsw⟩ ⟨hh, hv⟩ hn hx
  · exact packCommand_withDims (w := .w7) ⟨hsh, hsw⟩ ⟨hh, hv⟩ hn hx
  · exact unpackCommand_withDims (w := .w5) ⟨hsh, hsw⟩ ⟨hh, hv⟩ hn hx
  · exact unpackCommand_withDims (w := .w7) ⟨hsh, hsw⟩ ⟨hh, hv⟩ hn hx

/-- Settles O29: the walk over the section's bits gives the values, and the counters at its end are the section's. -/
theorem unpackDeliversTheValues : Obligations.UnpackDeliversTheValues := by
  unfold Obligations.UnpackDeliversTheValues
  intro s e i w n len hi hs hn hlen hv hend
  rcases hi with ⟨rfl, rfl⟩ | ⟨rfl, rfl⟩
  · exact unpackCommand_delivers (w := .w5) hs hn hlen hv hend
  · exact unpackCommand_delivers (w := .w7) hs hn hlen hv hend

/-! ## The loads -/

section

variable {s : State} {th tw : Byte}

/-- A load with its elements waiting (43_tile_stats R202): the buffer `b` becomes a tile whose cells are the elements, row by
row. -/
theorem loadTile_fills {put : TileBuf → State → State} {b : TileBuf} (hth : 1 ≤ th.toNat)
    (hnh : th.toNat ≤ s.params.nomH.toNat) (htw : 1 ≤ tw.toNat) (hnw : tw.toNat ≤ s.params.nomW.toNat)
    (hq : th.toNat * tw.toNat ≤ s.vin.queue.length) (hb : b.cells.length = s.params.area) :
    ∃ cells : List Byte, cells.length = s.params.area ∧
      (∀ r < th.toNat, ∀ c < tw.toNat,
        TileBuf.cell s.params ⟨true, th, tw, cells⟩ r c = s.vin.queue.getD (r * tw.toNat + c) 0) ∧
      loadTile put b th tw s = .next (respond 0 0 (put ⟨true, th, tw, cells⟩
        { s with vin := ⟨s.vin.queue.drop (th.toNat * tw.toNat), s.vin.atEnd⟩ })) := by
  have hd : tileDimsInRange s.params th tw = true := decide_eq_true ⟨hth, htw, hnh, hnw⟩
  have hfill := fillCells_enough s.params (positions th.toNat tw.toNat) b.cells s.vin.queue s.vin.atEnd
    (by rwa [positions_length])
  rw [positions_length] at hfill
  refine ⟨writeCells s.params (positions th.toNat tw.toNat) s.vin.queue b.cells, by rw [writeCells_length, hb],
    fun r hr c hc => cell_of_load hnh hnw hb hq hr hc, ?_⟩
  rw [loadTile, if_pos hd, hfill]

end

/-- Settles O42: the fill writes the elements to the positions of the tile in row-major order. -/
theorem loadFillsTheBuffer : Obligations.LoadFillsTheBuffer := by
  unfold Obligations.LoadFillsTheBuffer
  intro s th tw k he hth hnh htw hnw hk hq
  subst hk
  refine ⟨fun hb => ?_, fun hb => ?_⟩
  · obtain ⟨cells, hl, hcell, hrun⟩ := loadTile_fills (put := fun t s => { s with ta := t }) hth hnh htw hnw hq hb
    exact ⟨cells, hl, hcell, (unlessLatched_clear _ he).trans hrun⟩
  · obtain ⟨cells, hl, hcell, hrun⟩ := loadTile_fills (put := fun t s => { s with tb := t }) hth hnh htw hnw hq hb
    exact ⟨cells, hl, hcell, (unlessLatched_clear _ he).trans hrun⟩

end Sys2Proof.Machine

/-! SUPPORT. The closed form of a packed section (20_memory R73): a list of elements of one width read as one number, and
where the bits of that number stand in the stream. -/

namespace Sys2Proof.Machine

open Sys2Proof

/-! ## Elements read as one number -/

/-- The low `w` bits of each element as one number, first element least significant. -/
def littleNumber (w : Nat) (vs : List Byte) : Nat := vs.foldr (fun v x => v.toNat % 2 ^ w + 2 ^ w * x) 0

/-- The low `w` bits of each element as one number, first element most significant. -/
def bigNumber (w : Nat) (vs : List Byte) : Nat := vs.foldl (fun x v => 2 ^ w * x + v.toNat % 2 ^ w) 0

section

variable {w : Nat} {vs bytes : List Byte}

theorem littleNumber_cons (w : Nat) (v : Byte) (vs : List Byte) :
    littleNumber w (v :: vs) = 2 ^ w * littleNumber w vs + v.toNat % 2 ^ w :=
  Nat.add_comm _ _

theorem bigNumber_eq_littleNumber_reverse (w : Nat) (vs : List Byte) : bigNumber w vs = littleNumber w vs.reverse := by
  simp only [bigNumber, littleNumber, List.foldr_reverse, Nat.add_comm]

theorem littleEndian_eq_littleNumber (bytes : List Byte) : littleEndian bytes = littleNumber 8 bytes := by
  simp [littleEndian, littleNumber, Nat.mod_eq_of_lt (BitVec.isLt _)]

theorem bigEndian_eq_bigNumber (bytes : List Byte) : bigEndian bytes = bigNumber 8 bytes := by
  simp [bigEndian, bigNumber, Nat.mod_eq_of_lt (BitVec.isLt _)]

theorem littleNumber_eq_sum (w : Nat) (vs : List Byte) :
    littleNumber w vs = ∑ j ∈ Finset.range vs.length, (vs.getD j 0).toNat % 2 ^ w * 2 ^ (j * w) := by
  induction vs with
  | nil => rfl
  | cons v vs ih =>
    rw [littleNumber_cons, ih, List.length_cons, Finset.sum_range_succ', Finset.mul_sum]
    congr 1
    · refine Finset.sum_congr rfl fun j _ => ?_
      rw [List.getD_cons_succ, Nat.add_mul, Nat.one_mul, pow_add]
      ring
    · simp

/-- Least significant first, bit `p` of the number is bit `p % w` of element `p / w`. -/
theorem littleNumber_testBit (hw : 0 < w) (vs : List Byte) (p : Nat) :
    (littleNumber w vs).testBit p = valueBit .lsbFirst w (vs.getD (p / w) 0) (p % w) := by
  induction vs generalizing p with
  | nil => simp [littleNumber, valueBit]
  | cons v vs ih =>
    rw [littleNumber_cons, Nat.testBit_two_pow_mul_add _ (Nat.mod_lt _ (Nat.two_pow_pos w))]
    rcases Nat.lt_or_ge p w with hlt | hge
    · rw [if_pos hlt, Nat.testBit_mod_two_pow, decide_eq_true hlt, Nat.div_eq_of_lt hlt, Nat.mod_eq_of_lt hlt]
      rfl
    · obtain ⟨q, rfl⟩ := Nat.exists_eq_add_of_le hge
      rw [if_neg (by omega), Nat.add_sub_cancel_left, ih, Nat.add_mod_left, Nat.add_div_left q hw, List.getD_cons_succ]

/-- Most significant first, the bits of the number from its top down are the bits of the elements from theirs. -/
theorem bigNumber_testBit {q : Nat} (hq : q < vs.length * w) :
    (bigNumber w vs).testBit (vs.length * w - 1 - q) = valueBit .msbFirst w (vs.getD (q / w) 0) (q % w) := by
  have hw : 0 < w := Nat.pos_of_lt_mul_left hq
  have hj : q / w < vs.length := div_lt_of_lt_mul' hq
  have hr : q % w < w := Nat.mod_lt q hw
  obtain ⟨k, hk⟩ := Nat.exists_eq_add_of_lt hj
  have hpos : vs.length * w - 1 - q = w * k + (w - 1 - q % w) := by
    have hdiv := Nat.div_add_mod q w
    have hlen : vs.length * w = w * (q / w) + w * k + w := by rw [hk]; ring
    omega
  generalize q / w = j at *
  rw [bigNumber_eq_littleNumber_reverse, littleNumber_testBit hw, hpos, Nat.mul_add_div hw, Nat.mul_add_mod,
    Nat.div_eq_of_lt (by omega), Nat.mod_eq_of_lt (by omega), List.getD_eq_getElem?_getD, Nat.add_zero,
    List.getElem?_reverse (by omega), ← List.getD_eq_getElem?_getD, show vs.length - 1 - k = j by omega]
  rfl

theorem littleNumber_lt (hw : 0 < w) (vs : List Byte) : littleNumber w vs < 2 ^ (vs.length * w) := by
  refine Nat.lt_pow_two_of_testBit _ fun p hp => ?_
  rw [littleNumber_testBit hw, List.getD_eq_default _ _ ((Nat.le_div_iff_mul_le hw).2 hp)]
  simp [valueBit]

theorem bigNumber_lt (hw : 0 < w) (vs : List Byte) : bigNumber w vs < 2 ^ (vs.length * w) := by
  simpa [bigNumber_eq_littleNumber_reverse] using littleNumber_lt hw vs.reverse

/-- Numbers of `k` bits are equal if these bits are. -/
theorem eq_iff_testBit {x y k : Nat} (hx : x < 2 ^ k) (hy : y < 2 ^ k) :
    x = y ↔ ∀ p < k, x.testBit p = y.testBit p := by
  refine ⟨fun h p _ => h ▸ rfl, fun h => Nat.eq_of_testBit_eq fun p => ?_⟩
  rcases Nat.lt_or_ge p k with hlt | hge
  · exact h p hlt
  · have hle := Nat.pow_le_pow_right Nat.two_pos hge
    rw [Nat.testBit_lt_two_pow (hx.trans_le hle), Nat.testBit_lt_two_pow (hy.trans_le hle)]

/-- The same from the top bit down. -/
theorem eq_iff_testBit_down {x y k : Nat} (hx : x < 2 ^ k) (hy : y < 2 ^ k) :
    x = y ↔ ∀ q < k, x.testBit (k - 1 - q) = y.testBit (k - 1 - q) := by
  rw [eq_iff_testBit hx hy]
  refine ⟨fun h q hq => h _ (by omega), fun h p hp => ?_⟩
  have hbit := h (k - 1 - p) (by omega)
  rwa [show k - 1 - (k - 1 - p) = p by omega] at hbit

/-! ## The two forms of a section -/

/-- Under LSB_FIRST stream position `p` is bit `p` of the number (20_memory R71, R73). -/
theorem isSection_lsbFirst_iff (hw : 0 < w) :
    IsSection .lsbFirst w vs bytes ↔
      bytes.length = (vs.length * w + 7) / 8 ∧ littleNumber 8 bytes = littleNumber w vs := by
  refine and_congr_right fun (hlen : bytes.length = (vs.length * w + 7) / 8) => ?_
  have hlt := littleNumber_lt hw vs
  rw [eq_iff_testBit (littleNumber_lt (by omega) bytes) (hlt.trans_le (Nat.pow_le_pow_right Nat.two_pos (by omega))),
    Nat.mul_comm bytes.length]
  refine forall₂_congr fun p _ => ?_
  rw [littleNumber_testBit (by omega), byteBit_eq_valueBit, ← littleNumber_testBit hw]
  rcases Nat.lt_or_ge p (vs.length * w) with hp | hp
  · rw [decide_eq_true hp, Bool.true_and]
  · rw [decide_eq_false (Nat.not_lt.2 hp), Bool.false_and,
      Nat.testBit_lt_two_pow (hlt.trans_le (Nat.pow_le_pow_right Nat.two_pos hp))]

/-- Under MSB_FIRST stream positions are the bits of the number from the top down, the pad below them (20_memory R70, R73,
R74). -/
theorem isSection_msbFirst_iff {pad : Nat} (hw : 0 < w) (hpad : pad = (8 - vs.length * w % 8) % 8) :
    IsSection .msbFirst w vs bytes ↔
      bytes.length = (vs.length * w + pad) / 8 ∧ bigNumber 8 bytes = bigNumber w vs * 2 ^ pad := by
  have hceil : sectionLength w vs.length = (vs.length * w + pad) / 8 := by unfold sectionLength; omega
  unfold IsSection
  rw [hceil]
  refine and_congr_right fun hlen => ?_
  have hbits : bytes.length * 8 = vs.length * w + pad := by omega
  have hlt : bigNumber w vs * 2 ^ pad < 2 ^ (bytes.length * 8) := by
    rw [hbits, pow_add]
    exact Nat.mul_lt_mul_of_pos_right (bigNumber_lt hw vs) (Nat.two_pow_pos pad)
  rw [eq_iff_testBit_down (bigNumber_lt (by omega) bytes) hlt, Nat.mul_comm 8]
  refine forall₂_congr fun q hq => ?_
  rw [bigNumber_testBit hq, byteBit_eq_valueBit, Nat.testBit_mul_two_pow]
  rcases Nat.lt_or_ge q (vs.length * w) with hlt | hge
  · rw [decide_eq_true hlt, Bool.true_and, ← bigNumber_testBit hlt, decide_eq_true (by omega), Bool.true_and,
      show bytes.length * 8 - 1 - q - pad = vs.length * w - 1 - q by omega]
  · rw [decide_eq_false (Nat.not_lt.2 hge), decide_eq_false (by omega), Bool.false_and, Bool.false_and]

end

/-- Settles O23: both sides give the same number bit by bit, and numbers of so many bits are equal if their bits are. -/
theorem sectionHasTheClosedForm : Obligations.SectionHasTheClosedForm := by
  unfold Obligations.SectionHasTheClosedForm
  intro w pad vs bytes hw hpad
  have hpos : 0 < w := by omega
  rw [bigEndian_eq_bigNumber, littleEndian_eq_littleNumber, ← littleNumber_eq_sum]
  exact ⟨isSection_msbFirst_iff hpos hpad, isSection_lsbFirst_iff hpos⟩

end Sys2Proof.Machine

/-! SUPPORT. What a word decodes to, format by format (30_encoding R101 to R107, R115, R118): the number and the opcode
of an encoded word, what each format's decoder accepts, and the decoder as the inverse of the encoder. -/

namespace Sys2Proof.Laws

open Sys2Proof Sys2Proof.Machine

/-! ## Words as numbers -/

theorem toNat_append_eq_add {m n : Nat} (a : BitVec m) (b : BitVec n) : (a ++ b).toNat = a.toNat * 2 ^ n + b.toNat := by
  rw [BitVec.toNat_append, ← Nat.shiftLeft_add_eq_or_of_lt b.isLt, Nat.shiftLeft_eq]

/-- A field of a word, as a number. -/
theorem field_toNat (x : Command) (low width : Nat) :
    (x.extractLsb' low width).toNat = x.toNat / 2 ^ low % 2 ^ width := by
  rw [BitVec.extractLsb'_toNat, Nat.shiftRight_eq_div_pow]

theorem field_eq_zero_iff (x : Command) (low width : Nat) :
    x.extractLsb' low width = 0 ↔ x.toNat / 2 ^ low % 2 ^ width = 0 := by
  rw [← BitVec.toNat_inj, field_toNat]
  rfl

theorem opcode_toNat (x : Command) : (x.extractLsb' 24 8).toNat = x.toNat / 2 ^ 24 := by
  rw [field_toNat]
  omega

theorem encodeZ_toNat (op : BitVec 8) : (encodeZ op).toNat = op.toNat * 2 ^ 24 :=
  (toNat_append_eq_add op 0#24).trans (by rw [BitVec.toNat_zero, Nat.add_zero])

theorem encodeI_toNat (op : BitVec 8) (imm : BitVec 24) : (encodeI op imm).toNat = op.toNat * 2 ^ 24 + imm.toNat :=
  toNat_append_eq_add op imm

theorem encodeT_toNat (op : BitVec 8) (th tw : Byte) :
    (encodeT op th tw).toNat = op.toNat * 2 ^ 24 + th.toNat * 2 ^ 8 + tw.toNat := by
  refine (toNat_append_eq_add (op ++ 0#8 ++ th) tw).trans ?_
  rw [toNat_append_eq_add, toNat_append_eq_add, BitVec.toNat_zero]
  ring

theorem encodeR_toNat (op r : BitVec 8) : (encodeR op r).toNat = op.toNat * 2 ^ 24 + r.toNat := by
  refine (toNat_append_eq_add (op ++ 0#16) r).trans ?_
  rw [toNat_append_eq_add, BitVec.toNat_zero]
  ring

theorem encodeU_toNat (op : BitVec 8) (e : Bool) : (encodeU op e).toNat = op.toNat * 2 ^ 24 + e.toNat := by
  refine (toNat_append_eq_add (op ++ 0#23) (BitVec.ofBool e)).trans ?_
  rw [toNat_append_eq_add, BitVec.toNat_zero, BitVec.toNat_ofBool]
  ring

/-! ## The fields of an encoded word -/

@[simp] theorem encodeZ_opcode (op : BitVec 8) : (encodeZ op).extractLsb' 24 8 = op := by
  apply BitVec.eq_of_toNat_eq
  rw [opcode_toNat, encodeZ_toNat]
  omega

@[simp] theorem encodeI_opcode (op : BitVec 8) (imm : BitVec 24) : (encodeI op imm).extractLsb' 24 8 = op := by
  apply BitVec.eq_of_toNat_eq
  rw [opcode_toNat, encodeI_toNat]
  omega

@[simp] theorem encodeT_opcode (op : BitVec 8) (th tw : Byte) : (encodeT op th tw).extractLsb' 24 8 = op := by
  apply BitVec.eq_of_toNat_eq
  rw [opcode_toNat, encodeT_toNat]
  omega

@[simp] theorem encodeR_opcode (op r : BitVec 8) : (encodeR op r).extractLsb' 24 8 = op := by
  apply BitVec.eq_of_toNat_eq
  rw [opcode_toNat, encodeR_toNat]
  omega

@[simp] theorem encodeU_opcode (op : BitVec 8) (e : Bool) : (encodeU op e).extractLsb' 24 8 = op := by
  apply BitVec.eq_of_toNat_eq
  rw [opcode_toNat, encodeU_toNat]
  have := e.toNat_lt
  omega

section

variable {x : Command} {op : BitVec 8} {i : Instr}

/-! ## What each format accepts -/

theorem decodeZ_accepts (h : x.toNat % 2 ^ 24 = 0) (j : Instr) : decodeZ x j = .ok j :=
  if_pos ((field_eq_zero_iff x 0 24).2 (by omega))

theorem decodeT_accepts (h : x.toNat / 2 ^ 16 % 2 ^ 8 = 0) (j : Byte → Byte → Instr) :
    decodeT x j = .ok (j (x.extractLsb' 8 8) (x.extractLsb' 0 8)) :=
  if_pos ((field_eq_zero_iff x 16 8).2 h)

theorem decodeR_accepts (h : x.toNat / 2 ^ 8 % 2 ^ 16 = 0) (hr : x.toNat % 2 ^ 8 ≤ 8) (j : BitVec 8 → Instr) :
    decodeR x j = .ok (j (x.extractLsb' 0 8)) := by
  have hreg : (x.extractLsb' 0 8).toNat ≤ 8 := by
    rw [field_toNat]
    omega
  rw [decodeR, if_pos ((field_eq_zero_iff x 8 16).2 h), if_pos hreg]

theorem decodeU_accepts (h : x.toNat / 2 % 2 ^ 23 = 0) (j : Bool → Instr) : decodeU x j = .ok (j (x.getLsbD 0)) :=
  if_pos ((field_eq_zero_iff x 1 23).2 (by omega))

/-! ## Each format's decoder gives the operands of an encoded word back -/

@[simp] theorem decodeZ_encodeZ (op : BitVec 8) (j : Instr) : decodeZ (encodeZ op) j = .ok j :=
  decodeZ_accepts (by rw [encodeZ_toNat]; omega) j

@[simp] theorem decodeI_encodeI (op : BitVec 8) (imm : BitVec 24) (j : BitVec 24 → Instr) :
    decodeI (encodeI op imm) j = .ok (j imm) := by
  have hfield : (encodeI op imm).extractLsb' 0 24 = imm := by
    apply BitVec.eq_of_toNat_eq
    rw [field_toNat, encodeI_toNat]
    omega
  rw [decodeI, hfield]

@[simp] theorem decodeT_encodeT (op : BitVec 8) (th tw : Byte) (j : Byte → Byte → Instr) :
    decodeT (encodeT op th tw) j = .ok (j th tw) := by
  have hnum := encodeT_toNat op th tw
  have hth : (encodeT op th tw).extractLsb' 8 8 = th := by
    apply BitVec.eq_of_toNat_eq
    rw [field_toNat]
    omega
  have htw : (encodeT op th tw).extractLsb' 0 8 = tw := by
    apply BitVec.eq_of_toNat_eq
    rw [field_toNat]
    omega
  rw [decodeT_accepts (by omega), hth, htw]

theorem decodeR_encodeR (op : BitVec 8) {r : BitVec 8} (hr : r.toNat ≤ 8) (j : BitVec 8 → Instr) :
    decodeR (encodeR op r) j = .ok (j r) := by
  have hnum := encodeR_toNat op r
  have hfield : (encodeR op r).extractLsb' 0 8 = r := by
    apply BitVec.eq_of_toNat_eq
    rw [field_toNat]
    omega
  rw [decodeR_accepts (by omega) (by omega), hfield]

@[simp] theorem decodeU_encodeU (op : BitVec 8) (e : Bool) (j : Bool → Instr) :
    decodeU (encodeU op e) j = .ok (j e) := by
  have hnum := encodeU_toNat op e
  have he := e.toNat_lt
  rw [decodeU_accepts (by omega), encodeU_bit, if_pos rfl]

/-! ## A word that a format's decoder accepts is the encoding of what it gives -/

theorem decodeZ_sound {j : Instr} (h : decodeZ x j = .ok i) (hop : x.extractLsb' 24 8 = op)
    (hj : j.wf = true ∧ encode j = encodeZ op) : i.wf = true ∧ encode i = x := by
  unfold decodeZ at h
  split at h <;> cases h
  rename_i hzero
  rw [field_eq_zero_iff] at hzero
  refine ⟨hj.1, hj.2.trans (BitVec.eq_of_toNat_eq ?_)⟩
  rw [encodeZ_toNat, ← hop, opcode_toNat]
  omega

theorem decodeI_sound {j : BitVec 24 → Instr} (h : decodeI x j = .ok i) (hop : x.extractLsb' 24 8 = op)
    (hj : ∀ imm, (j imm).wf = true ∧ encode (j imm) = encodeI op imm) : i.wf = true ∧ encode i = x := by
  cases h
  obtain ⟨hwf, henc⟩ := hj (x.extractLsb' 0 24)
  refine ⟨hwf, henc.trans (BitVec.eq_of_toNat_eq ?_)⟩
  rw [encodeI_toNat, ← hop, opcode_toNat, field_toNat]
  omega

theorem decodeT_sound {j : Byte → Byte → Instr} (h : decodeT x j = .ok i) (hop : x.extractLsb' 24 8 = op)
    (hj : ∀ th tw, (j th tw).wf = true ∧ encode (j th tw) = encodeT op th tw) : i.wf = true ∧ encode i = x := by
  unfold decodeT at h
  split at h <;> cases h
  rename_i hzero
  rw [field_eq_zero_iff] at hzero
  obtain ⟨hwf, henc⟩ := hj (x.extractLsb' 8 8) (x.extractLsb' 0 8)
  refine ⟨hwf, henc.trans (BitVec.eq_of_toNat_eq ?_)⟩
  rw [encodeT_toNat, ← hop, opcode_toNat, field_toNat, field_toNat]
  omega

theorem decodeR_sound {j : BitVec 8 → Instr} (h : decodeR x j = .ok i) (hop : x.extractLsb' 24 8 = op)
    (hj : ∀ r : BitVec 8, r.toNat ≤ 8 → (j r).wf = true ∧ encode (j r) = encodeR op r) :
    i.wf = true ∧ encode i = x := by
  unfold decodeR at h
  split at h
  · rename_i hzero
    split at h <;> cases h
    rename_i hr
    rw [field_eq_zero_iff] at hzero
    obtain ⟨hwf, henc⟩ := hj _ hr
    refine ⟨hwf, henc.trans (BitVec.eq_of_toNat_eq ?_)⟩
    rw [encodeR_toNat, ← hop, opcode_toNat, field_toNat]
    omega
  · cases h

theorem decodeU_sound {j : Bool → Instr} (h : decodeU x j = .ok i) (hop : x.extractLsb' 24 8 = op)
    (hj : ∀ e, (j e).wf = true ∧ encode (j e) = encodeU op e) : i.wf = true ∧ encode i = x := by
  unfold decodeU at h
  split at h <;> cases h
  rename_i hzero
  rw [field_eq_zero_iff] at hzero
  have hbit : (x.getLsbD 0).toNat = x.toNat % 2 :=
    (Nat.toNat_testBit x.toNat 0).trans (by rw [Nat.pow_zero, Nat.div_one])
  obtain ⟨hwf, henc⟩ := hj (x.getLsbD 0)
  refine ⟨hwf, henc.trans (BitVec.eq_of_toNat_eq ?_)⟩
  rw [encodeU_toNat, ← hop, opcode_toNat, hbit]
  omega

/-! ## The decoder and the encoder are inverse -/

/-- The decoder gives every command that has a legal word back from that word. -/
theorem decode_encode (hi : i.wf = true) : decode (encode i) = .ok i := by
  cases i with
  | getreg r => simp [decode, encode, decodeR_encodeR _ (of_decide_eq_true hi)]
  | nop | clrerr | sreset | pack5 | pack7 | tsum | tavg | tdiff | tdsum => rfl
  | seth imm | setw imm => simp [decode, encode]
  | unpack5 e | unpack7 e => simp [decode, encode]
  | lda th tw | ldb th tw => simp [decode, encode]

/-- One comparison of the opcode: the row applies, or the rest of the map does. -/
theorem of_row {c : Prop} [Decidable c] {a b r : Except IllegalWord Instr} {goal : Prop}
    (h : (if c then a else b) = r) (hrow : a = r → c → goal) (hrest : b = r → goal) : goal := by
  rcases ite_eq_iff.1 h with ⟨hc, ha⟩ | ⟨-, hb⟩
  · exact hrow ha hc
  · exact hrest hb

/-- What a word decodes to is well formed, and the word is its encoding: one line for each row of R106, in its order. -/
theorem decode_sound (h : decode x = .ok i) : i.wf = true ∧ encode i = x := by
  refine of_row h (fun h hop => decodeZ_sound h hop ⟨rfl, rfl⟩) fun h => ?_
  refine of_row h (fun h hop => decodeI_sound h hop (fun _ => ⟨rfl, rfl⟩)) fun h => ?_
  refine of_row h (fun h hop => decodeI_sound h hop (fun _ => ⟨rfl, rfl⟩)) fun h => ?_
  refine of_row h (fun h hop => decodeR_sound h hop (fun _ hr => ⟨decide_eq_true hr, rfl⟩)) fun h => ?_
  refine of_row h (fun h hop => decodeZ_sound h hop ⟨rfl, rfl⟩) fun h => ?_
  refine of_row h (fun h hop => decodeZ_sound h hop ⟨rfl, rfl⟩) fun h => ?_
  refine of_row h (fun h hop => decodeZ_sound h hop ⟨rfl, rfl⟩) fun h => ?_
  refine of_row h (fun h hop => decodeZ_sound h hop ⟨rfl, rfl⟩) fun h => ?_
  refine of_row h (fun h hop => decodeU_sound h hop (fun _ => ⟨rfl, rfl⟩)) fun h => ?_
  refine of_row h (fun h hop => decodeU_sound h hop (fun _ => ⟨rfl, rfl⟩)) fun h => ?_
  refine of_row h (fun h hop => decodeT_sound h hop (fun _ _ => ⟨rfl, rfl⟩)) fun h => ?_
  refine of_row h (fun h hop => decodeT_sound h hop (fun _ _ => ⟨rfl, rfl⟩)) fun h => ?_
  refine of_row h (fun h hop => decodeZ_sound h hop ⟨rfl, rfl⟩) fun h => ?_
  refine of_row h (fun h hop => decodeZ_sound h hop ⟨rfl, rfl⟩) fun h => ?_
  refine of_row h (fun h hop => decodeZ_sound h hop ⟨rfl, rfl⟩) fun h => ?_
  refine of_row h (fun h hop => decodeZ_sound h hop ⟨rfl, rfl⟩) fun h => ?_
  cases h

end

/-- Settles O2: the opcode selects the command's format, and each format gives its operands back. -/
theorem decodeInvertsEncode : Obligations.DecodeInvertsEncode := by
  unfold Obligations.DecodeInvertsEncode
  exact fun i hi => decode_encode hi

/-- Settles O3: the fields that must be 0 and the operands determine the word. -/
theorem decodedWordIsTheEncoding : Obligations.DecodedWordIsTheEncoding := by
  unfold Obligations.DecodedWordIsTheEncoding
  exact fun x i h => decode_sound h

/-- Settles O1: the legal examples are encodings, so the decoder gives them back; the illegal ones are evaluated. -/
theorem workedEncodingsDecode : Obligations.WorkedEncodingsDecode := by
  unfold Obligations.WorkedEncodingsDecode
  refine ⟨fun e he => ?_, rfl, rfl, rfl, rfl⟩
  have henc : e.2.wf = true ∧ encode e.2 = e.1 := by
    revert e
    decide
  exact ⟨henc.2 ▸ decode_encode henc.1, henc.2⟩

/-! ## The legal words and the rows of the opcode table -/

section

variable {x : Command} {i : Instr}

theorem opcode_of_number {n : Nat} (h : x.toNat / 2 ^ 24 = n) : x.extractLsb' 24 8 = BitVec.ofNat 8 n := by
  rw [← h, ← opcode_toNat, BitVec.ofNat_toNat, BitVec.setWidth_eq]

/-- The decoder accepts every word that R118 calls legal, clause by clause: the opcode selects a row of R106, and the
row's format accepts the word. -/
theorem legalWord_accepted (h : legalWord x = true) : ∃ i, decode x = .ok i := by
  simp only [legalWord] at h
  split at h
  next hop =>
    have hzero := decodeZ_accepts (beq_iff_eq.1 h)
    simp only [List.mem_cons, List.not_mem_nil, or_false] at hop
    rcases hop with hop | hop | hop | hop | hop | hop | hop | hop | hop <;>
      simp [decode, opcode_of_number hop, hzero]
  split at h
  next hop =>
    simp only [List.mem_cons, List.not_mem_nil, or_false] at hop
    rcases hop with hop | hop <;> simp [decode, opcode_of_number hop, decodeI]
  split at h
  next hop =>
    obtain ⟨hzero, hreg⟩ := Bool.and_eq_true_iff.1 h
    simp [decode, opcode_of_number hop, decodeR_accepts (beq_iff_eq.1 hzero) (of_decide_eq_true hreg)]
  split at h
  next hop =>
    have hzero := decodeU_accepts (beq_iff_eq.1 h)
    simp only [List.mem_cons, List.not_mem_nil, or_false] at hop
    rcases hop with hop | hop <;> simp [decode, opcode_of_number hop, hzero]
  split at h
  next hop =>
    have hzero := decodeT_accepts (beq_iff_eq.1 h)
    simp only [List.mem_cons, List.not_mem_nil, or_false] at hop
    rcases hop with hop | hop <;> simp [decode, opcode_of_number hop, hzero]
  · cases h

/-- Each mask of the table clears the low `k` bits and keeps the rest: above them the word is the row's match. -/
theorem number_of_masked {m : Command} (k : Nat) (h : x &&& BitVec.allOnes 32 <<< k = m) :
    x.toNat / 2 ^ k = m.toNat / 2 ^ k := by
  have hlt : x.toNat / 2 ^ k * 2 ^ k < 2 ^ 32 := (Nat.div_mul_le_self _ _).trans_lt x.isLt
  rw [← h, ← BitVec.shiftLeft_ushiftRight, BitVec.toNat_shiftLeft, BitVec.toNat_ushiftRight, Nat.shiftLeft_eq,
    Nat.shiftRight_eq_div_pow, Nat.mod_eq_of_lt hlt, Nat.mul_div_cancel _ (Nat.two_pow_pos k)]

/-! ### The rows by format: what their masks leave says that R118's clause for the format holds -/

theorem legalWord_of_rowI (h : x.toNat / 2 ^ 24 = 1 ∨ x.toNat / 2 ^ 24 = 2) : legalWord x = true := by
  rcases h with h | h <;> · simp only [legalWord, h]; rfl

theorem legalWord_of_rowR (h : x.toNat / 2 ^ 8 = 3 * 2 ^ 16) (hreg : x.toNat % 256 ≤ 8) : legalWord x = true := by
  have hop : x.toNat / 2 ^ 24 = 3 := by omega
  have hzero : x.toNat / 2 ^ 8 % 2 ^ 16 = 0 := by omega
  simp only [legalWord, hop, hzero]
  exact decide_eq_true hreg

theorem legalWord_of_rowU (h : x.toNat / 2 = 0x12 * 2 ^ 23 ∨ x.toNat / 2 = 0x13 * 2 ^ 23) : legalWord x = true := by
  have hop : x.toNat / 2 ^ 24 = 0x12 ∨ x.toNat / 2 ^ 24 = 0x13 := by omega
  have hzero : x.toNat / 2 % 2 ^ 23 = 0 := by omega
  rcases hop with hop | hop <;> · simp only [legalWord, hop, hzero]; rfl

theorem legalWord_of_rowT (h : x.toNat / 2 ^ 16 = 0x20 * 2 ^ 8 ∨ x.toNat / 2 ^ 16 = 0x21 * 2 ^ 8) :
    legalWord x = true := by
  have hop : x.toNat / 2 ^ 24 = 0x20 ∨ x.toNat / 2 ^ 24 = 0x21 := by omega
  have hzero : x.toNat / 2 ^ 16 % 2 ^ 8 = 0 := by omega
  rcases hop with hop | hop <;> · simp only [legalWord, hop, hzero]; rfl

/-- A row of format Z is a single legal word; the other rows are two of format I, one of R, two of U and two of T. -/
theorem row_format : ∀ row ∈ opcodeRows,
    (row.2 = BitVec.allOnes 32 ∧ legalWord row.1 = true) ∨
    row = (0x01000000, 0xFF000000) ∨ row = (0x02000000, 0xFF000000) ∨
    row = (0x03000000, 0xFFFFFF00) ∨
    row = (0x12000000, 0xFFFFFFFE) ∨ row = (0x13000000, 0xFFFFFFFE) ∨
    row = (0x20000000, 0xFFFF0000) ∨ row = (0x21000000, 0xFFFF0000) := by simp [opcodeRows, legalWord]

/-- A word that selects a row, and on the GETREG row names a register, is legal. -/
theorem legalWord_of_row {row : Command × Command} (hrow : row ∈ opcodeRows) (h : x &&& row.2 = row.1)
    (hreg : row.1 = 0x03000000 → x.toNat % 256 ≤ 8) : legalWord x = true := by
  rcases row_format row hrow with ⟨hmask, hm⟩ | rfl | rfl | rfl | rfl | rfl | rfl | rfl
  · rw [hmask, BitVec.and_allOnes] at h
    rwa [h]
  · exact legalWord_of_rowI (.inl (number_of_masked 24 h))
  · exact legalWord_of_rowI (.inr (number_of_masked 24 h))
  · exact legalWord_of_rowR (number_of_masked 8 h) (hreg rfl)
  · exact legalWord_of_rowU (.inl (number_of_masked 1 h))
  · exact legalWord_of_rowU (.inr (number_of_masked 1 h))
  · exact legalWord_of_rowT (.inl (number_of_masked 16 h))
  · exact legalWord_of_rowT (.inr (number_of_masked 16 h))

/-- The word of every command selects the command's own row. -/
theorem encode_selects_row (i : Instr) : Row.Statement i := by
  cases i with
  | nop => exact Row.nop
  | seth imm => exact Row.seth imm
  | setw imm => exact Row.setw imm
  | getreg r => exact Row.getreg r
  | clrerr => exact Row.clrerr
  | sreset => exact Row.sreset
  | pack5 => exact Row.pack5
  | pack7 => exact Row.pack7
  | unpack5 e => exact Row.unpack5 e
  | unpack7 e => exact Row.unpack7 e
  | lda th tw => exact Row.lda th tw
  | ldb th tw => exact Row.ldb th tw
  | tsum => exact Row.tsum
  | tavg => exact Row.tavg
  | tdiff => exact Row.tdiff
  | tdsum => exact Row.tdsum

theorem row_mem (i : Instr) : opcodeRows.getD i.rowIndex (0, 0) ∈ opcodeRows := by
  have hlt : i.rowIndex < opcodeRows.length := by cases i <;> simp [opcodeRows, Instr.rowIndex]
  rw [List.getD_eq_getElem _ _ hlt]
  exact List.getElem_mem hlt

/-- Only GETREG has the row that asks for a register number, and its word ends in that number. -/
theorem getregRow_register (hi : i.wf = true) (h : (opcodeRows.getD i.rowIndex (0, 0)).1 = 0x03000000) :
    (encode i).toNat % 256 ≤ 8 := by
  cases i with
  | getreg r =>
    have hr : r.toNat ≤ 8 := of_decide_eq_true hi
    have hnum : (encode (.getreg r)).toNat = 3 * 2 ^ 24 + r.toNat := encodeR_toNat 3 r
    omega
  | _ => simp [opcodeRows, Instr.rowIndex] at h

/-- The word selects a row of the table by match and mask, with a register number on the GETREG row (R118). -/
def SelectsARow (x : Command) : Prop :=
  ∃ row ∈ opcodeRows, x &&& row.2 = row.1 ∧ (row.1 = 0x03000000 → x.toNat % 256 ≤ 8)

theorem selectsARow_of_decode (h : decode x = .ok i) : SelectsARow x := by
  obtain ⟨hwf, rfl⟩ := decode_sound h
  exact ⟨_, row_mem i, encode_selects_row i, getregRow_register hwf⟩

theorem legalWord_of_decode (h : decode x = .ok i) : legalWord x = true := by
  obtain ⟨row, hrow, hselects, hreg⟩ := selectsARow_of_decode h
  exact legalWord_of_row hrow hselects hreg

/-- The top six bits of a word are the opcode's. -/
theorem opcode_of_top_bits (h : x.toNat / 2 ^ 26 = 4) : (x.extractLsb' 24 8).toNat / 4 = 4 := by
  rw [opcode_toNat]
  omega

end

/-- Settles O4: what decodes selects its row, what selects a row is legal, and what is legal decodes. -/
theorem decoderAcceptsTheLegalWords : Obligations.DecoderAcceptsTheLegalWords := by
  unfold Obligations.DecoderAcceptsTheLegalWords
  refine fun x => ⟨⟨fun ⟨_, hi⟩ => legalWord_of_decode hi, legalWord_accepted⟩, fun hlegal => ?_, ?_⟩
  · obtain ⟨i, hi⟩ := legalWord_accepted hlegal
    exact selectsARow_of_decode hi
  · rintro ⟨row, hrow, hselects, hreg⟩
    exact legalWord_of_row hrow hselects hreg

/-- Settles O5: a decoded word is its command's encoding; the codec words have these bits, and no other opcode has 4 in
its top six bits. -/
theorem codecOpcodeBits : Obligations.CodecOpcodeBits := by
  unfold Obligations.CodecOpcodeBits
  intro x i h hx
  obtain ⟨-, rfl⟩ := decode_sound h
  have hop := opcode_of_top_bits hx
  cases i with
  | pack5 | pack7 => rfl
  | unpack5 e | unpack7 e => cases e <;> rfl
  | _ => simp [encode] at hop

end Sys2Proof.Laws

/-! SUPPORT. How the step answers a command word: illegal words from the decoder's answer alone (30_encoding R115,
R116), and commands from the fact that none is refused by the model and only a port that never answers stops one
(30_encoding R106, R108; 70_reset_and_hazards R312). -/

namespace Sys2Proof.Machine

open Sys2Proof Sys2Proof.Laws

/-! ## Illegal words -/

theorem answerWord_illegal {x : Command} (hx : legalWord x = false) (s : State) :
    answerWord x s = .next (raise .badCommand s) := by
  unfold answerWord
  split
  next i hi =>
    rw [legalWord_of_decode hi] at hx
    cases hx
  next => rfl

/-- Settles O6: the decoder rejects the word, and raising BadCommand is the whole effect. -/
theorem illegalWordsAnswerBadCommand : Obligations.IllegalWordsAnswerBadCommand := by
  unfold Obligations.IllegalWordsAnswerBadCommand
  intro s x rest hhost hx
  exact (step_action hhost).trans (answerWord_illegal hx _)

/-! ## Runs of the codec machines while the ports answer -/

/-- The ports of a codec command answer: its input ends in `EOS`, and the sink answers every push. -/
def Engine.PortsAnswer (m : Engine) : Prop := m.input.atEnd = .eos ∧ .never ∉ m.sink

section

variable {o : BitOrder} {w : Width} {m m0 : Engine}

theorem Engine.Onward.portsAnswer (h : m0.Onward m) (hm : m0.PortsAnswer) : m.PortsAnswer := by
  obtain ⟨heos, hsink⟩ := hm
  obtain ⟨k, hk⟩ := h.input
  obtain ⟨j, hj⟩ := h.sink
  refine ⟨by rw [hk]; exact heos, fun hnever => hsink ?_⟩
  rw [hj] at hnever
  exact List.mem_of_mem_drop hnever

/-- A stretch that uses its ports onward, then another: with ports that answer neither hangs. -/
theorem andThen_ne_stuck {r : Run} {f : Engine → Run} (hm : m0.PortsAnswer) (hr : r ≠ .stuck) (hon : r.All m0.Onward)
    (hf : ∀ m, m.PortsAnswer → f m ≠ .stuck) : r.andThen f ≠ .stuck := by
  cases r with
  | going m => exact hf m (hon.portsAnswer hm)
  | raised k m => exact Run.noConfusion
  | stuck => exact absurd rfl hr

theorem pull_ne_never {p : InPort} (h : p.atEnd = .eos) : p.pull ≠ .never := by
  intro hp
  rw [(pull_never hp).2] at h
  cases h

theorem pullValue_ne_stuck (hm : m.PortsAnswer) : pullValue w m ≠ .stuck := by
  rcases pullValue_cases w m with ⟨-, h⟩ | ⟨-, x, xs, -, h⟩ | ⟨-, -, h⟩ | ⟨-, hin, -⟩
  · simp [h]
  · simp [h]
  · simp [h]
  · simp [Engine.PortsAnswer, hin] at hm

theorem pullByte_ne_stuck (hm : m.PortsAnswer) : pullByte m ≠ .stuck := by
  rcases pullByte_cases m with ⟨-, h⟩ | ⟨-, x, xs, -, h⟩ | ⟨-, -, h⟩ | ⟨-, hin, -⟩
  · simp [h]
  · simp [h]
  · simp [h]
  · simp [Engine.PortsAnswer, hin] at hm

theorem pushByte_ne_stuck (hm : m.PortsAnswer) : pushByte m ≠ .stuck := by
  rcases pushByte_cases m with ⟨-, h⟩ | ⟨-, h⟩ | ⟨hnever, -⟩
  · simp [h]
  · simp [h]
  · exact absurd (nextAnswer_never hnever) hm.2

theorem emitByte_ne_stuck (hm : m.PortsAnswer) : emitByte m ≠ .stuck := by
  unfold emitByte
  split
  · exact pushByte_ne_stuck hm
  · exact Run.noConfusion

theorem flushByte_ne_stuck (hm : m.PortsAnswer) : flushByte m ≠ .stuck := by
  unfold flushByte
  split
  · exact Run.noConfusion
  · exact pushByte_ne_stuck hm

theorem packStep_ne_stuck (hm : m.PortsAnswer) : packStep o w m ≠ .stuck :=
  andThen_ne_stuck hm (pullValue_ne_stuck hm) (pullValue_onward (.refl m)) fun _ hp =>
    andThen_ne_stuck hp (emitByte_ne_stuck hp) (emitByte_onward (.move (.refl _) _)) fun _ _ => Run.noConfusion

theorem packLoop_ne_stuck (n fuel : Nat) (hm : m.PortsAnswer) : packLoop o w n fuel m ≠ .stuck := by
  induction fuel generalizing m with
  | zero => exact Run.noConfusion
  | succ fuel ih =>
    unfold packLoop
    split
    · exact Run.noConfusion
    · exact andThen_ne_stuck hm (packStep_ne_stuck hm) (packStep_onward (.refl m)) fun _ => ih

theorem packRun_ne_stuck (n : Nat) (hm : m.PortsAnswer) : packRun o w n m ≠ .stuck :=
  andThen_ne_stuck hm (packLoop_ne_stuck n _ hm) (packLoop_all n (fun _ => packStep_onward) _ m (.refl m))
    fun _ => flushByte_ne_stuck

theorem unpackStep_ne_stuck (hm : m.PortsAnswer) : unpackStep o w m ≠ .stuck :=
  andThen_ne_stuck hm (pullByte_ne_stuck hm) (pullByte_onward (.refl m)) fun _ _ => Run.noConfusion

theorem unpackLoop_ne_stuck (n fuel : Nat) (hm : m.PortsAnswer) : unpackLoop o w n fuel m ≠ .stuck := by
  induction fuel generalizing m with
  | zero => exact Run.noConfusion
  | succ fuel ih =>
    unfold unpackLoop
    split
    · exact andThen_ne_stuck hm (unpackStep_ne_stuck hm) (unpackStep_onward (.refl m)) fun _ => ih
    · exact Run.noConfusion

theorem probeEnd_ne_stuck (e : Bool) (hm : m.PortsAnswer) : probeEnd e m ≠ .stuck := by
  unfold probeEnd
  split
  · split
    next => exact Run.noConfusion
    next => exact Run.noConfusion
    next hnever => exact absurd hnever (pull_ne_never hm.1)
  · exact Run.noConfusion

theorem unpackRun_ne_stuck (n : Nat) (e : Bool) (hm : m.PortsAnswer) : unpackRun o w n e m ≠ .stuck :=
  andThen_ne_stuck hm (unpackLoop_ne_stuck n _ hm) (unpackLoop_all n (fun _ => unpackStep_onward) _ m (.refl m))
    fun _ => probeEnd_ne_stuck e

end

/-! ## Every command goes on, unless a port never answers -/

/-- The result is never a refusal, and under the condition `p` it is a next state. -/
def GoesOnIf (p : Prop) : Result → Prop
  | .next _ => True
  | .fault _ => ¬ p
  | .refused _ => False

section

variable {p : Prop} {r : Result} {s : State}

theorem GoesOnIf.ne_refused (h : GoesOnIf p r) (why : Refusal) : r ≠ .refused why := by
  rintro rfl
  exact h

theorem GoesOnIf.exists_next (h : GoesOnIf p r) (hp : p) : ∃ t, r = .next t := by
  cases r with
  | next t => exact ⟨t, rfl⟩
  | fault f => exact absurd hp h
  | refused why => exact h.elim

theorem goesOnIf_ite {c : Bool} {a b : Result} (ha : GoesOnIf p a) (hb : GoesOnIf p b) :
    GoesOnIf p (if c then a else b) := by
  cases c with
  | false => exact hb
  | true => exact ha

theorem unlessLatched_goesOnIf {run : State → Result} (h : GoesOnIf p (run s)) : GoesOnIf p (unlessLatched s run) :=
  goesOnIf_ite trivial h

theorem finishRun_goesOnIf {back : Engine → State → State} {r : Run} (h : p → r ≠ .stuck) :
    GoesOnIf p (finishRun back s r) := by
  cases r with
  | going m => trivial
  | raised k m => trivial
  | stuck => exact fun hp => h hp rfl

theorem packCommand_goesOnIf (w : Width) (s : State) : GoesOnIf s.portsAnswer (packCommand w s) :=
  unlessLatched_goesOnIf <| goesOnIf_ite trivial <| finishRun_goesOnIf fun ⟨hvin, _, hsink⟩ =>
    packRun_ne_stuck _ ⟨hvin, hsink⟩

theorem unpackCommand_goesOnIf (w : Width) (e : Bool) (s : State) : GoesOnIf s.portsAnswer (unpackCommand w e s) :=
  unlessLatched_goesOnIf <| goesOnIf_ite trivial <| finishRun_goesOnIf fun ⟨_, hbin, hsink⟩ =>
    unpackRun_ne_stuck _ e ⟨hbin, hsink⟩

theorem loadTile_goesOnIf (put : TileBuf → State → State) (b : TileBuf) (th tw : Byte) (s : State) :
    GoesOnIf s.portsAnswer (loadTile put b th tw s) := by
  refine goesOnIf_ite ?_ trivial
  rcases fillCells_cases s.params (positions th.toNat tw.toNat) b.cells s.vin with
    ⟨-, hf⟩ | ⟨-, -, hf⟩ | ⟨-, hnever, hf⟩ <;> rw [hf]
  · trivial
  · trivial
  · intro ⟨hvin, _⟩
    rw [hvin] at hnever
    cases hnever

theorem withTileA_goesOnIf {run : State → Result} (h : GoesOnIf p (run s)) : GoesOnIf p (withTileA s run) :=
  unlessLatched_goesOnIf (goesOnIf_ite h trivial)

theorem withBothTiles_goesOnIf {run : State → Result} (h : GoesOnIf p (run s)) : GoesOnIf p (withBothTiles s run) :=
  unlessLatched_goesOnIf (goesOnIf_ite (goesOnIf_ite h trivial) trivial)

theorem execSeth_goesOnIf (imm : BitVec 24) (s : State) : GoesOnIf p (execSeth imm s) :=
  unlessLatched_goesOnIf (goesOnIf_ite trivial trivial)

theorem execSetw_goesOnIf (imm : BitVec 24) (s : State) : GoesOnIf p (execSetw imm s) :=
  unlessLatched_goesOnIf (goesOnIf_ite trivial trivial)

theorem execGetreg_goesOnIf (r : BitVec 8) (s : State) : GoesOnIf p (execGetreg r s) := by
  unfold execGetreg
  split <;> trivial

theorem exec_goesOnIf (i : Instr) (s : State) : GoesOnIf s.portsAnswer (exec i s) := by
  cases i with
  | nop | clrerr | sreset => trivial
  | seth imm => exact execSeth_goesOnIf imm s
  | setw imm => exact execSetw_goesOnIf imm s
  | getreg r => exact execGetreg_goesOnIf r s
  | pack5 | pack7 => exact packCommand_goesOnIf _ s
  | unpack5 e | unpack7 e => exact unpackCommand_goesOnIf _ e s
  | lda th tw | ldb th tw => exact unlessLatched_goesOnIf (loadTile_goesOnIf _ _ th tw s)
  | tsum | tavg => exact withTileA_goesOnIf (by trivial)
  | tdiff | tdsum => exact withBothTiles_goesOnIf (by trivial)

/-! ## The answer to a command word -/

theorem answerWord_goesOnIf (x : Command) (s : State) : GoesOnIf s.portsAnswer (answerWord x s) := by
  unfold answerWord
  split
  · exact exec_goesOnIf _ s
  · trivial

/-- One response more, with a code of 60_exceptions R251 and with RES = 0 if it reports an error; the host's actions to
come are as they were. -/
def AnsweredOnce (s t : State) : Prop :=
  t.host = s.host ∧ ∃ r : Response, t.responses = s.responses ++ [r] ∧ r.err.toNat ≤ 4 ∧ (r.err ≠ 0 → r.res = 0)

theorem raise_answeredOnce (k : ErrKind) (s : State) : AnsweredOnce s (raise k s) :=
  ⟨rfl, _, rfl, code_le_four k, fun _ => rfl⟩

theorem Ends.answeredOnce {i : Instr} {t : State} (h : Ends i s t) (he : s.err.toNat ≤ 4) : AnsweredOnce s t := by
  cases h with
  | refused => exact ⟨rfl, _, rfl, he, fun _ => rfl⟩
  | answered hw v => exact ⟨hw.host_eq, ⟨0, v⟩, congrArg (· ++ _) hw.responses_eq, Nat.zero_le _, (absurd rfl ·)⟩
  | failed hw k =>
    exact ⟨hw.host_eq, ⟨k.code, 0⟩, congrArg (· ++ _) hw.responses_eq, code_le_four k, fun _ => rfl⟩

theorem answerWord_answeredOnce {x : Command} {t : State} (h : answerWord x s = .next t) (he : s.err.toNat ≤ 4) :
    AnsweredOnce s t := by
  rcases answerWord_next h with ⟨i, -, hi⟩ | rfl
  · exact hi.answeredOnce he
  · exact raise_answeredOnce .badCommand s

end

/-- Settles O20: every arm of `exec` ends in a next state or, on a codec command or a load, in a fault. -/
theorem noCommandIsLeftOut : Obligations.NoCommandIsLeftOut := by
  unfold Obligations.NoCommandIsLeftOut
  exact fun i s => (exec_goesOnIf i s).ne_refused

/-- Settles O19: with ports that answer the word goes on, and every word that goes on has left one response. -/
theorem everyCommandIsAnsweredOnce : Obligations.EveryCommandIsAnsweredOnce := by
  unfold Obligations.EveryCommandIsAnsweredOnce
  intro s x rest hports he hhost
  obtain ⟨t, ht⟩ := (answerWord_goesOnIf x { s with host := rest }).exists_next hports
  obtain ⟨hrest, r, hr, hcode, hres⟩ := answerWord_answeredOnce ht he
  exact ⟨t, r, (step_action hhost).trans ht, hrest, hr, hcode, hres⟩

end Sys2Proof.Machine

/-! SUPPORT. The two bit primitives (40_bit_primitives R130, R131), and the mask tables through the segment rule (R135,
R136, R148): an entry takes the run of bits of its segment from its place in a value to its place in a byte, or back,
and every property of the tables (R142 to R146) is a property of such moves. -/

namespace Sys2Proof.Machine

open Sys2Proof

/-! ## The primitives -/

theorem dshift_toNat_of_neg (b : Byte) {s : Int} (hs : s < 0) :
    (dshift b s).toNat = b.toNat * 2 ^ (-s).toNat % 256 := by
  rw [dshift, if_pos hs, BitVec.toNat_shiftLeft, Nat.shiftLeft_eq]

theorem dshift_toNat_of_nonneg (b : Byte) {s : Int} (hs : 0 ≤ s) : (dshift b s).toNat = b.toNat / 2 ^ s.toNat := by
  rw [dshift, if_neg (by omega), BitVec.toNat_ushiftRight, Nat.shiftRight_eq_div_pow]

theorem dshift_by_zero (b : Byte) : dshift b 0 = b :=
  BitVec.eq_of_toNat_eq (by rw [dshift_toNat_of_nonneg b le_rfl]; exact Nat.div_one _)

theorem dshift_of_zero (s : Int) : dshift 0 s = 0 := by
  rw [dshift]
  split <;> simp

/-- Settles O40: each sign of the count has its own shift, and a count of 0 divides by 1. -/
theorem directionalShift : Obligations.DirectionalShift := by
  unfold Obligations.DirectionalShift
  refine ⟨fun b s _ _ => ⟨dshift_toNat_of_neg b, ?_, fun hs => dshift_toNat_of_nonneg b hs.le, dshift_of_zero s⟩,
    by decide, by decide⟩
  rintro rfl
  exact dshift_by_zero b

theorem popcount8_eq_card (b : Byte) : popcount8 b = ((Finset.range 8).filter fun k => b.getLsbD k = true).card := by
  simp [popcount8, Finset.filter, Finset.card, Multiset.range]

/-- Settles O41: the bits that are 1 are counted one by one. -/
theorem populationCount : Obligations.PopulationCount := by
  unfold Obligations.PopulationCount
  refine ⟨fun b => ⟨?_, List.length_filter_le _ _⟩, by decide, by decide, by decide⟩
  rw [popcount8_eq_card, Finset.card_filter]
  refine Finset.sum_congr rfl fun k _ => ?_
  rw [← Nat.toNat_testBit, BitVec.getLsbD]
  cases b.toNat.testBit k <;> rfl

/-! ## Runs of bits -/

/-- A mask of `n` bits from bit `lo` on. -/
def runMask (n lo : Nat) : Byte := BitVec.ofNat 8 ((2 ^ n - 1) * 2 ^ lo)

section
variable {n lo dst size : Nat}

theorem run_lt (h : lo + n ≤ size) : (2 ^ n - 1) * 2 ^ lo < 2 ^ size :=
  calc (2 ^ n - 1) * 2 ^ lo < 2 ^ n * 2 ^ lo :=
        Nat.mul_lt_mul_of_pos_right (Nat.sub_lt (Nat.two_pow_pos n) Nat.one_pos) (Nat.two_pow_pos lo)
    _ = 2 ^ (lo + n) := by rw [Nat.pow_add, Nat.mul_comm]
    _ ≤ 2 ^ size := Nat.pow_le_pow_right Nat.two_pos h

theorem runMask_toNat (h : lo + n ≤ 8) : (runMask n lo).toNat = (2 ^ n - 1) * 2 ^ lo := by
  rw [runMask, BitVec.toNat_ofNat, Nat.mod_eq_of_lt (run_lt h)]

theorem runMask_getLsbD (h : lo + n ≤ 8) (j : Nat) : (runMask n lo).getLsbD j = decide (lo ≤ j ∧ j < lo + n) := by
  rw [BitVec.getLsbD, runMask_toNat h, Nat.testBit_mul_two_pow, Nat.testBit_two_pow_sub_one, ← Bool.decide_and,
    decide_eq_decide]
  omega

theorem popcount8_runMask (h : lo + n ≤ 8) : popcount8 (runMask n lo) = n := by
  have hrun : ((Finset.range 8).filter fun k => (runMask n lo).getLsbD k = true) = Finset.Ico lo (lo + n) := by
    ext k
    simp only [runMask_getLsbD h, Finset.mem_filter, Finset.mem_range, Finset.mem_Ico, decide_eq_true_eq]
    omega
  rw [popcount8_eq_card, hrun, Nat.card_Ico, Nat.add_sub_cancel_left]

/-- The run at `lo` of a byte, moved to `dst`. -/
theorem dshift_run_getLsbD (h : lo + n ≤ 8) (x : Byte) {i : Nat} (hi : i < 8) :
    (dshift (x &&& runMask n lo) (lo - dst)).getLsbD i =
      (decide (dst ≤ i ∧ i < dst + n) && x.getLsbD (lo + (i - dst))) :=
  moved_lsb le_rfl hi (runMask_getLsbD h) rfl

theorem dshift_runMask (hlo : lo + n ≤ 8) (hdst : dst + n ≤ 8) : dshift (runMask n lo) (lo - dst) = runMask n dst := by
  refine BitVec.eq_of_getLsbD_eq fun i hi => ?_
  rw [← BitVec.and_self (x := runMask n lo), dshift_run_getLsbD hlo _ hi, runMask_getLsbD hlo, runMask_getLsbD hdst,
    ← Bool.decide_and, decide_eq_decide]
  omega

/-- Moving a run there and back restores it. -/
theorem dshift_run_back (hlo : lo + n ≤ 8) (hdst : dst + n ≤ 8) (x : Byte) :
    dshift (dshift (x &&& runMask n lo) (lo - dst) &&& runMask n dst) (dst - lo) = x &&& runMask n lo := by
  refine BitVec.eq_of_getLsbD_eq fun i hi => ?_
  rw [dshift_run_getLsbD hdst _ hi, BitVec.getLsbD_and, runMask_getLsbD hlo, Bool.and_comm (x.getLsbD i)]
  by_cases hin : lo ≤ i ∧ i < lo + n
  · have hthere : dst ≤ dst + (i - lo) ∧ dst + (i - lo) < dst + n := by omega
    have hback : lo + (dst + (i - lo) - dst) = i := by omega
    rw [dshift_run_getLsbD hlo _ (by omega), decide_eq_true hthere, hback, Bool.true_and]
  · rw [decide_eq_false hin, Bool.false_and, Bool.false_and]

end

/-! ## Segments -/

/-- The start of segment `k` (40_bit_primitives R135). -/
def segmentStart (w k : Nat) : Nat := (boundaries w).getD k 0

/-- The length of segment `k`. -/
def segmentLength (w k : Nat) : Nat := segmentStart w (k + 1) - segmentStart w k

/-- The lowest bit of a segment in a unit of `size` bits (R136, R148). -/
def segmentLow : BitOrder → Nat → Nat → Nat → Nat
  | .msbFirst, size, s, n => size - s % size - n
  | .lsbFirst, size, s, _ => s % size

/-- The entry that takes `n` bits from bit `src` on to bit `dst` on. -/
def runEntry (n src dst : Nat) : Entry := ⟨runMask n src, src - dst, n⟩

theorem segmentLow_add_le (o : BitOrder) {size s n : Nat} (h : s % size + n ≤ size) : segmentLow o size s n + n ≤ size := by
  cases o <;> simp only [segmentLow] <;> omega

theorem segmentWrite_eq_runEntry (o : BitOrder) {w s n : Nat} (hv : s % w + n ≤ w) (hb : s % 8 + n ≤ 8) :
    segmentWrite o w s n = runEntry n (segmentLow o w s n) (segmentLow o 8 s n) := by
  cases o <;> simp only [segmentWrite, runEntry, runMask, segmentLow, Entry.mk.injEq, true_and, and_true] <;> omega

theorem segmentRead_eq_runEntry (o : BitOrder) {w s n : Nat} (hv : s % w + n ≤ w) (hb : s % 8 + n ≤ 8) :
    segmentRead o w s n = runEntry n (segmentLow o 8 s n) (segmentLow o w s n) := by
  cases o <;> simp only [segmentRead, runEntry, runMask, segmentLow, Entry.mk.injEq, true_and, and_true] <;> omega

theorem boundaries_sorted (w : Nat) : (boundaries w).SortedLT :=
  (List.pairwise_lt_range.filter _).sortedLT

theorem segmentStart_eq_getElem {w k : Nat} (hk : k < (boundaries w).length) : segmentStart w k = (boundaries w)[k] := by
  rw [segmentStart, List.getD_eq_getElem _ _ hk]

theorem mem_boundaries {w p : Nat} : p ∈ boundaries w ↔ p ≤ 8 * w ∧ (p % w = 0 ∨ p % 8 = 0) := by
  simp only [boundaries, List.mem_filter, List.mem_range, Nat.lt_succ_iff, Bool.or_eq_true, beq_iff_eq]

theorem segmentStart_succ {w k : Nat} (hk : k + 1 < (boundaries w).length) :
    segmentStart w (k + 1) = segmentStart w k + segmentLength w k := by
  have hlt : segmentStart w k < segmentStart w (k + 1) := by
    rw [segmentStart_eq_getElem hk, segmentStart_eq_getElem (k.lt_succ_self.trans hk)]
    exact (boundaries_sorted w).getElem_lt_getElem_iff.2 k.lt_succ_self
  rw [segmentLength]
  omega

/-- No boundary lies inside a segment: `B(w)` holds them all, in order. -/
theorem no_boundary_inside {w k p : Nat} (hk : k + 1 < (boundaries w).length) (hlo : segmentStart w k < p)
    (hhi : p < segmentStart w (k + 1)) : p % w ≠ 0 ∧ p % 8 ≠ 0 := by
  rw [segmentStart_eq_getElem (k.lt_succ_self.trans hk)] at hlo
  rw [segmentStart_eq_getElem hk] at hhi
  have hlast : (boundaries w)[k + 1] ≤ 8 * w := (mem_boundaries.1 (List.getElem_mem hk)).1
  rw [← not_or]
  intro hp
  obtain ⟨j, hj, rfl⟩ := List.getElem_of_mem (mem_boundaries.2 ⟨hhi.le.trans hlast, hp⟩)
  have hkj := (boundaries_sorted w).getElem_lt_getElem_iff.1 hlo
  have hjk := (boundaries_sorted w).getElem_lt_getElem_iff.1 hhi
  omega

theorem boundaries_length (w : Width) : (boundaries w.bits).length = w.cycle + 1 := by
  cases w <;> decide

/-- A segment lies inside one value and inside one byte (R135). -/
theorem segment_fits (w : Width) : ∀ k < w.cycle,
    segmentStart w.bits k % w.bits + segmentLength w.bits k ≤ w.bits ∧
    segmentStart w.bits k % 8 + segmentLength w.bits k ≤ 8 := by
  cases w <;> decide

/-- The printed write tables (R138, R140, R149), entry by entry. -/
theorem writeTable_eq_segments (o : BitOrder) (w : Width) : writeTable o w =
    (List.range w.cycle).map fun k => segmentWrite o w.bits (segmentStart w.bits k) (segmentLength w.bits k) := by
  cases o <;> cases w <;> decide

/-- The printed read tables (R139, R141, R149), entry by entry. -/
theorem readTable_eq_segments (o : BitOrder) (w : Width) : readTable o w =
    (List.range w.cycle).map fun k => segmentRead o w.bits (segmentStart w.bits k) (segmentLength w.bits k) := by
  cases o <;> cases w <;> decide

/-! ## Entries -/

section
variable {o : BitOrder} {w : Width} {k : Nat}

theorem entryAt_writeTable (hk : k < w.cycle) :
    entryAt (writeTable o w) k = segmentWrite o w.bits (segmentStart w.bits k) (segmentLength w.bits k) := by
  simp [entryAt, writeTable_eq_segments, hk]

theorem entryAt_readTable (hk : k < w.cycle) :
    entryAt (readTable o w) k = segmentRead o w.bits (segmentStart w.bits k) (segmentLength w.bits k) := by
  simp [entryAt, readTable_eq_segments, hk]

/-- The two entries of a segment move the same run of bits, from the value to the byte and back. -/
theorem segment_moves (o : BitOrder) (hk : k < w.cycle) :
    ∃ value byte, value + segmentLength w.bits k ≤ w.bits ∧ byte + segmentLength w.bits k ≤ 8 ∧
      segmentWrite o w.bits (segmentStart w.bits k) (segmentLength w.bits k) =
        runEntry (segmentLength w.bits k) value byte ∧
      segmentRead o w.bits (segmentStart w.bits k) (segmentLength w.bits k) =
        runEntry (segmentLength w.bits k) byte value := by
  obtain ⟨hv, hb⟩ := segment_fits w k hk
  exact ⟨_, _, segmentLow_add_le o hv, segmentLow_add_le o hb, segmentWrite_eq_runEntry o hv hb,
    segmentRead_eq_runEntry o hv hb⟩

theorem runEntry_of_mem_writeTable {e : Entry} (he : e ∈ writeTable o w) :
    ∃ n value byte, value + n ≤ w.bits ∧ byte + n ≤ 8 ∧ e = runEntry n value byte := by
  rw [writeTable_eq_segments] at he
  obtain ⟨k, hk, rfl⟩ := List.mem_map.1 he
  obtain ⟨value, byte, hv, hb, hw, -⟩ := segment_moves o (List.mem_range.1 hk)
  exact ⟨_, value, byte, hv, hb, hw⟩

theorem runEntry_of_mem_readTable {e : Entry} (he : e ∈ readTable o w) :
    ∃ n value byte, value + n ≤ w.bits ∧ byte + n ≤ 8 ∧ e = runEntry n byte value := by
  rw [readTable_eq_segments] at he
  obtain ⟨k, hk, rfl⟩ := List.mem_map.1 he
  obtain ⟨value, byte, hv, hb, -, hr⟩ := segment_moves o (List.mem_range.1 hk)
  exact ⟨_, value, byte, hv, hb, hr⟩

theorem runEntry_sound {n src dst : Nat} (hsrc : src + n ≤ 8) (hdst : dst + n ≤ 8) :
    n = popcount8 (runMask n src) ∧ (∃ k, (runMask n src).toNat = (2 ^ n - 1) * 2 ^ k) ∧
      popcount8 (dshift (runMask n src) (src - dst)) = popcount8 (runMask n src) := by
  rw [dshift_runMask hsrc hdst, popcount8_runMask hsrc, popcount8_runMask hdst]
  exact ⟨rfl, ⟨src, runMask_toNat hsrc⟩, rfl⟩

theorem width_le_eight (w : Width) : w.bits ≤ 8 := by
  cases w <;> decide

theorem startOf_succ {table : List Entry} (hk : k < table.length) :
    startOf table (k + 1) = startOf table k + (entryAt table k).n := by
  rw [startOf, List.take_succ_eq_append_getElem hk, List.map_append, List.sum_append, startOf, entryAt,
    List.getD_eq_getElem _ _ hk, List.map_singleton, List.sum_singleton]

/-- The entries of both tables of a width have the lengths of the segments. -/
theorem table_lengths {table : List Entry} (ht : table = writeTable o w ∨ table = readTable o w) :
    table.length = w.cycle ∧ ∀ k < w.cycle, (entryAt table k).n = segmentLength w.bits k := by
  rcases ht with rfl | rfl
  · refine ⟨packing_table_length o w, fun k hk => ?_⟩
    rw [entryAt_writeTable hk]
    cases o <;> rfl
  · refine ⟨unpacking_table_length o w, fun k hk => ?_⟩
    rw [entryAt_readTable hk]
    cases o <;> rfl

/-- The running sums of a table are the boundaries. -/
theorem startOf_eq_segmentStart {table : List Entry} (ht : table = writeTable o w ∨ table = readTable o w)
    (hk : k ≤ w.cycle) : startOf table k = segmentStart w.bits k := by
  obtain ⟨hlen, hn⟩ := table_lengths ht
  induction k with
  | zero => cases w <;> rfl
  | succ k ih =>
    rw [startOf_succ (hlen ▸ hk), ih (by omega), hn k hk, segmentStart_succ (by rw [boundaries_length]; omega)]

end

/-! ## The obligations -/

/-- Settles O36: the printed tables are compared with the entries of the segments. -/
theorem tablesFollowTheSegmentRule : Obligations.TablesFollowTheSegmentRule := by
  unfold Obligations.TablesFollowTheSegmentRule
  intro o w _ _
  exact ⟨by cases w <;> rfl, boundaries_length w, writeTable_eq_segments o w, readTable_eq_segments o w⟩

/-- Settles O37: the two entries of a segment move one run of bits there and back. -/
theorem readTableInvertsWriteTable : Obligations.ReadTableInvertsWriteTable := by
  unfold Obligations.ReadTableInvertsWriteTable
  intro o w k x hk
  obtain ⟨value, byte, hv, hb, hwrite, hread⟩ := segment_moves o hk
  have hv8 := hv.trans (width_le_eight w)
  simp only [entryAt_writeTable hk, entryAt_readTable hk, hwrite, hread]
  exact ⟨rfl, (neg_sub _ _).symm, (dshift_runMask hv8 hb).symm, dshift_run_back hv8 hb x⟩

/-- Settles O38: the running sums are the boundaries `B(w)`, which hold every multiple in order. -/
theorem runningSumsMeetTheBoundaries : Obligations.RunningSumsMeetTheBoundaries := by
  unfold Obligations.RunningSumsMeetTheBoundaries
  intro o w table ht
  have hsum : ∀ k ≤ w.cycle, startOf table k = segmentStart w.bits k := fun k => startOf_eq_segmentStart ht
  have hend : ∀ m, (List.range w.cycle).filter (fun k => startOf table (k + 1) % m == 0) =
      (List.range w.cycle).filter (fun k => segmentStart w.bits (k + 1) % m == 0) := fun m =>
    List.filter_congr fun k hk => by rw [hsum (k + 1) (List.mem_range.1 hk)]
  rw [hend, hend]
  refine ⟨(hsum _ le_rfl).trans (by cases w <;> rfl), by cases w <;> rfl, by cases w <;> rfl, fun k hk p hhi hlo => ?_⟩
  rw [hsum _ hk] at hhi
  rw [hsum _ hk.le] at hlo
  exact no_boundary_inside (by rw [boundaries_length]; omega) hlo hhi

/-- Settles O39: every entry moves a run of bits between a value and a byte. -/
theorem tableEntriesAreSound : Obligations.TableEntriesAreSound := by
  unfold Obligations.TableEntriesAreSound
  intro o w e he
  have hsound : e.n = popcount8 e.mask ∧ (∃ k, e.mask.toNat = (2 ^ e.n - 1) * 2 ^ k) ∧
      popcount8 (dshift e.mask e.shift) = popcount8 e.mask := by
    rcases he with he | he
    · obtain ⟨n, value, byte, hv, hb, rfl⟩ := runEntry_of_mem_writeTable he
      exact runEntry_sound (hv.trans (width_le_eight w)) hb
    · obtain ⟨n, value, byte, hv, hb, rfl⟩ := runEntry_of_mem_readTable he
      exact runEntry_sound hb (hv.trans (width_le_eight w))
  obtain ⟨hcount, hcontiguous, hkept⟩ := hsound
  refine ⟨hcount, hcontiguous, hkept, fun hwrite => ?_, fun hread => ?_⟩
  · obtain ⟨n, value, byte, hv, -, rfl⟩ := runEntry_of_mem_writeTable hwrite
    exact (runMask_toNat (hv.trans (width_le_eight w))).trans_lt (run_lt hv)
  · obtain ⟨n, value, byte, hv, hb, rfl⟩ := runEntry_of_mem_readTable hread
    have hv8 := hv.trans (width_le_eight w)
    rw [runEntry, dshift_runMask hb hv8, runMask_toNat hv8]
    exact run_lt hv

end Sys2Proof.Machine

/-! SUPPORT. How a PACK ends as a command (41_pack R161 to R174): the section it delivers, the counts where it runs short
of values or is refused a byte, and why bits above the width leave no trace (R168). -/

namespace Sys2Proof.Machine

open Sys2Proof

/-! ## The sink's answers (20_memory R67) -/

theorem getD_ok_of_take {sink : List SinkAnswer} {len : Nat} (hs : ∀ a ∈ sink.take len, a = .ok) :
    ∀ j < len, sink.getD j .ok = .ok := by
  intro j hj
  rw [List.getD_eq_getElem?_getD]
  rcases hg : sink[j]? with _ | a
  · rfl
  · exact hs a (List.mem_of_getElem? ((List.getElem?_take_of_lt hj).trans hg))

theorem getD_ok_of_replicate {j i : Nat} (hi : i < j) (rest : List SinkAnswer) :
    (List.replicate j SinkAnswer.ok ++ rest).getD i .ok = .ok := by
  rw [List.getD_append _ _ _ _ (by simpa using hi), List.getD_replicate _ hi]

theorem getD_replicate_append_cons (j : Nat) (a : SinkAnswer) (rest : List SinkAnswer) :
    (List.replicate j SinkAnswer.ok ++ a :: rest).getD j .ok = a := by
  simp

theorem drop_replicate_append_cons (j : Nat) (a : SinkAnswer) (rest : List SinkAnswer) :
    (List.replicate j SinkAnswer.ok ++ a :: rest).drop (j + 1) = rest := by
  simp [List.drop_append]

/-! ## The command around its run -/

section

variable {w : Width} {s : State} {m : Engine} {k : ErrKind}

theorem raise_clear (k : ErrKind) (he : s.err = 0) : raise k s = respond k.code 0 { s with err := k.code } := by
  rw [raise, latchAfter_clear k he]

/-- A codec command without dimensions stops before its run (41_pack R161, 42_unpack R181). -/
theorem codecCommand_dimsUnset {back : Engine → State → State} {run : State → Run} (he : s.err = 0)
    (hd : s.height = 0 ∨ s.width = 0) : codecCommand back run s = .next (raise .badDimensions s) := by
  have hunset : dimsUnset s = true := by simpa [dimsUnset] using hd
  rw [codecCommand, unlessLatched_clear _ he, if_pos hunset]

theorem packCommand_ready (hs : CodecReady s) :
    packCommand w s = finishRun storePack s
      (packRun s.params.bitOrder w (gridSize s) (Engine.start s s.vin s.bout)) := by
  obtain ⟨he, hh, hw, -, -⟩ := hs
  exact packCommand_runs he hh hw

/-- A PACK whose run raises an error answers its code over what the run left (60_exceptions R258). -/
theorem packCommand_raised (hs : CodecReady s)
    (hrun : packRun s.params.bitOrder w (gridSize s) (Engine.start s s.vin s.bout) = .raised k m) :
    packCommand w s = .next (respond k.code 0 { storePack m s with err := k.code }) := by
  have he : s.err = 0 := hs.1
  rw [packCommand_ready hs, hrun, finishRun, raise_clear k (s := storePack m s) he]

/-- A PACK with its values there and a sink that accepts (41_pack R172). -/
theorem packCommand_delivers {n len : Nat} (hs : CodecReady s) (hn : n = gridSize s)
    (hlen : len = (n * w.bits + 7) / 8) (hv : n ≤ s.vin.queue.length) (hsink : ∀ a ∈ s.sink.take len, a = .ok) :
    ∃ (bytes : List Byte) (cur : BitVec 8) (rem : BitVec 4) (acc : BitVec 8) (accBits step : BitVec 4),
      IsSection s.params.bitOrder w.bits (s.vin.queue.take n) bytes ∧
      packCommand w s = .next { s with
        vcnt := BitVec.ofNat 37 n, bcnt := BitVec.ofNat 37 len
        cur := cur, rem := rem, acc := acc, accBits := accBits, step := step
        vin := ⟨s.vin.queue.drop n, s.vin.atEnd⟩
        bout := s.bout ++ bytes, sink := s.sink.drop len
        responses := s.responses ++ [⟨0, BitVec.ofNat 64 len⟩] } := by
  have hn36 : n ≤ 2 ^ 36 := hn ▸ codecReady_gridSize_le hs
  have hbits : n * w.bits ≤ 2 ^ 36 * 7 := Nat.mul_le_mul hn36 (by cases w <;> decide)
  obtain ⟨m, bytes, hrun, hout, hsec, hvc, hbc, hin, hsk⟩ :=
    packRun_complete hn36 (packing_start s.params.bitOrder w s s.vin s.bout) hlen hv (getD_ok_of_take hsink)
  refine ⟨bytes, m.cur, m.rem, m.acc, m.accBits, m.step, hsec, ?_⟩
  rw [packCommand_ready hs, ← hn, hrun, finishRun, hbc, setWidth_count (by omega), ← hbc, ← hvc]
  change m.input = ⟨s.vin.queue.drop n, s.vin.atEnd⟩ at hin
  change m.sink = s.sink.drop len at hsk
  change m.output = s.bout ++ bytes at hout
  rw [← hin, ← hsk, ← hout]
  rfl

/-- A PACK that meets `EOS` after `j` values (41_pack R166, R174). -/
theorem packCommand_starved {j : Nat} (hs : CodecReady s) (hj : j = s.vin.queue.length) (hjn : j < gridSize s)
    (hend : s.vin.atEnd = .eos) (hsink : ∀ a ∈ s.sink.take (j * w.bits / 8), a = .ok) :
    ∃ (bytes : List Byte) (cur : BitVec 8) (rem : BitVec 4) (acc : BitVec 8) (accBits step : BitVec 4),
      bytes.length = j * w.bits / 8 ∧
      packCommand w s = .next { s with
        vcnt := BitVec.ofNat 37 j, bcnt := BitVec.ofNat 37 (j * w.bits / 8)
        cur := cur, rem := rem, acc := acc, accBits := accBits, step := step
        vin := ⟨[], .eos⟩
        bout := s.bout ++ bytes, sink := s.sink.drop (j * w.bits / 8)
        err := 1, responses := s.responses ++ [⟨1, 0⟩] } := by
  obtain ⟨m, bytes, hrun, hout, hlen, hvc, hbc, hin, hsk⟩ :=
    (packRun_starved (codecReady_gridSize_le hs) (packing_start s.params.bitOrder w s s.vin s.bout) hj hjn
      (getD_ok_of_take hsink)).1 hend
  refine ⟨bytes, m.cur, m.rem, m.acc, m.accBits, m.step, hlen, ?_⟩
  change m.sink = s.sink.drop _ at hsk
  change m.output = s.bout ++ bytes at hout
  rw [packCommand_raised hs hrun, ← hvc, ← hbc, ← hin, ← hsk, ← hout]
  rfl

/-- A PACK whose sink accepts `j` bytes and refuses the next (41_pack R165, R167, R174). -/
theorem packCommand_refused {j taken : Nat} {rest : List SinkAnswer} (hs : CodecReady s)
    (hsink : s.sink = List.replicate j .ok ++ .fail :: rest) (hj : j < (gridSize s * w.bits + 7) / 8)
    (ht : taken = min (gridSize s) ((8 * (j + 1) + w.bits - 1) / w.bits)) (hv : taken ≤ s.vin.queue.length) :
    ∃ (bytes : List Byte) (cur : BitVec 8) (rem : BitVec 4) (acc : BitVec 8) (accBits step : BitVec 4),
      bytes.length = j ∧
      packCommand w s = .next { s with
        vcnt := BitVec.ofNat 37 taken, bcnt := BitVec.ofNat 37 j
        cur := cur, rem := rem, acc := acc, accBits := accBits, step := step
        vin := ⟨s.vin.queue.drop taken, s.vin.atEnd⟩
        bout := s.bout ++ bytes, sink := rest
        err := 2, responses := s.responses ++ [⟨2, 0⟩] } := by
  have haccept : ∀ i < j, s.sink.getD i .ok = .ok := fun i hi => hsink ▸ getD_ok_of_replicate hi _
  have hrefuse : s.sink.getD j .ok = .fail := hsink ▸ getD_replicate_append_cons j .fail rest
  have hrest : s.sink.drop (j + 1) = rest := hsink ▸ drop_replicate_append_cons j .fail rest
  obtain ⟨m, bytes, hrun, hout, hlen, hvc, hbc, hin, hsk⟩ :=
    (packRun_blocked (codecReady_gridSize_le hs) (packing_start s.params.bitOrder w s s.vin s.bout) hj ht hv haccept).1
      hrefuse
  refine ⟨bytes, m.cur, m.rem, m.acc, m.accBits, m.step, hlen, ?_⟩
  change m.sink = s.sink.drop _ at hsk
  change m.output = s.bout ++ bytes at hout
  change m.input = ⟨s.vin.queue.drop taken, s.vin.atEnd⟩ at hin
  rw [packCommand_raised hs hrun, ← hvc, ← hbc, ← hin, ← hrest, ← hsk, ← hout]
  rfl

end

/-! ## The bits above the width (41_pack R168) -/

/-- The port with each element waiting reduced to the bits of `low`. -/
def InPort.reduced (low : Byte) (p : InPort) : InPort := ⟨p.queue.map (· &&& low), p.atEnd⟩

/-- The engine with CUR and the elements waiting reduced to the bits of `low`. -/
def Engine.reduced (low : Byte) (m : Engine) : Engine :=
  { m with cur := m.cur &&& low, input := m.input.reduced low }

/-- The stretch with the engine it ends with reduced to the bits of `low`. -/
def Run.reduced (low : Byte) : Run → Run
  | .going m => .going (m.reduced low)
  | .raised k m => .raised k (m.reduced low)
  | .stuck => .stuck

section

variable {o : BitOrder} {w : Width} {low : Byte} {m : Engine}

@[simp] theorem reduced_rem : (m.reduced low).rem = m.rem := rfl
@[simp] theorem reduced_accBits : (m.reduced low).accBits = m.accBits := rfl
@[simp] theorem reduced_step : (m.reduced low).step = m.step := rfl
@[simp] theorem reduced_vcnt : (m.reduced low).vcnt = m.vcnt := rfl
@[simp] theorem reduced_bcnt : (m.reduced low).bcnt = m.bcnt := rfl
@[simp] theorem reduced_output : (m.reduced low).output = m.output := rfl
@[simp] theorem reduced_sink : (m.reduced low).sink = m.sink := rfl

theorem InPort.reduced_reduced (low : Byte) (p : InPort) : (p.reduced low).reduced low = p.reduced low := by
  simp [InPort.reduced, BitVec.and_assoc]

/-- Two stretches that may be run over reduced elements may be so run one after the other. -/
theorem reduced_andThen {r : Run} {f : Engine → Run} (hf : ∀ m, f (m.reduced low) = (f m).reduced low) :
    (r.reduced low).andThen f = (r.andThen f).reduced low := by
  cases r with
  | going m => exact hf m
  | raised k m => rfl
  | stuck => rfl

theorem pullValue_reduced (m : Engine) : pullValue w (m.reduced low) = (pullValue w m).reduced low := by
  obtain ⟨cur, rem, acc, accBits, step, vcnt, bcnt, ⟨queue, atEnd⟩, output, sink⟩ := m
  by_cases hrem : rem = 0#4
  · cases queue <;> cases atEnd <;> simp [pullValue, Engine.reduced, InPort.reduced, Run.reduced, InPort.pull, hrem]
  · simp [pullValue, Engine.reduced, Run.reduced, hrem]

theorem pushByte_reduced (m : Engine) : pushByte (m.reduced low) = (pushByte m).reduced low := by
  unfold pushByte
  rw [reduced_sink]
  rcases nextAnswer m.sink with ⟨_ | _ | _, rest⟩ <;> rfl

theorem emitByte_reduced (m : Engine) : emitByte (m.reduced low) = (emitByte m).reduced low := by
  unfold emitByte
  rw [pushByte_reduced, reduced_accBits]
  split <;> rfl

theorem flushByte_reduced (m : Engine) : flushByte (m.reduced low) = (flushByte m).reduced low := by
  unfold flushByte
  rw [pushByte_reduced, reduced_accBits]
  split <;> rfl

/-- A move whose mask lies in `low` takes nothing from the other bits of CUR. -/
theorem move_reduced {e : Entry} (he : low &&& e.mask = e.mask) (m : Engine) :
    (m.reduced low).move e = (m.move e).reduced low := by
  simp [Engine.move, Engine.reduced, BitVec.and_assoc, he]

/-- Every mask of the write table lies in `low`. -/
def WriteMasksIn (o : BitOrder) (w : Width) (low : Byte) : Prop :=
  ∀ k, low &&& (entryAt (writeTable o w) k).mask = (entryAt (writeTable o w) k).mask

theorem writeMasksIn_lowBits (hlow : low.toNat = 2 ^ w.bits - 1) : WriteMasksIn o w low := by
  intro k
  have hmask : (entryAt (writeTable o w) k).mask.toNat < 2 ^ w.bits := by
    rcases Nat.lt_or_ge k (writeTable o w).length with hk | hk
    · rw [entryAt, List.getD_eq_getElem _ _ hk]
      have he := List.getElem_mem hk
      obtain ⟨-, -, -, hsmall, -⟩ := tableEntriesAreSound o w _ (.inl he)
      exact hsmall he
    · rw [entryAt, List.getD_eq_default _ _ hk]
      exact Nat.two_pow_pos _
  refine BitVec.eq_of_toNat_eq ?_
  rw [BitVec.and_comm, BitVec.toNat_and, hlow, Nat.and_two_pow_sub_one_eq_mod, Nat.mod_eq_of_lt hmask]

theorem packStep_reduced (hlow : WriteMasksIn o w low) (m : Engine) :
    packStep o w (m.reduced low) = (packStep o w m).reduced low := by
  unfold packStep
  rw [pullValue_reduced, reduced_andThen fun m => ?_]
  rw [reduced_step, move_reduced (hlow _), emitByte_reduced]
  exact reduced_andThen fun _ => rfl

theorem packLoop_reduced (hlow : WriteMasksIn o w low) (n fuel : Nat) (m : Engine) :
    packLoop o w n fuel (m.reduced low) = (packLoop o w n fuel m).reduced low := by
  induction fuel generalizing m with
  | zero => rfl
  | succ fuel ih =>
    unfold packLoop
    rw [packStep_reduced hlow, reduced_andThen ih, reduced_rem, reduced_vcnt]
    split <;> rfl

theorem packRun_reduced (hlow : WriteMasksIn o w low) (n : Nat) (m : Engine) :
    packRun o w n (m.reduced low) = (packRun o w n m).reduced low := by
  rw [packRun, packLoop_reduced hlow, reduced_andThen flushByte_reduced, packRun]

end

/-- The unit with the elements waiting on VIN reduced to the bits of `low`. -/
def State.reduced (low : Byte) (s : State) : State := { s with vin := s.vin.reduced low }

/-- The same bytes pushed, responses, latch and counters. -/
def SameOutcome (t t' : State) : Prop :=
  t'.bout = t.bout ∧ t'.responses = t.responses ∧ t'.err = t.err ∧ t'.vcnt = t.vcnt ∧ t'.bcnt = t.bcnt

section

variable {w : Width} {low : Byte} {s t : State}

/-- A PACK starts with CUR as it finds it, so the two runs agree only up to the bits that no mask takes. -/
theorem packFrom_reduced (hlow : WriteMasksIn s.params.bitOrder w low) :
    (packFrom w (s.reduced low)).reduced low = (packFrom w s).reduced low := by
  have hstart : (Engine.start (s.reduced low) (s.reduced low).vin (s.reduced low).bout).reduced low =
      (Engine.start s s.vin s.bout).reduced low := by
    simp [Engine.reduced, Engine.start, State.reduced, InPort.reduced_reduced]
  unfold packFrom
  rw [← packRun_reduced hlow, ← packRun_reduced (o := (s.reduced low).params.bitOrder) hlow, hstart]
  rfl

theorem reduced_eq_going {r : Run} {m1 : Engine} (h : r.reduced low = .going m1) :
    ∃ m, r = .going m ∧ m.reduced low = m1 := by
  cases r with
  | going m => exact ⟨m, rfl, Run.going.inj h⟩
  | raised k m => cases h
  | stuck => cases h

theorem reduced_eq_raised {r : Run} {k : ErrKind} {m1 : Engine} (h : r.reduced low = .raised k m1) :
    ∃ m, r = .raised k m ∧ m.reduced low = m1 := by
  cases r with
  | going m => cases h
  | raised k' m =>
    obtain ⟨rfl, hm⟩ := Run.raised.inj h
    exact ⟨m, rfl, hm⟩
  | stuck => cases h

theorem storePack_sameOutcome {m m' : Engine} (h : m'.reduced low = m.reduced low) :
    SameOutcome (storePack m s) (storePack m' (s.reduced low)) :=
  ⟨by simpa using congrArg Engine.output h, rfl, rfl, by simpa using congrArg Engine.vcnt h,
    by simpa using congrArg Engine.bcnt h⟩

theorem SameOutcome.respond {t' : State} (h : SameOutcome t t') (e : BitVec 8) (v : BitVec 64) :
    SameOutcome (Machine.respond e v t) (Machine.respond e v t') := by
  obtain ⟨hbout, hresp, herr, hvcnt, hbcnt⟩ := h
  exact ⟨hbout, by simp [hresp], herr, hvcnt, hbcnt⟩

theorem SameOutcome.raise {t' : State} (h : SameOutcome t t') (k : ErrKind) :
    SameOutcome (Machine.raise k t) (Machine.raise k t') := by
  obtain ⟨hbout, hresp, herr, hvcnt, hbcnt⟩ := h
  exact ⟨hbout, by simp [hresp], congrArg (latchAfter k) herr, hvcnt, hbcnt⟩

/-- Runs that agree on the bits of `low` finish with the same outcome. -/
theorem finishRun_reduced {r r' : Run} (hr : r'.reduced low = r.reduced low) (hx : finishRun storePack s r = .next t) :
    ∃ t', finishRun storePack (s.reduced low) r' = .next t' ∧ SameOutcome t t' := by
  cases r with
  | going m =>
    obtain ⟨m', rfl, hm⟩ := reduced_eq_going hr
    have hbcnt : m'.bcnt = m.bcnt := by simpa using congrArg Engine.bcnt hm
    cases hx
    refine ⟨_, rfl, ?_⟩
    rw [hbcnt]
    exact (storePack_sameOutcome hm).respond _ _
  | raised k m =>
    obtain ⟨m', rfl, hm⟩ := reduced_eq_raised hr
    cases hx
    exact ⟨_, rfl, (storePack_sameOutcome hm).raise k⟩
  | stuck => cases hx

theorem packCommand_reduced (hlow : WriteMasksIn s.params.bitOrder w low) (hx : packCommand w s = .next t) :
    ∃ t', packCommand w (s.reduced low) = .next t' ∧ SameOutcome t t' := by
  have hdims : dimsUnset (s.reduced low) = dimsUnset s := rfl
  rw [packCommand_eq, codecCommand] at hx ⊢
  rcases unlessLatched_next hx with ⟨he, rfl⟩ | ⟨he, hx⟩
  · exact ⟨_, unlessLatched_set _ he, rfl, rfl, rfl, rfl, rfl⟩
  · rw [unlessLatched_clear (s := s.reduced low) _ he, hdims]
    split at hx
    · cases hx
      exact ⟨_, if_pos ‹_›, rfl, rfl, rfl, rfl, rfl⟩
    · rw [if_neg ‹_›]
      exact finishRun_reduced (packFrom_reduced hlow) hx

end

/-! ## The statements -/

/-- Settles O22: the walk over all `N * w` bits ends with the section pushed and the counters at its size. -/
theorem packDeliversTheSection : Obligations.PackDeliversTheSection := by
  unfold Obligations.PackDeliversTheSection
  intro s i w n len hi hs hn hlen hv hsink
  rcases hi with ⟨rfl, rfl⟩ | ⟨rfl, rfl⟩
  · exact packCommand_delivers (w := .w5) hs hn hlen hv hsink
  · exact packCommand_delivers (w := .w7) hs hn hlen hv hsink

/-- Settles O24: the entry check comes before the run, and the invariant bounds both dimensions. -/
theorem codecNeedsDimensions : Obligations.CodecNeedsDimensions := by
  unfold Obligations.CodecNeedsDimensions
  refine ⟨fun s e i hi he hd => ?_, fun s hwf he hh hw => ?_⟩
  · have hraise : exec i s = .next (raise .badDimensions s) := by
      rcases hi with rfl | rfl | rfl | rfl
      · exact (packCommand_eq .w5 s).trans (codecCommand_dimsUnset he hd)
      · exact (packCommand_eq .w7 s).trans (codecCommand_dimsUnset he hd)
      · exact (unpackCommand_eq .w5 e s).trans (codecCommand_dimsUnset he hd)
      · exact (unpackCommand_eq .w7 e s).trans (codecCommand_dimsUnset he hd)
    rw [hraise, raise_clear .badDimensions he]
    rfl
  · have hform := wf_iff_inForm.1 hwf
    exact ⟨⟨he, hh, hw, hform.height, hform.width⟩,
      Nat.mul_pos (BitVec.toNat_pos_of_ne_zero hh) (BitVec.toNat_pos_of_ne_zero hw), hform.valueCount_le⟩

/-- Settles O25: the walk over the bits of the `k` values leaves no value over, and the next pull meets `EOS`. -/
theorem packShortOfValues : Obligations.PackShortOfValues := by
  unfold Obligations.PackShortOfValues
  intro s i w k hi hs hk hkn hend hsink
  rcases hi with ⟨rfl, rfl⟩ | ⟨rfl, rfl⟩
  · exact packCommand_starved (w := .w5) hs hk hkn hend hsink
  · exact packCommand_starved (w := .w7) hs hk hkn hend hsink

/-- Settles O26: the walk stops at the push of byte `j`, a full one or the final partial one. -/
theorem packStopsAtARefusedByte : Obligations.PackStopsAtARefusedByte := by
  unfold Obligations.PackStopsAtARefusedByte
  intro s i w j taken rest hi hs hsink hj ht hv
  rcases hi with ⟨rfl, rfl⟩ | ⟨rfl, rfl⟩
  · exact packCommand_refused (w := .w5) hs hsink hj ht hv
  · exact packCommand_refused (w := .w7) hs hsink hj ht hv

/-- Settles O27: no mask of a write table takes a bit above the width, so every table step commutes with reducing. -/
theorem packIgnoresHighBits : Obligations.PackIgnoresHighBits := by
  unfold Obligations.PackIgnoresHighBits
  intro s t i low hi hx
  rcases hi with ⟨rfl, rfl⟩ | ⟨rfl, rfl⟩
  · exact packCommand_reduced (w := .w5) (writeMasksIn_lowBits rfl) hx
  · exact packCommand_reduced (w := .w7) (writeMasksIn_lowBits rfl) hx

end Sys2Proof.Machine

/-! SUPPORT. How an UNPACK fails as a command (42_unpack R183, R187, R194, R195), and why it takes back what a PACK
delivered (R192): a PACK that succeeded delivered the section of its values, and the bits of a section fix the low bits of
each value. -/

namespace Sys2Proof.Machine

open Sys2Proof

/-! ## The command around its run -/

section

variable {w : Width} {e : Bool} {s : State} {m : Engine} {k : ErrKind}

theorem unpackCommand_ready (hs : CodecReady s) :
    unpackCommand w e s = finishRun storeUnpack s
      (unpackRun s.params.bitOrder w (gridSize s) e (Engine.start s s.bin s.vout)) := by
  obtain ⟨he, hh, hw, -, -⟩ := hs
  exact unpackCommand_runs he hh hw

/-- An UNPACK whose run raises an error answers its code over what the run left (60_exceptions R258). -/
theorem unpackCommand_raised (hs : CodecReady s)
    (hrun : unpackRun s.params.bitOrder w (gridSize s) e (Engine.start s s.bin s.vout) = .raised k m) :
    unpackCommand w e s = .next (respond k.code 0 { storeUnpack m s with err := k.code }) := by
  have he : s.err = 0 := hs.1
  rw [unpackCommand_ready hs, hrun, finishRun, raise_clear k (s := storeUnpack m s) he]

/-! ## The failures -/

/-- An UNPACK that meets `EOS` after `j` bytes (42_unpack R183, R195). -/
theorem unpackCommand_starved {j : Nat} (hs : CodecReady s) (hj : j = s.bin.queue.length)
    (hjn : j < (gridSize s * w.bits + 7) / 8) (hend : s.bin.atEnd = .eos) :
    ∃ (vs : List Byte) (cur : BitVec 8) (rem : BitVec 4) (acc : BitVec 8) (accBits step : BitVec 4),
      vs.length = 8 * j / w.bits ∧
      unpackCommand w e s = .next { s with
        vcnt := BitVec.ofNat 37 (8 * j / w.bits), bcnt := BitVec.ofNat 37 j
        cur := cur, rem := rem, acc := acc, accBits := accBits, step := step
        bin := ⟨[], .eos⟩
        vout := s.vout ++ vs
        err := 1, responses := s.responses ++ [⟨1, 0⟩] } := by
  obtain ⟨m, vs, hrun, hout, hlen, hvc, hbc, hin, -⟩ :=
    (unpackRun_starved (e := e) (codecReady_gridSize_le hs) (unpacking_start s.params.bitOrder w s s.bin s.vout) hj
      hjn).1 hend
  refine ⟨vs, m.cur, m.rem, m.acc, m.accBits, m.step, hlen, ?_⟩
  change m.output = s.vout ++ vs at hout
  rw [unpackCommand_raised hs hrun, ← hvc, ← hbc, ← hin, ← hout]
  rfl

/-- The end-of-stream check takes a byte that is there and does not count it (42_unpack R187). -/
theorem probeEnd_raises (hne : m.input.queue ≠ []) :
    probeEnd true m = .raised .badData { m with input := ⟨m.input.queue.drop 1, m.input.atEnd⟩ } := by
  obtain ⟨cur, rem, acc, accBits, step, vcnt, bcnt, ⟨queue, atEnd⟩, output, sink⟩ := m
  cases queue with
  | nil => exact absurd rfl hne
  | cons x xs => rfl

/-- An UNPACK with `e = 1` and a byte behind the section: all values are pushed, then the check fails (42_unpack R187,
R195). -/
theorem unpackCommand_trailing {n len : Nat} (hs : CodecReady s) (hn : n = gridSize s)
    (hlen : len = (n * w.bits + 7) / 8) (hmore : len < s.bin.queue.length) :
    ∃ (vs : List Byte) (cur : BitVec 8) (rem : BitVec 4) (acc : BitVec 8) (accBits step : BitVec 4),
      vs.length = n ∧
      unpackCommand w true s = .next { s with
        vcnt := BitVec.ofNat 37 n, bcnt := BitVec.ofNat 37 len
        cur := cur, rem := rem, acc := acc, accBits := accBits, step := step
        bin := ⟨s.bin.queue.drop (len + 1), s.bin.atEnd⟩
        vout := s.vout ++ vs
        err := 1, responses := s.responses ++ [⟨1, 0⟩] } := by
  obtain ⟨m, vs, hrun, hout, hvs, -, hvc, hbc, hin, -⟩ :=
    unpackLoop_complete (hn ▸ codecReady_gridSize_le hs) (unpacking_start s.params.bitOrder w s s.bin s.vout) hlen
      hmore.le
  change m.input = ⟨s.bin.queue.drop len, s.bin.atEnd⟩ at hin
  change m.output = s.vout ++ vs at hout
  have hleft : m.input.queue ≠ [] := by
    rw [hin]
    exact fun hnil => absurd (List.drop_eq_nil_iff.1 hnil) (by omega)
  have hraise : unpackRun s.params.bitOrder w (gridSize s) true (Engine.start s s.bin s.vout) =
      .raised .badData { m with input := ⟨s.bin.queue.drop (len + 1), s.bin.atEnd⟩ } := by
    rw [← hn, unpackRun, hrun, andThen_going, probeEnd_raises hleft, hin, List.drop_drop]
  refine ⟨vs, m.cur, m.rem, m.acc, m.accBits, m.step, hvs, ?_⟩
  rw [unpackCommand_raised hs hraise, ← hvc, ← hbc, ← hout]
  rfl

end

/-! ## A PACK that succeeds had its values and a sink that accepts -/

section

variable {o : BitOrder} {w : Width} {m0 m : Engine} {n : Nat}

theorem packRun_starved_ne_going (hn : n ≤ 2 ^ 36) (h : (packing o w).At m0 0 m0) (hk : m0.input.queue.length < n)
    (hs : ∀ j < m0.input.queue.length * w.bits / 8, m0.sink.getD j .ok = .ok) : packRun o w n m0 ≠ .going m := by
  obtain ⟨heos, hnever⟩ := packRun_starved hn h rfl hk hs
  cases hend : m0.input.atEnd with
  | eos =>
    obtain ⟨m', -, hrun, -⟩ := heos hend
    rw [hrun]
    exact Run.noConfusion
  | never =>
    rw [hnever hend]
    exact Run.noConfusion

theorem packRun_blocked_ne_going {j : Nat} (hn : n ≤ 2 ^ 36) (h : (packing o w).At m0 0 m0)
    (hj : j < (n * w.bits + 7) / 8)
    (hv : min n ((8 * (j + 1) + w.bits - 1) / w.bits) ≤ m0.input.queue.length)
    (hs : ∀ i < j, m0.sink.getD i .ok = .ok) (hstop : m0.sink.getD j .ok ≠ .ok) : packRun o w n m0 ≠ .going m := by
  obtain ⟨hfail, hnever⟩ := packRun_blocked hn h hj rfl hv hs
  cases hans : m0.sink.getD j .ok with
  | ok => exact absurd hans hstop
  | fail =>
    obtain ⟨m', -, hrun, -⟩ := hfail hans
    rw [hrun]
    exact Run.noConfusion
  | never =>
    rw [hnever hans]
    exact Run.noConfusion

/-- The first byte not accepted would have stopped the run, or before it the end of VIN. -/
theorem sink_accepts_of_going (hn : n ≤ 2 ^ 36) (h : (packing o w).At m0 0 m0) (hgo : packRun o w n m0 = .going m) :
    ∀ j < (n * w.bits + 7) / 8, m0.sink.getD j .ok = .ok := by
  intro j
  induction j using Nat.strong_induction_on with
  | _ j ih =>
    intro hj
    have hbefore : ∀ i < j, m0.sink.getD i .ok = .ok := fun i hi => ih i hi (hi.trans hj)
    by_contra hstop
    rcases Nat.lt_or_ge m0.input.queue.length (min n ((8 * (j + 1) + w.bits - 1) / w.bits)) with hshort | hv
    · obtain ⟨hkn, hkj⟩ := lt_min_iff.1 hshort
      have hw : 0 < w.bits := (packing_sound o w).sourcePos
      have hle := (Nat.le_div_iff_mul_le hw).1 hkj
      rw [Nat.succ_mul] at hle
      exact packRun_starved_ne_going hn h hkn (fun i hi => hbefore i (by omega)) hgo
    · exact packRun_blocked_ne_going hn h hj hv hbefore hstop hgo

theorem values_there_of_going (hn : n ≤ 2 ^ 36) (h : (packing o w).At m0 0 m0) (hgo : packRun o w n m0 = .going m) :
    n ≤ m0.input.queue.length := by
  by_contra hshort
  have hle : m0.input.queue.length * w.bits ≤ n * w.bits := Nat.mul_le_mul_right _ (by omega)
  exact packRun_starved_ne_going hn h (by omega)
    (fun j hj => sink_accepts_of_going hn h hgo j (by omega)) hgo

end

section

variable {w : Width} {s t : State} {r : BitVec 64} {bytes : List Byte}

/-- A PACK that answers no error has completed its run. -/
theorem packRun_going_of_success (hs : CodecReady s) (hx : packCommand w s = .next t)
    (hr : t.responses = s.responses ++ [⟨0, r⟩]) :
    ∃ m, packRun s.params.bitOrder w (gridSize s) (Engine.start s s.vin s.bout) = .going m ∧
      r = m.bcnt.setWidth 64 ∧ t.bout = m.output := by
  rw [packCommand_ready hs] at hx
  cases hrun : packRun s.params.bitOrder w (gridSize s) (Engine.start s s.vin s.bout) with
  | going m =>
    rw [hrun] at hx
    cases hx
    refine ⟨m, rfl, ?_, rfl⟩
    simpa using hr.symm
  | raised k m =>
    rw [hrun] at hx
    cases hx
    have hcode : k.code = 0 ∧ 0 = r := by simpa using hr
    exact absurd hcode.1 (code_ne_zero k)
  | stuck =>
    rw [hrun] at hx
    cases hx

/-- What a PACK that answers no error delivered is the section of the values it took (41_pack R172). -/
theorem packCommand_success (hs : CodecReady s) (hx : packCommand w s = .next t)
    (hr : t.responses = s.responses ++ [⟨0, r⟩]) (hb : t.bout = s.bout ++ bytes) :
    gridSize s ≤ s.vin.queue.length ∧
      IsSection s.params.bitOrder w.bits (s.vin.queue.take (gridSize s)) bytes ∧
      r = BitVec.ofNat 64 ((gridSize s * w.bits + 7) / 8) := by
  have hn := codecReady_gridSize_le hs
  have hbits : gridSize s * w.bits ≤ 2 ^ 36 * 7 := Nat.mul_le_mul hn (by cases w <;> decide)
  have hstart := packing_start s.params.bitOrder w s s.vin s.bout
  obtain ⟨m, hgo, hrm, hbm⟩ := packRun_going_of_success hs hx hr
  have hv : gridSize s ≤ s.vin.queue.length := values_there_of_going hn hstart hgo
  obtain ⟨m', bytes', hrun, hout, hsec, -, hbc, -, -⟩ :=
    packRun_complete hn hstart rfl hv (sink_accepts_of_going hn hstart hgo)
  obtain rfl : m = m' := Run.going.inj (hgo.symm.trans hrun)
  obtain rfl : bytes = bytes' := List.append_cancel_left (hb.symm.trans (hbm.trans hout))
  exact ⟨hv, hsec, by rw [hrm, hbc, setWidth_count (by omega)]⟩

end

/-! ## The bits of a section fix the low bits of its values -/

section

variable {o : BitOrder} {w : Nat} {low v x : Byte} {vs xs bytes rest : List Byte}

theorem getLsbD_eq_of_valueBits (h : ∀ q < w, valueBit o w v q = valueBit o w x q) :
    ∀ i < w, v.getLsbD i = x.getLsbD i := by
  intro i hi
  cases o with
  | lsbFirst => exact h i hi
  | msbFirst =>
    have hbit : v.getLsbD (w - 1 - (w - 1 - i)) = x.getLsbD (w - 1 - (w - 1 - i)) := h (w - 1 - i) (by omega)
    rwa [show w - 1 - (w - 1 - i) = i by omega] at hbit

/-- A value below `2^w` is known by its `w` bits. -/
theorem eq_and_low_of_valueBits (hlow : low.toNat = 2 ^ w - 1) (hv : v.toNat < 2 ^ w)
    (h : ∀ q < w, valueBit o w v q = valueBit o w x q) : v = x &&& low := by
  refine BitVec.eq_of_getLsbD_eq fun i _ => ?_
  have hmask : low.getLsbD i = decide (i < w) := by
    rw [BitVec.getLsbD, hlow, Nat.testBit_two_pow_sub_one]
  rw [BitVec.getLsbD_and, hmask]
  rcases Nat.lt_or_ge i w with hi | hi
  · rw [decide_eq_true hi, Bool.and_true, getLsbD_eq_of_valueBits h i hi]
  · rw [decide_eq_false (Nat.not_lt.2 hi), Bool.and_false]
    exact Nat.testBit_lt_two_pow (hv.trans_le (Nat.pow_le_pow_right Nat.two_pos hi))

/-- The values that a section holds are the values it was made of, reduced to their low bits (42_unpack R192). -/
theorem values_of_section (hw : 0 < w) (hlow : low.toNat = 2 ^ w - 1) (hsec : IsSection o w xs bytes)
    (hvals : HoldsValues o w xs.length (bytes ++ rest) vs) : vs = xs.map (· &&& low) := by
  obtain ⟨hlen, hbytes⟩ := hsec
  obtain ⟨hcount, hsmall, hbits⟩ := hvals
  have hstream : ∀ p < xs.length * w,
      valueBit o w (vs.getD (p / w) 0) (p % w) = valueBit o w (xs.getD (p / w) 0) (p % w) := by
    intro p hp
    have hp8 : p < 8 * bytes.length := by
      rw [hlen, sectionLength]
      omega
    rw [hbits p hp, List.getD_append _ _ _ _ (Nat.div_lt_of_lt_mul hp8), hbytes p hp8, decide_eq_true hp, Bool.true_and]
  refine List.ext_getElem (by rw [hcount, List.length_map]) fun j hj _ => ?_
  have hjx : j < xs.length := hcount ▸ hj
  rw [List.getElem_map]
  refine eq_and_low_of_valueBits (o := o) hlow (hsmall _ (List.getElem_mem hj)) fun q hq => ?_
  have hp : w * j + q < xs.length * w :=
    calc w * j + q < w * (j + 1) := Nat.add_lt_add_left hq _
      _ ≤ xs.length * w := by rw [Nat.mul_comm]; exact Nat.mul_le_mul_right w hjx
  have hbit := hstream _ hp
  rwa [Nat.mul_add_div hw, Nat.div_eq_of_lt hq, Nat.add_zero, Nat.mul_add_mod, Nat.mod_eq_of_lt hq,
    List.getD_eq_getElem _ _ hj, List.getD_eq_getElem _ _ hjx] at hbit

end

section

variable {w : Width} {e : Bool} {s t u : State} {low : Byte} {bytes rest : List Byte} {r : BitVec 64}

/-- What a PACK that succeeded delivered, an UNPACK decodes to the values the PACK took (42_unpack R192). -/
theorem unpackCommand_inverts_packCommand (hlow : low.toNat = 2 ^ w.bits - 1) (hs : CodecReady s)
    (hx : packCommand w s = .next t) (hr : t.responses = s.responses ++ [⟨0, r⟩]) (hb : t.bout = s.bout ++ bytes)
    (hu : CodecReady u) (ho : u.params.bitOrder = s.params.bitOrder) (hgrid : gridSize u = gridSize s)
    (hq : u.bin.queue = bytes ++ rest) (hend : e = true → rest = [] ∧ u.bin.atEnd = .eos) :
    ∃ v, unpackCommand w e u = .next v ∧ v.responses = u.responses ++ [⟨0, r⟩] ∧
      v.vout = u.vout ++ (s.vin.queue.take (gridSize s)).map (· &&& low) := by
  obtain ⟨hv, hsec, rfl⟩ := packCommand_success hs hx hr hb
  have htaken : (s.vin.queue.take (gridSize s)).length = gridSize s := List.length_take_of_le hv
  have hbytes : bytes.length = (gridSize s * w.bits + 7) / 8 := by
    rw [hsec.1, htaken, sectionLength]
  obtain ⟨vs, cur, rem, acc, accBits, step, hvals, hrun⟩ :=
    unpackCommand_delivers (w := w) (e := e) hu hgrid.symm rfl (by rw [hq, List.length_append]; omega) fun he => by
      obtain ⟨rfl, heos⟩ := hend he
      exact ⟨by rw [hq, List.append_nil, hbytes], heos⟩
  rw [hq, ho, ← htaken] at hvals
  refine ⟨_, hrun, rfl, ?_⟩
  rw [values_of_section (unpacking_sound s.params.bitOrder w).unitPos hlow hsec hvals]

end

/-! ## The statements -/

/-- Settles O30: the walk over the bits of the `k` bytes leaves no bit over, and the next pull meets `EOS`. -/
theorem unpackShortOfBytes : Obligations.UnpackShortOfBytes := by
  unfold Obligations.UnpackShortOfBytes
  intro s e i w k hi hs hk hkn hend
  rcases hi with ⟨rfl, rfl⟩ | ⟨rfl, rfl⟩
  · exact unpackCommand_starved (w := .w5) hs hk hkn hend
  · exact unpackCommand_starved (w := .w7) hs hk hkn hend

/-- Settles O31: the loop ends with the section complete, and the check that follows finds the byte behind it. -/
theorem trailingByteIsBadData : Obligations.TrailingByteIsBadData := by
  unfold Obligations.TrailingByteIsBadData
  intro s i w n len hi hs hn hlen hmore
  rcases hi with ⟨rfl, rfl⟩ | ⟨rfl, rfl⟩
  · exact unpackCommand_trailing (w := .w5) hs hn hlen hmore
  · exact unpackCommand_trailing (w := .w7) hs hn hlen hmore

/-- Settles O33: success means that the section was delivered, and its bits give each value's low bits back. -/
theorem unpackInvertsPack : Obligations.UnpackInvertsPack := by
  unfold Obligations.UnpackInvertsPack
  intro s t u e i j low bytes rest r hi hs hx hr hb hu ho hh hw hq hend
  have hgrid : gridSize u = gridSize s := by rw [gridSize, gridSize, hh, hw]
  rcases hi with ⟨rfl, rfl, rfl⟩ | ⟨rfl, rfl, rfl⟩
  · exact unpackCommand_inverts_packCommand (w := .w5) rfl hs hx hr hb hu ho hgrid hq hend
  · exact unpackCommand_inverts_packCommand (w := .w7) rfl hs hx hr hb hu ho hgrid hq hend

end Sys2Proof.Machine

/-! SUPPORT. The tile family (43_tile_stats): how a load fails, how a statistics command ends, and each statistic as a sum
over the rows and columns of the tile, with its bound. -/

namespace Sys2Proof.Machine

open Sys2Proof

/-! ## The loads that fail -/

section

variable {p : Params} {s : State} {th tw : Byte} {b : TileBuf} {put : TileBuf → State → State}

theorem tileDimsInRange_false
    (h : th = 0 ∨ tw = 0 ∨ p.nomH.toNat < th.toNat ∨ p.nomW.toNat < tw.toNat) : tileDimsInRange p th tw = false := by
  refine decide_eq_false ?_
  rintro ⟨hth, htw, hnh, hnw⟩
  rcases h with rfl | rfl | h | h
  · exact absurd hth (by decide)
  · exact absurd htw (by decide)
  · omega
  · omega

/-- A load of dimensions out of range (43_tile_stats R201). -/
theorem loadTile_badDims (hd : tileDimsInRange s.params th tw = false) :
    loadTile put b th tw s = .next (raise .badData (put ⟨false, 0, 0, b.cells⟩ s)) := by
  rw [loadTile, hd]
  rfl

/-- A load that VIN cannot fill (43_tile_stats R202, R203). -/
theorem loadTile_short (hd : tileDimsInRange s.params th tw = true)
    (hq : s.vin.queue.length < th.toNat * tw.toNat) (hend : s.vin.atEnd = .eos) :
    ∃ cells : List Byte, cells.length = b.cells.length ∧
      loadTile put b th tw s = .next (raise .badData (put ⟨false, 0, 0, cells⟩ { s with vin := ⟨[], .eos⟩ })) := by
  have hfill := fillCells_short s.params (positions th.toNat tw.toNat) b.cells s.vin.queue (by rwa [positions_length])
  rw [← hend] at hfill
  refine ⟨writeCells s.params (positions th.toNat tw.toNat) s.vin.queue b.cells, writeCells_length .., ?_⟩
  rw [loadTile, if_pos hd, hfill, hend]
  rfl

/-- A load that fails in BadData over the state `s'`, with the latch clear. -/
theorem load_badData {s' : State} (he : s.err = 0) (h : loadTile put b th tw s = .next (raise .badData s'))
    (he' : s'.err = 0) :
    unlessLatched s (fun s => loadTile put b th tw s) = .next (respond 1 0 { s' with err := 1 }) := by
  rw [unlessLatched_clear _ he, h, raise_clear .badData he']
  rfl

end

/-- Settles O43: dimensions out of range end the load before its first pull. -/
theorem loadOfBadDimensions : Obligations.LoadOfBadDimensions := by
  unfold Obligations.LoadOfBadDimensions
  intro s th tw he h
  have hd := tileDimsInRange_false h
  exact ⟨⟨s.ta.cells, rfl, load_badData (put := fun t s => { s with ta := t }) he (loadTile_badDims hd) he⟩,
    ⟨s.tb.cells, rfl, load_badData (put := fun t s => { s with tb := t }) he (loadTile_badDims hd) he⟩⟩

/-- Settles O44: the fill takes all that waits and meets `EOS` at a position still to be written. -/
theorem loadShortOfElements : Obligations.LoadShortOfElements := by
  unfold Obligations.LoadShortOfElements
  intro s th tw he hth hnh htw hnw hq hend
  have hd : tileDimsInRange s.params th tw = true := decide_eq_true ⟨hth, htw, hnh, hnw⟩
  refine ⟨?_, ?_⟩
  · obtain ⟨cells, hl, hrun⟩ := loadTile_short (put := fun t s => { s with ta := t }) (b := s.ta) hd hq hend
    exact ⟨cells, hl, load_badData he hrun he⟩
  · obtain ⟨cells, hl, hrun⟩ := loadTile_short (put := fun t s => { s with tb := t }) (b := s.tb) hd hq hend
    exact ⟨cells, hl, load_badData he hrun he⟩

/-! ## How a statistics command ends -/

section

variable {s : State} {run : State → Result} {a b : TileBuf}

theorem sameShape_iff : sameShape a b = true ↔ a.h = b.h ∧ a.w = b.w := by
  simp [sameShape]

theorem withTileA_runs (he : s.err = 0) (ha : s.ta.valid = true) : withTileA s run = run s := by
  rw [withTileA, unlessLatched_clear _ he]
  exact if_pos ha

theorem withTileA_invalid (he : s.err = 0) (ha : s.ta.valid = false) :
    withTileA s run = .next (respond 4 0 { s with err := 4 }) := by
  rw [withTileA, unlessLatched_clear _ he, validA, ha, raise_clear .badCommand he]
  rfl

theorem withBothTiles_runs (he : s.err = 0) (ha : s.ta.valid = true) (hb : s.tb.valid = true)
    (hs : s.ta.h = s.tb.h ∧ s.ta.w = s.tb.w) : withBothTiles s run = run s := by
  rw [withBothTiles, unlessLatched_clear _ he, validA, validB, ha, hb, sameShape_iff.2 hs]
  rfl

theorem withBothTiles_invalid (he : s.err = 0) (h : s.ta.valid = false ∨ s.tb.valid = false) :
    withBothTiles s run = .next (respond 4 0 { s with err := 4 }) := by
  have hv : (validA s && validB s) = false := Bool.and_eq_false_iff.2 h
  rw [withBothTiles, unlessLatched_clear _ he, hv, raise_clear .badCommand he]
  rfl

theorem withBothTiles_shapes (he : s.err = 0) (ha : s.ta.valid = true) (hb : s.tb.valid = true)
    (h : s.ta.h ≠ s.tb.h ∨ s.ta.w ≠ s.tb.w) : withBothTiles s run = .next (respond 1 0 { s with err := 1 }) := by
  have hs : sameShape s.ta s.tb = false := by
    rw [← Bool.not_eq_true, sameShape_iff]
    tauto
  rw [withBothTiles, unlessLatched_clear _ he, validA, validB, ha, hb, hs, raise_clear .badData he]
  rfl

end

/-- Settles O49: the validity check stands before the run of every statistic. -/
theorem statisticsNeedValidTiles : Obligations.StatisticsNeedValidTiles := by
  unfold Obligations.StatisticsNeedValidTiles
  intro s i he h
  rcases h with ⟨rfl | rfl, ha⟩ | ⟨rfl | rfl, hab⟩
  · exact withTileA_invalid he ha
  · exact withTileA_invalid he ha
  · exact withBothTiles_invalid he hab
  · exact withBothTiles_invalid he hab

/-- Settles O50: the shape check stands behind the validity check. -/
theorem shapesMustAgree : Obligations.ShapesMustAgree := by
  unfold Obligations.ShapesMustAgree
  intro s i hi he hshape
  rcases hi with rfl | rfl
  · exact ⟨fun ⟨ha, hb⟩ => withBothTiles_shapes he ha hb hshape, withBothTiles_invalid he⟩
  · exact ⟨fun ⟨ha, hb⟩ => withBothTiles_shapes he ha hb hshape, withBothTiles_invalid he⟩

/-! ## The statistics as sums over rows and columns -/

section

variable {p : Params} {a b : TileBuf}

theorem tileSum_eq (p : Params) (a : TileBuf) : tileSum p a = cellSum p a :=
  sum_positions (fun r c => (a.cell p r c).toNat) _ _

theorem tileAverage_eq (p : Params) (a : TileBuf) :
    tileAverage p a = (2 * cellSum p a + p.area) / (2 * p.area) := by
  rw [tileAverage, tileSum_eq]

theorem tileL1_eq (p : Params) (a b : TileBuf) : tileL1 p a b = cellDistance p a b := by
  refine (sum_positions (fun r c => (cellDiff p a b r c).natAbs) _ _).trans ?_
  refine Finset.sum_congr rfl fun r _ => Finset.sum_congr rfl fun c _ => ?_
  unfold cellDiff
  omega

theorem tileDiffSum_eq (p : Params) (a b : TileBuf) : tileDiffSum p a b =
    ∑ r ∈ Finset.range a.h.toNat, ∑ c ∈ Finset.range a.w.toNat,
      (((a.cell p r c).toNat : Int) - (b.cell p r c).toNat) :=
  sum_positions (cellDiff p a b) _ _

/-- Of two tiles of one shape the sum of the signed differences is the difference of the sums (43_tile_stats R208). -/
theorem tileDiffSum_eq_sub (hs : a.h = b.h ∧ a.w = b.w) : tileDiffSum p a b = (cellSum p a : Int) - cellSum p b := by
  rw [tileDiffSum_eq, cellSum, cellSum, ← hs.1, ← hs.2]
  push_cast
  simp only [Finset.sum_sub_distrib]

/-- Of two tiles of one shape the distance does not depend on which is first (43_tile_stats R207). -/
theorem cellDistance_comm (hs : a.h = b.h ∧ a.w = b.w) : cellDistance p b a = cellDistance p a b := by
  rw [cellDistance, cellDistance, hs.1, hs.2]
  exact Finset.sum_congr rfl fun r _ => Finset.sum_congr rfl fun c _ => Nat.add_comm _ _

theorem cellDistance_eq_zero_iff :
    cellDistance p a b = 0 ↔ ∀ r < a.h.toNat, ∀ c < a.w.toNat, a.cell p r c = b.cell p r c := by
  simp only [cellDistance, Finset.sum_eq_zero_iff, Finset.mem_range]
  refine forall₄_congr fun r _ c _ => ?_
  rw [← BitVec.toNat_inj]
  omega

/-! ### Bounds -/

/-- A sum over an `h` by `w` grid of numbers of at most 255. -/
theorem sum_grid_le {f : Nat → Nat → Nat} (hf : ∀ r c, f r c ≤ 255) (h w : Nat) :
    ∑ r ∈ Finset.range h, ∑ c ∈ Finset.range w, f r c ≤ 255 * h * w :=
  calc ∑ r ∈ Finset.range h, ∑ c ∈ Finset.range w, f r c
    _ ≤ ∑ r ∈ Finset.range h, ∑ c ∈ Finset.range w, 255 :=
      Finset.sum_le_sum fun r _ => Finset.sum_le_sum fun c _ => hf r c
    _ = 255 * h * w := by
      simp only [Finset.sum_const, Finset.card_range, smul_eq_mul]
      ring

theorem cellSum_le (p : Params) (a : TileBuf) : cellSum p a ≤ 255 * a.h.toNat * a.w.toNat :=
  sum_grid_le (fun _ _ => Nat.le_of_lt_succ (BitVec.isLt _)) _ _

theorem cellDistance_le (p : Params) (a b : TileBuf) : cellDistance p a b ≤ 255 * a.h.toNat * a.w.toNat := by
  refine sum_grid_le (fun r c => ?_) _ _
  have ha := (a.cell p r c).isLt
  have hb := (b.cell p r c).isLt
  omega

/-- Bytes as dimensions keep every statistic far below the width of RES. -/
theorem tile_bound_lt (a : TileBuf) : 255 * a.h.toNat * a.w.toNat < 2 ^ 32 := by
  have := Nat.mul_le_mul (Nat.le_of_lt_succ a.h.isLt) (Nat.le_of_lt_succ a.w.isLt)
  rw [Nat.mul_assoc]
  omega

theorem area_pos (hp : p.wf = true) : 0 < p.area := by
  obtain ⟨hh, hw⟩ : p.nomH ≠ 0 ∧ p.nomW ≠ 0 := by simpa [Params.wf] using hp
  exact Nat.mul_pos (Nat.pos_of_ne_zero (BitVec.toNat_ne.1 hh)) (Nat.pos_of_ne_zero (BitVec.toNat_ne.1 hw))

/-- A buffer in form holds a tile within the nominal area (10_state R45, R46). -/
theorem tile_bound_le_area (ha : a.wf p = true) : 255 * a.h.toNat * a.w.toNat ≤ 255 * p.area := by
  rw [Nat.mul_assoc]
  refine Nat.mul_le_mul_left 255 ?_
  obtain ⟨-, ⟨-, hd⟩ | ⟨-, hh, -⟩⟩ := tileBuf_wf_iff.1 ha
  · obtain ⟨-, -, hh, hw⟩ := of_decide_eq_true hd
    exact Nat.mul_le_mul hh hw
  · simp [hh]

/-! ### In RES -/

theorem toNat_ofNat_stat {n : Nat} (hn : n < 2 ^ 32) : (BitVec.ofNat 64 n).toNat = n :=
  by rw [BitVec.toNat_ofNat, Nat.mod_eq_of_lt (by omega)]

/-- Of two tiles of one shape the difference of the sums is within the tile's bound. -/
theorem tileDiffSum_natAbs_le (hs : a.h = b.h ∧ a.w = b.w) :
    (tileDiffSum p a b).natAbs ≤ 255 * a.h.toNat * a.w.toNat := by
  have ha := cellSum_le p a
  have hb := cellSum_le p b
  rw [← hs.1, ← hs.2] at hb
  rw [tileDiffSum_eq_sub hs]
  omega

theorem toInt_ofInt_stat {d : Int} (hd : d.natAbs < 2 ^ 32) : (BitVec.ofInt 64 d).toInt = d :=
  BitVec.toInt_ofInt_eq_self (by decide) (by omega) (by omega)

end

/-- Settles O45: the sum over the positions is the sum over rows and columns, and it fits RES. -/
theorem tsumIsTheSumOfTheCells : Obligations.TsumIsTheSumOfTheCells := by
  unfold Obligations.TsumIsTheSumOfTheCells
  refine ⟨by decide, fun s he ha => ?_⟩
  have hle := cellSum_le s.params s.ta
  have hv := toNat_ofNat_stat (hle.trans_lt (tile_bound_lt s.ta))
  refine ⟨BitVec.ofNat 64 (cellSum s.params s.ta), hv, ?_⟩
  rw [hv]
  refine ⟨hle, fun hwf => hle.trans (tile_bound_le_area hwf), (withTileA_runs he ha).trans ?_⟩
  rw [tileSum_eq]
  rfl

/-! ## The nominal average -/

section

variable {n a : Nat}

/-- `(2n + a) div (2a)` is the integer nearest to `n / a`, an exact half rounded up (43_tile_stats R206). -/
theorem halfUp_bounds (ha : 0 < a) :
    2 * a * ((2 * n + a) / (2 * a)) ≤ 2 * n + a ∧ 2 * n < 2 * a * ((2 * n + a) / (2 * a)) + a := by
  have hlt := Nat.lt_mul_div_succ (2 * n + a) (Nat.mul_pos two_pos ha)
  rw [Nat.mul_succ] at hlt
  exact ⟨Nat.mul_div_le _ _, by omega⟩

theorem halfUp_le_self (ha : 0 < a) : (2 * n + a) / (2 * a) ≤ n :=
  Nat.le_of_lt_succ ((Nat.div_lt_iff_lt_mul (by omega)).2 (by nlinarith))

theorem halfUp_le_255 (ha : 0 < a) (hn : n ≤ 255 * a) : (2 * n + a) / (2 * a) ≤ 255 :=
  Nat.le_of_lt_succ ((Nat.div_lt_iff_lt_mul (by omega)).2 (by omega))

theorem halfUp_mul (ha : 0 < a) (x : Nat) : (2 * (a * x) + a) / (2 * a) = x := by
  have hsum : 2 * (a * x) + a = a + 2 * a * x := by ring
  rw [hsum, Nat.add_mul_div_left _ _ (by omega), Nat.div_eq_of_lt (by omega), Nat.zero_add]

/-- An exact half needs an even divisor (43_tile_stats R206). -/
theorem even_of_half (h : 2 * n % (2 * a) = a) : a % 2 = 0 := by
  rw [Nat.mul_mod_mul_left] at h
  omega

end

theorem tavg_runs {s : State} (he : s.err = 0) (ha : s.ta.valid = true) : exec .tavg s =
    answerStat (BitVec.ofNat 64 ((2 * cellSum s.params s.ta + s.params.area) / (2 * s.params.area))) s := by
  rw [← tileAverage_eq]
  exact withTileA_runs he ha

/-- Settles O46: the bounds of the rounded quotient, over a sum and an area that keep it within RES. -/
theorem tavgRoundsOverTheNominalArea : Obligations.TavgRoundsOverTheNominalArea := by
  unfold Obligations.TavgRoundsOverTheNominalArea
  refine ⟨by decide, fun s a he ha hp harea => ?_⟩
  subst harea
  have hpos := area_pos hp
  have hle := cellSum_le s.params s.ta
  have hv := toNat_ofNat_stat ((halfUp_le_self hpos).trans_lt (hle.trans_lt (tile_bound_lt s.ta)))
  obtain ⟨hlow, hhigh⟩ := halfUp_bounds (n := cellSum s.params s.ta) hpos
  refine ⟨_, hv, ?_⟩
  rw [hv]
  exact ⟨hlow, hhigh, fun hwf => halfUp_le_255 hpos (hle.trans (tile_bound_le_area hwf)), even_of_half,
    tavg_runs he ha⟩

/-- Settles O52: the sum of the cells is the nominal area times their value. -/
theorem constantNominalTileAveragesToItself : Obligations.ConstantNominalTileAveragesToItself := by
  unfold Obligations.ConstantNominalTileAveragesToItself
  intro s x he hp ha hh hw hcell
  have hsum : cellSum s.params s.ta = s.params.area * x.toNat :=
    calc cellSum s.params s.ta
      _ = ∑ r ∈ Finset.range s.ta.h.toNat, ∑ c ∈ Finset.range s.ta.w.toNat, x.toNat :=
        Finset.sum_congr rfl fun r hr => Finset.sum_congr rfl fun c hc =>
          congrArg BitVec.toNat (hcell r (Finset.mem_range.1 hr) c (Finset.mem_range.1 hc))
      _ = s.params.area * x.toNat := by
        simp [hh, hw, Params.area, Nat.mul_assoc]
  rw [tavg_runs he ha, hsum, halfUp_mul (area_pos hp), BitVec.ofNat_toNat]
  rfl

/-! ## Two tiles -/

/-- Settles O47: the distance is a sum of natural numbers, 0 exactly if each is. -/
theorem tdiffIsTheL1Distance : Obligations.TdiffIsTheL1Distance := by
  unfold Obligations.TdiffIsTheL1Distance
  refine ⟨by decide, fun s he ha hb hh hw => ?_⟩
  have hle := cellDistance_le s.params s.ta s.tb
  have hv := toNat_ofNat_stat (hle.trans_lt (tile_bound_lt s.ta))
  refine ⟨BitVec.ofNat 64 (cellDistance s.params s.ta s.tb), hv, ?_⟩
  rw [← BitVec.toNat_inj, hv]
  refine ⟨cellDistance_comm ⟨hh, hw⟩, fun hwf => hle.trans (tile_bound_le_area hwf), cellDistance_eq_zero_iff,
    (withBothTiles_runs he ha hb ⟨hh, hw⟩).trans ?_⟩
  rw [tileL1_eq]
  rfl

/-- Settles O48: the signed differences add up to the difference of the sums, which fits RES in two's complement. -/
theorem tdsumIsTheSignedSum : Obligations.TdsumIsTheSignedSum := by
  unfold Obligations.TdsumIsTheSignedSum
  refine ⟨by decide, fun s he ha hb hh hw => ?_⟩
  have hle := tileDiffSum_natAbs_le (p := s.params) ⟨hh, hw⟩
  refine ⟨BitVec.ofInt 64 (tileDiffSum s.params s.ta s.tb), ?_⟩
  rw [toInt_ofInt_stat (hle.trans_lt (tile_bound_lt s.ta))]
  exact ⟨tileDiffSum_eq_sub ⟨hh, hw⟩, tileDiffSum_eq .., fun hwf => hle.trans (tile_bound_le_area hwf),
    withBothTiles_runs he ha hb ⟨hh, hw⟩⟩

end Sys2Proof.Machine

/-! SUPPORT. The control commands (44_control R231 to R236): the dimension a command sets or refuses, the register GETREG
reads as a number, and the one effect that SRESET and the platform's reset have on the unit. -/

namespace Sys2Proof.Machine

open Sys2Proof Sys2Proof.Laws

/-! ## Commands that only answer -/

/-- Settles O10: NOP returns the response and does nothing else. -/
theorem nopOnlyAnswers : Obligations.NopOnlyAnswers := by
  unfold Obligations.NopOnlyAnswers
  exact ⟨by decide, fun _ => rfl⟩

/-- Settles O15: CLRERR clears the latch before it answers. -/
theorem clrerrClearsTheLatchOnly : Obligations.ClrerrClearsTheLatchOnly := by
  unfold Obligations.ClrerrClearsTheLatchOnly
  exact ⟨by decide, fun _ => rfl⟩

/-! ## The dimension registers -/

section

variable {imm : BitVec 24} {s : State}

theorem dimInRange_iff : dimInRange imm = true ↔ 1 ≤ imm.toNat ∧ imm.toNat ≤ 262144 :=
  decide_eq_true_iff

theorem dimInRange_eq_false (h : imm.toNat < 1 ∨ 262144 < imm.toNat) : dimInRange imm = false := by
  rw [← Bool.not_eq_true, dimInRange_iff]
  omega

/-- A dimension in range fits the 19 bits of its register (10_state R35, R36). -/
theorem setWidth_dim_toNat (h : imm.toNat ≤ 262144) : (imm.setWidth 19).toNat = imm.toNat := by
  rw [BitVec.toNat_setWidth]
  exact Nat.mod_eq_of_lt (by omega)

/-- What SETH and SETW share (44_control R232, R233): `put` writes the dimension into its register. -/
def setDimension (put : BitVec 19 → State → State) (imm : BitVec 24) (s : State) : Result :=
  unlessLatched s fun s =>
    if dimInRange imm then .next (respond 0 0 (put (imm.setWidth 19) s)) else .next (raise .badDimensions s)

theorem execSeth_eq_setDimension :
    execSeth imm s = setDimension (fun h s => { s with height := h }) imm s := rfl

theorem execSetw_eq_setDimension :
    execSetw imm s = setDimension (fun w s => { s with width := w }) imm s := rfl

variable {put : BitVec 19 → State → State}

theorem setDimension_inRange (he : s.err = 0) (hlow : 1 ≤ imm.toNat) (hhigh : imm.toNat ≤ 262144) :
    setDimension put imm s = .next (respond 0 0 (put (imm.setWidth 19) s)) := by
  rw [setDimension, unlessLatched_clear _ he, if_pos (dimInRange_iff.2 ⟨hlow, hhigh⟩)]

theorem setDimension_outOfRange (he : s.err = 0) (hout : imm.toNat < 1 ∨ 262144 < imm.toNat) :
    setDimension put imm s = .next (respond 3 0 { s with err := 3 }) := by
  rw [setDimension, unlessLatched_clear _ he, dimInRange_eq_false hout, raise_clear .badDimensions he]
  rfl

end

/-- Settles O11: the range check decides between the two ends, and a dimension in range survives its register's width. -/
theorem sethSetsTheHeight : Obligations.SethSetsTheHeight := by
  unfold Obligations.SethSetsTheHeight
  refine ⟨encodeI_toNat 1, fun imm s he hlow hhigh => ⟨imm.setWidth 19, setWidth_dim_toNat hhigh, ?_⟩,
    fun imm s he hout => ?_⟩
  · exact execSeth_eq_setDimension.trans (setDimension_inRange he hlow hhigh)
  · exact execSeth_eq_setDimension.trans (setDimension_outOfRange he hout)

/-- Settles O12: as for SETH, with WIDTH. -/
theorem setwSetsTheWidth : Obligations.SetwSetsTheWidth := by
  unfold Obligations.SetwSetsTheWidth
  refine ⟨encodeI_toNat 2, fun imm s he hlow hhigh => ⟨imm.setWidth 19, setWidth_dim_toNat hhigh, ?_⟩,
    fun imm s he hout => ?_⟩
  · exact execSetw_eq_setDimension.trans (setDimension_inRange he hlow hhigh)
  · exact execSetw_eq_setDimension.trans (setDimension_outOfRange he hout)

/-! ## GETREG -/

/-- A word of one flag over two bytes, the form of TA_DIM, TB_DIM and PARAM (10_state R40). -/
theorem flagged_bytes_toNat (b : Bool) (x y : Byte) :
    (BitVec.ofBool b ++ x ++ y).toNat = b.toNat * 2 ^ 16 + x.toNat * 2 ^ 8 + y.toNat := by
  rw [toNat_append_eq_add, toNat_append_eq_add, BitVec.toNat_ofBool]
  ring

theorem dimWord_toNat (t : TileBuf) : t.dimWord.toNat = dimNumber t := by
  rw [TileBuf.dimWord, dimNumber, flagged_bytes_toNat, Bool.toNat, Bool.cond_eq_ite]

theorem paramWord_toNat (p : Params) : (paramWord p).toNat =
    (if p.bitOrder = .lsbFirst then 1 else 0) * 2 ^ 16 + p.nomH.toNat * 2 ^ 8 + p.nomW.toNat := by
  rw [paramWord, flagged_bytes_toNat, Bool.toNat, Bool.cond_eq_ite]
  simp only [beq_iff_eq]

/-- The register numbered `k` holds, zero-extended, the number the table of 10_state R40 gives it. -/
theorem readReg_eq_registerNumber (s : State) {k : Nat} (hk : k ≤ 8) :
    ∃ v, readReg s (BitVec.ofNat 8 k) = some v ∧ some v.toNat = (registerNumber s)[k]? := by
  have widened {w : Nat} (x : BitVec w) (hw : w ≤ 64) : some (x.setWidth 64).toNat = some x.toNat :=
    congrArg some (BitVec.toNat_setWidth_of_le hw)
  interval_cases k
  · exact ⟨_, rfl, widened s.height (by decide)⟩
  · exact ⟨_, rfl, widened s.width (by decide)⟩
  · exact ⟨_, rfl, widened s.err (by decide)⟩
  · exact ⟨s.res, rfl, rfl⟩
  · exact ⟨_, rfl, widened s.vcnt (by decide)⟩
  · exact ⟨_, rfl, widened s.bcnt (by decide)⟩
  · exact ⟨_, rfl, (widened s.ta.dimWord (by decide)).trans (congrArg some (dimWord_toNat s.ta))⟩
  · exact ⟨_, rfl, (widened s.tb.dimWord (by decide)).trans (congrArg some (dimWord_toNat s.tb))⟩
  · exact ⟨_, rfl, (widened (paramWord s.params) (by decide)).trans (congrArg some (paramWord_toNat s.params))⟩

theorem execGetreg_answers {s : State} {r : BitVec 8} {v : BitVec 64} (h : readReg s r = some v) :
    execGetreg r s = .next (respond 0 v s) := by
  rw [execGetreg, h]

/-- A buffer in form without a tile has H = W = 0 (10_state R46). -/
theorem dimNumber_invalid {p : Params} {t : TileBuf} (hwf : t.wf p = true) (hv : t.valid = false) : dimNumber t = 0 := by
  obtain ⟨-, ⟨htrue, -⟩ | ⟨-, hh, hw⟩⟩ := tileBuf_wf_iff.1 hwf
  · exact absurd (hv.symm.trans htrue) Bool.false_ne_true
  · rw [dimNumber, hv, hh, hw]
    rfl

/-- Settles O13: GETREG answers what the register reads, and writes nothing. -/
theorem getregReadsEveryRegister : Obligations.GetregReadsEveryRegister := by
  unfold Obligations.GetregReadsEveryRegister
  refine ⟨encodeR_toNat 3, fun s r hr => ?_, fun _ _ => dimNumber_invalid, ?_⟩
  · obtain ⟨v, hread, hv⟩ := readReg_eq_registerNumber s hr
    rw [BitVec.ofNat_toNat, BitVec.setWidth_eq] at hread
    exact ⟨v, hv, execGetreg_answers hread⟩
  · have hparam : readReg State.reset 8 = some 0x0303 := by decide
    exact execGetreg_answers hparam

/-! ## SRESET and the platform's reset -/

theorem resetUnit_resetValues (s : State) : ResetValues (resetUnit s) :=
  ⟨rfl, rfl, rfl, rfl, rfl, rfl, rfl, rfl, rfl, rfl, rfl, rfl⟩

/-- What the host does next is no part of the unit (70 R292). -/
theorem resetUnit_withHost (s : State) (rest : List HostAction) :
    resetUnit { s with host := rest } = { resetUnit s with host := rest } := rfl

/-- Settles O16: both are `resetUnit`, which leaves ports, constants, host and responses as they are. -/
theorem resetAndSresetGiveTheResetValues : Obligations.ResetAndSresetGiveTheResetValues := by
  unfold Obligations.ResetAndSresetGiveTheResetValues
  refine ⟨⟨rfl, rfl, rfl, rfl, rfl, rfl, rfl, rfl, rfl, rfl, rfl, rfl⟩, by decide, fun s rest => ?_⟩
  refine ⟨resetUnit s, resetUnit_resetValues s, resetUnit_params s, resetUnit_vin s, resetUnit_bin s, resetUnit_vout s,
    resetUnit_bout s, resetUnit_sink s, resetUnit_host s, resetUnit_responses s, rfl, ?_⟩
  exact (step_with_action s .reset rest).trans (congrArg Host.Outcome.next (resetUnit_withHost s rest))

end Sys2Proof.Machine

/-! SUPPORT. What the host gets of a command (60_exceptions R260, R261): the refusal of a latched unit, and the response
with the output that counts. -/

namespace Sys2Proof.Machine

open Sys2Proof

section

variable {i : Instr} {s t : State}

/-! ## Refusal by the latch -/

/-- A command that is not always executed runs behind the latch check (60_exceptions R262). -/
theorem exec_eq_unlessLatched (hi : i.alwaysExecuted = false) : ∃ run, ∀ s, exec i s = unlessLatched s run := by
  cases i with
  | nop | getreg | clrerr | sreset => cases hi
  | _ => exact ⟨_, fun _ => by rfl⟩

/-! ## The observable result -/

/-- A command that goes on returns one response (30_encoding R108). -/
theorem Ends.responds_once (h : Ends i s t) : ∃ r, t.responses = s.responses ++ [r] := by
  cases h with
  | refused => exact ⟨_, refuse_responses s⟩
  | answered hw v => exact ⟨⟨0, v⟩, congrArg (· ++ _) hw.responses_eq⟩
  | failed hw k => exact ⟨⟨k.code, 0⟩, congrArg (· ++ _) hw.responses_eq⟩

/-- What is observed of one response and the pushes made: the pushes count only without an error (60_exceptions R261). -/
theorem observe_eq_of_append {r : Response} {bytes values : List Byte} (hr : t.responses = s.responses ++ [r])
    (hb : t.bout = s.bout ++ bytes) (hv : t.vout = s.vout ++ values) :
    observe s t = some (if r.err = 0 then ⟨r, bytes, values⟩ else ⟨r, [], []⟩) := by
  rw [observe, hr, hb, hv, List.drop_left, List.drop_left, List.drop_left]
  exact (apply_ite some _ _ _).symm

end

/-- Settles O17: the latch check stands before the work of each of these commands. -/
theorem latchedUnitRefusesWork : Obligations.LatchedUnitRefusesWork := by
  unfold Obligations.LatchedUnitRefusesWork
  intro i s hi he
  obtain ⟨run, hrun⟩ := exec_eq_unlessLatched hi
  exact (hrun s).trans (unlessLatched_set run he)

/-- Settles O58: a command appends one response and its pushes, and `observe` reads what was appended. -/
theorem outputOfAFailedCommandIsVoid : Obligations.OutputOfAFailedCommandIsVoid := by
  unfold Obligations.OutputOfAFailedCommandIsVoid
  intro i s t h
  obtain ⟨r, hr⟩ := (exec_ends h).responds_once
  obtain ⟨-, -, ⟨bytes, hb⟩, ⟨values, hv⟩, -⟩ := portsAreFifosOfTheirUsers i s t h
  exact ⟨r, bytes, values, hr, hb, hv, observe_eq_of_append hr hb hv⟩

end Sys2Proof.Machine

/-! SUPPORT. Where a command meets a port that never answers (93_implementation_defined U6, 70_reset_and_hazards R312): the
run of a codec command or the fill of a load is stuck, and the command has no next state (assumption 4). -/

namespace Sys2Proof.Machine

open Sys2Proof

section

variable {w : Width} {e : Bool} {s : State} {m : Engine}

/-! ## A silent input port or sink under a PACK -/

/-- A PACK that finds VIN silent after `k` values. -/
theorem packCommand_vin_silent {k : Nat} (hs : CodecReady s) (hk : k = s.vin.queue.length) (hkn : k < gridSize s)
    (hend : s.vin.atEnd = .never) (hsink : ∀ a ∈ s.sink.take (k * w.bits / 8), a = .ok) :
    packCommand w s = .fault .portNeverAnswers := by
  have hrun := (packRun_starved (codecReady_gridSize_le hs) (packing_start s.params.bitOrder w s s.vin s.bout) hk hkn
    (getD_ok_of_take hsink)).2 hend
  rw [packCommand_ready hs, hrun, finishRun]

/-- A PACK whose sink accepts `j` bytes and is silent at the next. -/
theorem packCommand_sink_silent {j taken : Nat} {rest : List SinkAnswer} (hs : CodecReady s)
    (hsink : s.sink = List.replicate j .ok ++ .never :: rest) (hj : j < (gridSize s * w.bits + 7) / 8)
    (ht : taken = min (gridSize s) ((8 * (j + 1) + w.bits - 1) / w.bits)) (hv : taken ≤ s.vin.queue.length) :
    packCommand w s = .fault .portNeverAnswers := by
  have haccept : ∀ i < j, s.sink.getD i .ok = .ok := fun i hi => hsink ▸ getD_ok_of_replicate hi _
  have hsilent : s.sink.getD j .ok = .never := hsink ▸ getD_replicate_append_cons j .never rest
  have hrun := (packRun_blocked (codecReady_gridSize_le hs) (packing_start s.params.bitOrder w s s.vin s.bout) hj ht hv
    haccept).2 hsilent
  rw [packCommand_ready hs, hrun, finishRun]

/-! ## A silent input port under an UNPACK -/

/-- The end-of-stream check is a pull like any other (42_unpack R187). -/
theorem probeEnd_silent (hin : m.input = ⟨[], .never⟩) : probeEnd true m = .stuck := by
  rw [probeEnd, if_pos rfl, hin, pull_nil_never]

/-- An UNPACK whose BIN holds exactly the section and is silent at the end-of-stream check. -/
theorem unpackRun_probe_silent {o : BitOrder} {m0 : Engine} {n : Nat} (hn : n ≤ 2 ^ 36)
    (h : (unpacking o w).At m0 0 m0) (hlen : m0.input.queue.length = (n * w.bits + 7) / 8)
    (hend : m0.input.atEnd = .never) : unpackRun o w n true m0 = .stuck := by
  obtain ⟨m, vs, hrun, -, -, -, -, -, hin, -⟩ := unpackLoop_complete hn h hlen le_rfl
  rw [List.drop_length, hend] at hin
  rw [unpackRun, hrun, andThen_going, probeEnd_silent hin]

/-- An UNPACK that finds BIN silent at a byte of the section or at the end-of-stream check. -/
theorem unpackCommand_bin_silent {k : Nat} (hs : CodecReady s) (hk : k = s.bin.queue.length)
    (hkn : k < (gridSize s * w.bits + 7) / 8 ∨ (e = true ∧ k = (gridSize s * w.bits + 7) / 8))
    (hend : s.bin.atEnd = .never) : unpackCommand w e s = .fault .portNeverAnswers := by
  have hn := codecReady_gridSize_le hs
  have hstart := unpacking_start s.params.bitOrder w s s.bin s.vout
  have hrun : unpackRun s.params.bitOrder w (gridSize s) e (Engine.start s s.bin s.vout) = .stuck := by
    rcases hkn with hshort | ⟨rfl, hexact⟩
    · exact (unpackRun_starved hn hstart hk hshort).2 hend
    · exact unpackRun_probe_silent hn hstart (hk.symm.trans hexact) hend
  rw [unpackCommand_ready hs, hrun, finishRun]

/-! ## A silent input port under a load -/

/-- A load within bounds that finds VIN silent before its last element (43_tile_stats R202). -/
theorem loadTile_vin_silent {put : TileBuf → State → State} {b : TileBuf} {th tw : Byte}
    (hd : tileDimsInRange s.params th tw = true) (hq : s.vin.queue.length < th.toNat * tw.toNat)
    (hend : s.vin.atEnd = .never) : loadTile put b th tw s = .fault .portNeverAnswers := by
  have hfill := fillCells_stuck s.params (positions th.toNat tw.toNat) b.cells s.vin.queue (by rwa [positions_length])
  rw [← hend] at hfill
  rw [loadTile, if_pos hd, hfill]

end

/-! ## The statement -/

/-- Settles O21: the walk that counts a command's pulls and pushes leads to the unanswered one, where the run is stuck. -/
theorem silentPortHangsTheCommand : Obligations.SilentPortHangsTheCommand := by
  unfold Obligations.SilentPortHangsTheCommand
  refine ⟨?packPull, ?packPush, ?unpackPull, ?loadPull⟩
  case packPull =>
    intro s i w k hi hs hk hkn hend hsink
    rcases hi with ⟨rfl, rfl⟩ | ⟨rfl, rfl⟩
    · exact packCommand_vin_silent (w := .w5) hs hk hkn hend hsink
    · exact packCommand_vin_silent (w := .w7) hs hk hkn hend hsink
  case packPush =>
    intro s i w j taken rest hi hs hsink hj ht hv
    rcases hi with ⟨rfl, rfl⟩ | ⟨rfl, rfl⟩
    · exact packCommand_sink_silent (w := .w5) hs hsink hj ht hv
    · exact packCommand_sink_silent (w := .w7) hs hsink hj ht hv
  case unpackPull =>
    intro s e i w k hi hs hk hkn hend
    rcases hi with ⟨rfl, rfl⟩ | ⟨rfl, rfl⟩
    · exact unpackCommand_bin_silent (w := .w5) hs hk hkn hend
    · exact unpackCommand_bin_silent (w := .w7) hs hk hkn hend
  case loadPull =>
    intro s th tw i hi he hth hnh htw hnw hq hend
    have hd : tileDimsInRange s.params th tw = true := decide_eq_true ⟨hth, htw, hnh, hnw⟩
    rcases hi with rfl | rfl
    · exact (unlessLatched_clear _ he).trans (loadTile_vin_silent hd hq hend)
    · exact (unlessLatched_clear _ he).trans (loadTile_vin_silent hd hq hend)

end Sys2Proof.Machine

/-! SUPPORT. GETREG of a number that names no register (30_encoding R116, assumption 13). -/

namespace Sys2Proof.Machine

open Sys2Proof

/-- The registers are numbered 0 to 8 (10_state R40). -/
theorem readReg_eq_none (s : State) {r : BitVec 8} (hr : 8 < r.toNat) : readReg s r = none := by
  have hne (k : BitVec 8) (hk : k.toNat ≤ 8) : r ≠ k := by
    rintro rfl
    exact absurd hr hk.not_gt
  simp (disch := decide) only [readReg, hne, if_false]

theorem execGetreg_fails {s : State} {r : BitVec 8} (h : readReg s r = none) :
    execGetreg r s = .next (raise .badCommand s) := by
  rw [execGetreg, h]

/-- Settles O14: no register has the number, and raising BadCommand is the whole effect. -/
theorem getregOfAnUndefinedNumber : Obligations.GetregOfAnUndefinedNumber := by
  unfold Obligations.GetregOfAnUndefinedNumber
  intro s r hr
  exact execGetreg_fails (readReg_eq_none s hr)

end Sys2Proof.Machine
